-- ==== Sys2Proof/Word.lean ====
section
/-!
DEFINITION. The machine's words: the widths of 00_scope.md rule R5 and 10_state.md rules R10 to R17.
-/
namespace Sys2Proof

/-- One byte of Memory or of a frame. -/
abbrev Byte := BitVec 8

/-- The 16-bit immediate, and the width of tot_size and bytes_in (R5, R21). -/
abbrev Half := BitVec 16

/-- A general register, HI, LO, pc, an address, an instruction word (R5: XLEN = ILEN = 32). -/
abbrev Word := BitVec 32

/-- A 5-bit register field (R10, R61). -/
abbrev RegNum := BitVec 5

/-- The register file RF[0..31] (R10). -/
abbrev RegFile := Vector Word 32

/-- A serial frame: 20 bytes in the order they travel (R185). -/
abbrev Frame := Vector Byte 20

end Sys2Proof
end

