-- ==== Sys2Proof/Machine/Flags.lean ====
section
/-!
DEFINITION. The core has no flags (10_state.md R24): no instruction has a flag side effect. What stands in their place are the
comparisons that `slt` and its kin write as 0 or 1 and the conditions the branches test directly.
-/
namespace Sys2Proof.Machine

open Sys2Proof

/-- The 32-bit value 1 or 0 (R89, R90, R128, R129). -/
def boolWord (b : Bool) : Word := if b then 1 else 0

/-- `s(a) < s(b)`, exact (R89, R128). -/
def lessSigned (a b : Word) : Bool := decide (a.toInt < b.toInt)

/-- `u(a) < u(b)` (R90, R129). -/
def lessUnsigned (a b : Word) : Bool := decide (a.toNat < b.toNat)

/-- `s(a) <= 0` (R138). -/
def notPositive (a : Word) : Bool := decide (a.toInt ≤ 0)

/-- `s(a) > 0` (R139). -/
def isPositive (a : Word) : Bool := decide (0 < a.toInt)

end Sys2Proof.Machine
end

