-- ==== Sys2Proof/Syntax.lean ====
section
/-!
DEFINITION. The instruction set as syntax: one constructor per row of spec/opcode_table.json, in the table's order, each
with the fields its rule uses and no other (30_encoding.md rules R64 and R65). The operand order is that of R75; a load
or store is written `rt rs imm` (data register, base register, displacement).
-/
namespace Sys2Proof

/-- The 50 instructions (30_encoding.md rules R66 and R67). -/
inductive Instr where
  /-- `sll`, Register format, opcode 0x00, funct 0x00 (R96). -/
  | sll (rd rt : RegNum) (shamt : BitVec 5)
  /-- `srl`, Register format, opcode 0x00, funct 0x02 (R97). -/
  | srl (rd rt : RegNum) (shamt : BitVec 5)
  /-- `sra`, Register format, opcode 0x00, funct 0x03 (R98). -/
  | sra (rd rt : RegNum) (shamt : BitVec 5)
  /-- `sllv`, Register format, opcode 0x00, funct 0x04 (R99). -/
  | sllv (rd rt rs : RegNum)
  /-- `srlv`, Register format, opcode 0x00, funct 0x06 (R100). -/
  | srlv (rd rt rs : RegNum)
  /-- `srav`, Register format, opcode 0x00, funct 0x07 (R101). -/
  | srav (rd rt rs : RegNum)
  /-- `jr`, Register format, opcode 0x00, funct 0x08 (R142). -/
  | jr (rs : RegNum)
  /-- `jalr`, Register format, opcode 0x00, funct 0x09 (R143). -/
  | jalr (rd rs : RegNum)
  /-- `mfhi`, Register format, opcode 0x00, funct 0x10 (R110). -/
  | mfhi (rd : RegNum)
  /-- `mthi`, Register format, opcode 0x00, funct 0x11 (R112). -/
  | mthi (rs : RegNum)
  /-- `mflo`, Register format, opcode 0x00, funct 0x12 (R111). -/
  | mflo (rd : RegNum)
  /-- `mtlo`, Register format, opcode 0x00, funct 0x13 (R113). -/
  | mtlo (rs : RegNum)
  /-- `mult`, Register format, opcode 0x00, funct 0x18 (R106). -/
  | mult (rs rt : RegNum)
  /-- `multu`, Register format, opcode 0x00, funct 0x19 (R107). -/
  | multu (rs rt : RegNum)
  /-- `div`, Register format, opcode 0x00, funct 0x1A (R108). -/
  | div (rs rt : RegNum)
  /-- `divu`, Register format, opcode 0x00, funct 0x1B (R109). -/
  | divu (rs rt : RegNum)
  /-- `add`, Register format, opcode 0x00, funct 0x20 (R81). -/
  | add (rd rs rt : RegNum)
  /-- `addu`, Register format, opcode 0x00, funct 0x21 (R82). -/
  | addu (rd rs rt : RegNum)
  /-- `sub`, Register format, opcode 0x00, funct 0x22 (R83). -/
  | sub (rd rs rt : RegNum)
  /-- `subu`, Register format, opcode 0x00, funct 0x23 (R84). -/
  | subu (rd rs rt : RegNum)
  /-- `and`, Register format, opcode 0x00, funct 0x24 (R85). -/
  | and (rd rs rt : RegNum)
  /-- `or`, Register format, opcode 0x00, funct 0x25 (R86). -/
  | or (rd rs rt : RegNum)
  /-- `xor`, Register format, opcode 0x00, funct 0x26 (R87). -/
  | xor (rd rs rt : RegNum)
  /-- `nor`, Register format, opcode 0x00, funct 0x27 (R88). -/
  | nor (rd rs rt : RegNum)
  /-- `slt`, Register format, opcode 0x00, funct 0x2A (R89). -/
  | slt (rd rs rt : RegNum)
  /-- `sltu`, Register format, opcode 0x00, funct 0x2B (R90). -/
  | sltu (rd rs rt : RegNum)
  /-- `beq`, Immediate format, opcode 0x04 (R136). -/
  | beq (rs rt : RegNum) (imm : Half)
  /-- `bne`, Immediate format, opcode 0x05 (R137). -/
  | bne (rs rt : RegNum) (imm : Half)
  /-- `blez`, Immediate format, opcode 0x06 (R138). -/
  | blez (rs : RegNum) (imm : Half)
  /-- `bgtz`, Immediate format, opcode 0x07 (R139). -/
  | bgtz (rs : RegNum) (imm : Half)
  /-- `addi`, Immediate format, opcode 0x08 (R121). -/
  | addi (rt rs : RegNum) (imm : Half)
  /-- `addiu`, Immediate format, opcode 0x09 (R122). -/
  | addiu (rt rs : RegNum) (imm : Half)
  /-- `slti`, Immediate format, opcode 0x0A (R128). -/
  | slti (rt rs : RegNum) (imm : Half)
  /-- `sltiu`, Immediate format, opcode 0x0B (R129). -/
  | sltiu (rt rs : RegNum) (imm : Half)
  /-- `andi`, Immediate format, opcode 0x0C (R123). -/
  | andi (rt rs : RegNum) (imm : Half)
  /-- `ori`, Immediate format, opcode 0x0D (R124). -/
  | ori (rt rs : RegNum) (imm : Half)
  /-- `xori`, Immediate format, opcode 0x0E (R125). -/
  | xori (rt rs : RegNum) (imm : Half)
  /-- `llo`, Immediate format, opcode 0x18 (R127). -/
  | llo (rt : RegNum) (imm : Half)
  /-- `lhi`, Immediate format, opcode 0x19 (R126). -/
  | lhi (rt : RegNum) (imm : Half)
  /-- `lb`, Immediate format, opcode 0x20 (R151). -/
  | lb (rt rs : RegNum) (imm : Half)
  /-- `lh`, Immediate format, opcode 0x21 (R153). -/
  | lh (rt rs : RegNum) (imm : Half)
  /-- `lw`, Immediate format, opcode 0x23 (R155). -/
  | lw (rt rs : RegNum) (imm : Half)
  /-- `lbu`, Immediate format, opcode 0x24 (R152). -/
  | lbu (rt rs : RegNum) (imm : Half)
  /-- `lhu`, Immediate format, opcode 0x25 (R154). -/
  | lhu (rt rs : RegNum) (imm : Half)
  /-- `sb`, Immediate format, opcode 0x28 (R156). -/
  | sb (rt rs : RegNum) (imm : Half)
  /-- `sh`, Immediate format, opcode 0x29 (R157). -/
  | sh (rt rs : RegNum) (imm : Half)
  /-- `sw`, Immediate format, opcode 0x2B (R158). -/
  | sw (rt rs : RegNum) (imm : Half)
  /-- `j`, Jump format, opcode 0x02 (R140). -/
  | j (target : BitVec 26)
  /-- `jal`, Jump format, opcode 0x03 (R141). -/
  | jal (target : BitVec 26)
  /-- `trap`, Jump format, opcode 0x1A (R165). -/
  | trap (code : BitVec 8)
  deriving DecidableEq, Repr

end Sys2Proof
end

