-- ==== Sys2Proof/Config.lean ====
section
/-!
DEFINITION. What an implementation fixes (00_scope.md rule R5), and the free values of the spec.

The parameters marked OPEN in R5 are a record, `Params`, carried by State (its field `params`), which no step writes: a
statement about every state is a statement about every value of the parameters. The values the spec leaves to chance
inside one step are uninterpreted functions (`opaque`, no body).
-/
namespace Sys2Proof

/-- A motor axis, by its number in AXES (R5: AXES is an OPEN finite set; the names mean nothing to the core). -/
abbrev Axis := Nat

/-- A motion request (R166): the axes, the target encoder count, the speed (a signed value as its 32-bit pattern). -/
structure MotionRequest where
  axes : List Axis
  target : Word
  speed : Word
  deriving DecidableEq, Repr

/-- How a Motion row of TRAP_TABLE makes its request (`mkreq` of R166): a constant request, or a function of the
register file, which is then the uninterpreted function of `Config.motionAxes`, `Config.motionTarget` and
`Config.motionSpeed` (log 3). -/
inductive MotionRule where
  | fixed (request : MotionRequest)
  | computed
  deriving DecidableEq, Repr

/-- The class TRAP_TABLE gives a trap code (R166). -/
inductive TrapClass where
  | halt
  | sync
  | motion (rule : MotionRule)
  | unassigned
  deriving DecidableEq, Repr

/-- The five kinds of outbound frame (R188). -/
inductive FrameKind where
  | ackSize
  | ackPacket
  | diag
  | fault
  | overflow
  deriving DecidableEq, Repr

/-- The five outbound tags, 2 bytes each (R5, R188: OPEN). -/
structure Tags where
  ackSize : Byte × Byte
  ackPacket : Byte × Byte
  diag : Byte × Byte
  fault : Byte × Byte
  overflow : Byte × Byte
  deriving DecidableEq, Repr

/-- The OPEN implementation parameters (R5), fixed for the lifetime of the core. `trapTable` lists the rows of
TRAP_TABLE; a code with no row is Unassigned (R166, R167). `stepBudget` is none when STEP_BUDGET is unbounded. -/
structure Params where
  memCapacity : Nat
  trapTable : List (BitVec 8 × TrapClass)
  stepBudget : Option Nat
  axes : List Axis
  sizeOffHi : Fin 18
  sizeOffLo : Fin 18
  tags : Tags
  deriving DecidableEq, Repr

/-- The default values of R5 and the default TRAP_TABLE of R167. The spec gives no default for MEM_CAPACITY (its test
vectors use 4096), AXES (its vectors use two axes) and the tags: DESIGN CHOICE, log 2 (unsafe for a run from reset,
safe for a statement about every state). -/
def Params.default : Params where
  memCapacity := 4096
  trapTable :=
    [(0x00, .halt), (0x01, .sync), (0x10, .motion (.fixed { axes := [0, 1], target := 60, speed := 1 }))]
  stepBudget := none
  axes := [0, 1]
  sizeOffHi := 0
  sizeOffLo := 1
  tags := { ackSize := (0, 0), ackPacket := (0, 0), diag := (0, 0), fault := (0, 0), overflow := (0, 0) }

/-- SETTLE_THRESHOLD (R5, R218). -/
abbrev settleThreshold : Nat := 4

/-- Whether the control loop takes the pending frame before the pending tick, at its `n`-th free choice (R205: the
source does not say which comes first, so both orders are admitted). Free value, log 7. -/
opaque Config.frameFirst : Nat → Bool

/-- The rank of an axis in the order of one step's motor events, at the `n`-th free choice (R214, R217: any order).
Free value, log 8. -/
opaque Config.axisRank : Nat → Axis → Nat

/-- Whether the request of a register-dependent Motion row names the axis (R166). Free value, log 3. -/
opaque Config.motionAxes : BitVec 8 → RegFile → Axis → Bool

/-- The target of the request of a register-dependent Motion row (R166). Free value, log 3. -/
opaque Config.motionTarget : BitVec 8 → RegFile → Word

/-- The speed of the request of a register-dependent Motion row (R166). Free value, log 3. -/
opaque Config.motionSpeed : BitVec 8 → RegFile → Word

end Sys2Proof
end

