-- ==== Sys2Proof/WellFormed.lean ====
section
/-!
DEFINITION. Well-formedness. An instruction's operands carry their bounds in their types (a 5-bit register field, a 5-bit
shift amount, a 16-bit immediate, a 26-bit field, an 8-bit trap code), so no ill-formed instruction can be written; what
is checked is the record of implementation parameters, against the ranges of 00_scope.md rule R5 and 46_trap_dispatch.md
rule R166.
-/
namespace Sys2Proof

/-- Every value an encoding admits is a legal operand (R65, R72: there is no other illegal encoding). The check is in the
types of the constructors' fields. -/
def Instr.wf (_ : Instr) : Bool := true

/-- The class of a trap code: TRAP_TABLE as the total function of R166; the first row of a code counts, a code with no
row is Unassigned. -/
def Params.trapClass (p : Params) (code : BitVec 8) : TrapClass :=
  (p.trapTable.lookup code).getD .unassigned

/-- 4 <= MEM_CAPACITY <= 2^32 - 1 (R5). -/
def Params.capacityOk (p : Params) : Bool := decide (4 ≤ p.memCapacity) && decide (p.memCapacity ≤ 2 ^ 32 - 1)

/-- STEP_BUDGET is a positive integer or unbounded (R5). -/
def Params.budgetOk (p : Params) : Bool := p.stepBudget != some 0

/-- AXES is a finite non-empty set (R5): a list that names no axis twice. -/
def Params.axesOk (p : Params) : Bool := p.axes != [] && decide p.axes.Nodup

/-- SIZE_OFF_HI and SIZE_OFF_LO are distinct (92_eei_decisions.md D28). -/
def Params.offsetsOk (p : Params) : Bool := p.sizeOffHi != p.sizeOffLo

/-- The axes of a request are a non-empty subset of AXES (R166). -/
def Params.requestOk (p : Params) (req : MotionRequest) : Bool :=
  req.axes != [] && decide req.axes.Nodup && req.axes.all (fun a => p.axes.contains a)

/-- A class is legal: a constant motion request names legal axes (R166). -/
def Params.classOk (p : Params) : TrapClass → Bool
  | .motion (.fixed req) => p.requestOk req
  | .motion .computed => true
  | .halt => true
  | .sync => true
  | .unassigned => true

/-- The class is Motion. -/
def TrapClass.isMotion : TrapClass → Bool
  | .motion _ => true
  | .halt => false
  | .sync => false
  | .unassigned => false

/-- TRAP_TABLE has at least one Halt code and at least one Motion code, and every class is legal (R166). -/
def Params.tableOk (p : Params) : Bool :=
  p.trapTable.any (fun row => p.trapClass row.1 == .halt) &&
    p.trapTable.any (fun row => (p.trapClass row.1).isMotion) &&
      p.trapTable.all (fun row => p.classOk row.2)

/-- The parameters are in the ranges R5 and R166 give. -/
def Params.wf (p : Params) : Bool :=
  p.capacityOk && p.budgetOk && p.axesOk && p.offsetsOk && p.tableOk

end Sys2Proof
end

