-- ==== Sys2Proof/Decode.lean ====
section
/-!
DEFINITION. Decode and encode (30_encoding.md). Decoding is the total procedure of rule R64 over the opcode maps of rules
R66 and R67, rejecting by the two names of rule R72; every field is its own slice of the whole word (R61 to R63, R273) and a
field the instruction does not use is ignored (R65). The encoder follows, from the same formats, with unused fields 0 (R75).
-/
namespace Sys2Proof

/-- What decoding a word gives (R64): one of the 50 instructions, or one of the two decode faults of R72. -/
inductive Decoded where
  | instr (i : Instr)
  | invalidOpcode
  | invalidFunction
  deriving DecidableEq, Repr

/-- opcode = w[31:26] (R61, R62, R63). -/
def opcodeOf (w : Word) : BitVec 6 := w.extractLsb' 26 6

/-- rs = w[25:21] (R61, R62). -/
def rsOf (w : Word) : RegNum := w.extractLsb' 21 5

/-- rt = w[20:16] (R61, R62). -/
def rtOf (w : Word) : RegNum := w.extractLsb' 16 5

/-- rd = w[15:11] (R61). -/
def rdOf (w : Word) : RegNum := w.extractLsb' 11 5

/-- shamt = w[10:6] (R61). -/
def shamtOf (w : Word) : BitVec 5 := w.extractLsb' 6 5

/-- funct = w[5:0] (R61). -/
def functOf (w : Word) : BitVec 6 := w.extractLsb' 0 6

/-- imm = w[15:0] (R62). -/
def immOf (w : Word) : Half := w.extractLsb' 0 16

/-- field26 = w[25:0] (R63). -/
def targetOf (w : Word) : BitVec 26 := w.extractLsb' 0 26

/-- code = field26[7:0] = w[7:0] (R71). -/
def trapCodeOf (w : Word) : BitVec 8 := w.extractLsb' 0 8

/-- The Register format: the function code selects (R67). -/
def decodeRegister (w : Word) : Decoded :=
  match functOf w with
  | 0x00#6 => .instr (.sll (rdOf w) (rtOf w) (shamtOf w))
  | 0x02#6 => .instr (.srl (rdOf w) (rtOf w) (shamtOf w))
  | 0x03#6 => .instr (.sra (rdOf w) (rtOf w) (shamtOf w))
  | 0x04#6 => .instr (.sllv (rdOf w) (rtOf w) (rsOf w))
  | 0x06#6 => .instr (.srlv (rdOf w) (rtOf w) (rsOf w))
  | 0x07#6 => .instr (.srav (rdOf w) (rtOf w) (rsOf w))
  | 0x08#6 => .instr (.jr (rsOf w))
  | 0x09#6 => .instr (.jalr (rdOf w) (rsOf w))
  | 0x10#6 => .instr (.mfhi (rdOf w))
  | 0x11#6 => .instr (.mthi (rsOf w))
  | 0x12#6 => .instr (.mflo (rdOf w))
  | 0x13#6 => .instr (.mtlo (rsOf w))
  | 0x18#6 => .instr (.mult (rsOf w) (rtOf w))
  | 0x19#6 => .instr (.multu (rsOf w) (rtOf w))
  | 0x1A#6 => .instr (.div (rsOf w) (rtOf w))
  | 0x1B#6 => .instr (.divu (rsOf w) (rtOf w))
  | 0x20#6 => .instr (.add (rdOf w) (rsOf w) (rtOf w))
  | 0x21#6 => .instr (.addu (rdOf w) (rsOf w) (rtOf w))
  | 0x22#6 => .instr (.sub (rdOf w) (rsOf w) (rtOf w))
  | 0x23#6 => .instr (.subu (rdOf w) (rsOf w) (rtOf w))
  | 0x24#6 => .instr (.and (rdOf w) (rsOf w) (rtOf w))
  | 0x25#6 => .instr (.or (rdOf w) (rsOf w) (rtOf w))
  | 0x26#6 => .instr (.xor (rdOf w) (rsOf w) (rtOf w))
  | 0x27#6 => .instr (.nor (rdOf w) (rsOf w) (rtOf w))
  | 0x2A#6 => .instr (.slt (rdOf w) (rsOf w) (rtOf w))
  | 0x2B#6 => .instr (.sltu (rdOf w) (rsOf w) (rtOf w))
  | _ => .invalidFunction

/-- The decode procedure (R64): opcode 0 is the Register format, another listed opcode is its row's instruction (R66). -/
def decodeWord (w : Word) : Decoded :=
  match opcodeOf w with
  | 0x00#6 => decodeRegister w
  | 0x04#6 => .instr (.beq (rsOf w) (rtOf w) (immOf w))
  | 0x05#6 => .instr (.bne (rsOf w) (rtOf w) (immOf w))
  | 0x06#6 => .instr (.blez (rsOf w) (immOf w))
  | 0x07#6 => .instr (.bgtz (rsOf w) (immOf w))
  | 0x08#6 => .instr (.addi (rtOf w) (rsOf w) (immOf w))
  | 0x09#6 => .instr (.addiu (rtOf w) (rsOf w) (immOf w))
  | 0x0A#6 => .instr (.slti (rtOf w) (rsOf w) (immOf w))
  | 0x0B#6 => .instr (.sltiu (rtOf w) (rsOf w) (immOf w))
  | 0x0C#6 => .instr (.andi (rtOf w) (rsOf w) (immOf w))
  | 0x0D#6 => .instr (.ori (rtOf w) (rsOf w) (immOf w))
  | 0x0E#6 => .instr (.xori (rtOf w) (rsOf w) (immOf w))
  | 0x18#6 => .instr (.llo (rtOf w) (immOf w))
  | 0x19#6 => .instr (.lhi (rtOf w) (immOf w))
  | 0x20#6 => .instr (.lb (rtOf w) (rsOf w) (immOf w))
  | 0x21#6 => .instr (.lh (rtOf w) (rsOf w) (immOf w))
  | 0x23#6 => .instr (.lw (rtOf w) (rsOf w) (immOf w))
  | 0x24#6 => .instr (.lbu (rtOf w) (rsOf w) (immOf w))
  | 0x25#6 => .instr (.lhu (rtOf w) (rsOf w) (immOf w))
  | 0x28#6 => .instr (.sb (rtOf w) (rsOf w) (immOf w))
  | 0x29#6 => .instr (.sh (rtOf w) (rsOf w) (immOf w))
  | 0x2B#6 => .instr (.sw (rtOf w) (rsOf w) (immOf w))
  | 0x02#6 => .instr (.j (targetOf w))
  | 0x03#6 => .instr (.jal (targetOf w))
  | 0x1A#6 => .instr (.trap (trapCodeOf w))
  | _ => .invalidOpcode

/-- Four consecutive bytes as a word, the byte at the lowest address in the most significant position (R44, R45). -/
def wordOfBytes (b0 b1 b2 b3 : Byte) : Word := b0 ++ b1 ++ b2 ++ b3

/-- The four bytes of a word in address order, most significant first (R43, R45). -/
def bytesOfWord (w : Word) : List Byte :=
  [w.extractLsb' 24 8, w.extractLsb' 16 8, w.extractLsb' 8 8, w.extractLsb' 0 8]

/-- What decoding a sequence of bytes gives: an instruction and the bytes after it, a decode fault of R72, or too few
bytes for the one instruction length of R60. -/
inductive DecodedBytes where
  | instr (i : Instr) (rest : List Byte)
  | invalidOpcode
  | invalidFunction
  | tooShort
  deriving DecidableEq, Repr

/-- Decode the instruction at the front of a sequence of bytes: every instruction is four bytes (R60). -/
def decodeBytes : List Byte → DecodedBytes
  | b0 :: b1 :: b2 :: b3 :: rest =>
    match decodeWord (wordOfBytes b0 b1 b2 b3) with
    | .instr i => .instr i rest
    | .invalidOpcode => .invalidOpcode
    | .invalidFunction => .invalidFunction
  | _ => .tooShort

/-- The instruction the decoder reads from an opcode-table word: the word's four bytes as the hardware stores them, given
to the decoder. `nbits` is at most 32, and the bits of `w` above it count as 0. -/
def decodeTableWord (nbits w : Nat) : Option Instr :=
  match decodeBytes (bytesOfWord (BitVec.ofNat 32 (w % 2 ^ nbits))) with
  | .instr i _ => some i
  | .invalidOpcode => none
  | .invalidFunction => none
  | .tooShort => none

/-- A Register-format word (R61). -/
def registerWord (rs rt rd : RegNum) (shamt : BitVec 5) (funct : BitVec 6) : Word :=
  0#6 ++ rs ++ rt ++ rd ++ shamt ++ funct

/-- An Immediate-format word (R62). -/
def immediateWord (opcode : BitVec 6) (rs rt : RegNum) (imm : Half) : Word :=
  opcode ++ rs ++ rt ++ imm

/-- A Jump-format word (R63). -/
def jumpWord (opcode : BitVec 6) (field26 : BitVec 26) : Word :=
  opcode ++ field26

/-- The word of an instruction (R61 to R63, R66, R67), its unused fields 0 (R75). -/
def encode : Instr → Word
  | .sll rd rt shamt => registerWord 0 rt rd shamt 0x00#6
  | .srl rd rt shamt => registerWord 0 rt rd shamt 0x02#6
  | .sra rd rt shamt => registerWord 0 rt rd shamt 0x03#6
  | .sllv rd rt rs => registerWord rs rt rd 0 0x04#6
  | .srlv rd rt rs => registerWord rs rt rd 0 0x06#6
  | .srav rd rt rs => registerWord rs rt rd 0 0x07#6
  | .jr rs => registerWord rs 0 0 0 0x08#6
  | .jalr rd rs => registerWord rs 0 rd 0 0x09#6
  | .mfhi rd => registerWord 0 0 rd 0 0x10#6
  | .mthi rs => registerWord rs 0 0 0 0x11#6
  | .mflo rd => registerWord 0 0 rd 0 0x12#6
  | .mtlo rs => registerWord rs 0 0 0 0x13#6
  | .mult rs rt => registerWord rs rt 0 0 0x18#6
  | .multu rs rt => registerWord rs rt 0 0 0x19#6
  | .div rs rt => registerWord rs rt 0 0 0x1A#6
  | .divu rs rt => registerWord rs rt 0 0 0x1B#6
  | .add rd rs rt => registerWord rs rt rd 0 0x20#6
  | .addu rd rs rt => registerWord rs rt rd 0 0x21#6
  | .sub rd rs rt => registerWord rs rt rd 0 0x22#6
  | .subu rd rs rt => registerWord rs rt rd 0 0x23#6
  | .and rd rs rt => registerWord rs rt rd 0 0x24#6
  | .or rd rs rt => registerWord rs rt rd 0 0x25#6
  | .xor rd rs rt => registerWord rs rt rd 0 0x26#6
  | .nor rd rs rt => registerWord rs rt rd 0 0x27#6
  | .slt rd rs rt => registerWord rs rt rd 0 0x2A#6
  | .sltu rd rs rt => registerWord rs rt rd 0 0x2B#6
  | .beq rs rt imm => immediateWord 0x04#6 rs rt imm
  | .bne rs rt imm => immediateWord 0x05#6 rs rt imm
  | .blez rs imm => immediateWord 0x06#6 rs 0 imm
  | .bgtz rs imm => immediateWord 0x07#6 rs 0 imm
  | .addi rt rs imm => immediateWord 0x08#6 rs rt imm
  | .addiu rt rs imm => immediateWord 0x09#6 rs rt imm
  | .slti rt rs imm => immediateWord 0x0A#6 rs rt imm
  | .sltiu rt rs imm => immediateWord 0x0B#6 rs rt imm
  | .andi rt rs imm => immediateWord 0x0C#6 rs rt imm
  | .ori rt rs imm => immediateWord 0x0D#6 rs rt imm
  | .xori rt rs imm => immediateWord 0x0E#6 rs rt imm
  | .llo rt imm => immediateWord 0x18#6 0 rt imm
  | .lhi rt imm => immediateWord 0x19#6 0 rt imm
  | .lb rt rs imm => immediateWord 0x20#6 rs rt imm
  | .lh rt rs imm => immediateWord 0x21#6 rs rt imm
  | .lw rt rs imm => immediateWord 0x23#6 rs rt imm
  | .lbu rt rs imm => immediateWord 0x24#6 rs rt imm
  | .lhu rt rs imm => immediateWord 0x25#6 rs rt imm
  | .sb rt rs imm => immediateWord 0x28#6 rs rt imm
  | .sh rt rs imm => immediateWord 0x29#6 rs rt imm
  | .sw rt rs imm => immediateWord 0x2B#6 rs rt imm
  | .j target => jumpWord 0x02#6 target
  | .jal target => jumpWord 0x03#6 target
  | .trap code => jumpWord 0x1A#6 (0#18 ++ code)

end Sys2Proof
end

