-- ==== Sys2Proof/Machine/State.lean ====
section
/-!
DEFINITION. The state of the core as plain data: every piece of state 10_state.md and 20_memory.md name (R10 to R25, R40), and
the model's own fields (INVENTORY.md, '## State'). State.reset is the power-on column of rule R26.
-/
namespace Sys2Proof.Machine

open Sys2Proof

/-- Memory (R40) as a list of (address, byte) pairs: addresses strictly rising, no zero byte listed; an address that is
not listed reads 0, the power-on and reset contents (R26, R57). The form is `Memory.wf` of Machine/Ops.lean. -/
abbrev Memory := List Host.Cell

/-- tm_state (R20). Resetting, ReceivingSize and ReceivingPayload are the transient states of R206. -/
inductive TaskState where
  | resetting
  | idle
  | receivingSize
  | receivingPayload
  | executing
  | moving
  | settling
  deriving DecidableEq, Repr

/-- suspend_reason (R19). -/
inductive SuspendReason where
  | none
  | motionPending
  deriving DecidableEq, Repr

/-- The MotionSession (R22): ms_active, ms_driving, ms_axes, ms_target, ms_speed, ms_debounce. -/
structure MotionSession where
  active : Bool
  driving : Bool
  axes : List Axis
  target : Word
  speed : Word
  debounce : BitVec 8
  deriving DecidableEq, Repr

/-- The five interpreter faults with the information of their row (R235). The pc they record is the pc of the state,
which a fault leaves at the faulting instruction (R238). -/
inductive FaultReason where
  | invalidOpcode (w : Word)
  | invalidFunction (w : Word)
  | divideByZero
  | memoryOutOfBounds (addr : Word)
  | unknownTrap (code : BitVec 8)
  deriving DecidableEq, Repr

/-- What run_until_suspend returns (R172, R175). -/
inductive RunOutcome where
  | halted
  | faulted (reason : FaultReason)
  | suspended (request : MotionRequest)
  | yielded
  deriving DecidableEq, Repr

/-- Where the control loop stands: between two of its steps, or inside run_until_suspend after `steps` instruction steps
(the local `n` of R172). The model's own field, log 5. -/
inductive Phase where
  | atLoop
  | inRun (steps : Nat)
  deriving DecidableEq, Repr

/-- What an outside agent does next (R3, R23, R278): the timer fires, the serial receiver delivers a frame, a sensor
signals an event, the encoder counters now read as listed, or nothing happens and the core takes a step. Log 6. -/
inductive Input where
  | tick
  | frame (f : Frame)
  | external
  | encoders (counts : List (Axis × Word))
  | quiet
  deriving DecidableEq, Repr

/-- The output events of the core (R221; HostEffect: R168; an outbound frame with its 20 bytes: R188). -/
inductive Output where
  | frame (kind : FrameKind) (bytes : Frame)
  | setSpeed (axis : Axis) (value : Word)
  | resetEncoder (axis : Axis)
  | driverReinit
  | backgroundPoll
  | hostEffect (code : BitVec 8)
  deriving DecidableEq, Repr

/-- Reasons for which the machine stops with a fault: none. The five faults of R235 end a program and not the machine
(R240, R255): the model takes them as next states (`State.takeFault`), so nothing raises a `Fault`. Safe. Log 4. -/
inductive Fault where
  deriving DecidableEq, Repr

/-- Reasons for which the model has no step. -/
inductive Refusal where
  /-- An instruction with no meaning yet; answered by no arm of `exec` (every instruction has its meaning). Safe. -/
  | notModelled (mnemonic : String)
  /-- The environment delivers a frame while `pendingFrame` is set: a breach of host duty H2, and "a model refuses the
  arrival" (R276). Raised by `State.arrive` in Machine/ControlLoop.lean. Safe. Log 13. -/
  | frameOverrun
  deriving DecidableEq, Repr

/-- The state of the core. Fields in the order of 10_state.md: the InterpreterState (R10 to R19), Memory (R40), the TM
(R20 to R22), the interface state (R23), then the model's own fields (log 2, 5, 6, 7, 9, 12). -/
@[ext]
structure State where
  regs : RegFile
  hi : Word
  lo : Word
  pc : Word
  halted : Bool
  suspend : SuspendReason
  mem : Memory
  tmState : TaskState
  totSize : Half
  bytesIn : Half
  motion : MotionSession
  pendingTick : Bool
  pendingFrame : Bool
  rxFrame : Frame
  extEvent : Bool
  params : Params
  phase : Phase
  inputs : List Input
  encoders : List (Axis × Word)
  choices : Nat
  outputs : List Output
  lastOutcome : Option RunOutcome
  deriving DecidableEq, Repr

/-- The state at power-on: the column "power-on" of R26. The values that column does not state are named in the log:
`rxFrame` (log 10), the session's axes, target and speed (log 11), the parameters (log 2), the model's own fields
(log 5, 6, 7, 9, 12). -/
def State.reset : State where
  regs := Vector.replicate 32 0
  hi := 0
  lo := 0
  pc := 0
  halted := true
  suspend := .none
  mem := []
  tmState := .resetting
  totSize := 0
  bytesIn := 0
  motion := { active := false, driving := false, axes := [], target := 0, speed := 0, debounce := 0 }
  pendingTick := false
  pendingFrame := false
  rxFrame := Vector.replicate 20 0
  extEvent := false
  params := Params.default
  phase := .atLoop
  inputs := []
  encoders := []
  choices := 0
  outputs := []
  lastOutcome := none

/-- What a step or an instruction's meaning answers. -/
abbrev Result := Host.Outcome State Fault Refusal

end Sys2Proof.Machine
end

