-- ==== Sys2Proof/Machine/Frames.lean ====
section
/-!
DEFINITION. Frames (47_frame_commands.md section 1): parse and build, the tags of the outbound kinds, the command codes.
-/
namespace Sys2Proof.Machine

open Sys2Proof

/-- What parse gives: the command code and the 18 payload bytes (R186). -/
structure ParsedFrame where
  code : Byte × Byte
  payload : List Byte
  deriving DecidableEq, Repr

/-- `parse(f)`: f[0..1] and f[2..19], total on any 20 bytes (R185, R186). -/
def parseFrame (f : Frame) : ParsedFrame where
  code := (f[0], f[1])
  payload := f.toList.drop 2

/-- `build(tag, data)`: the tag, the data, then zeros up to 20 bytes (R187; `data` has at most 18 bytes). -/
def buildFrame (tag : Byte × Byte) (data : List Byte) : Frame :=
  Vector.ofFn fun k : Fin 20 => (tag.1 :: tag.2 :: data).getD k 0

/-- The tag of an outbound kind (R188). -/
def tagOf (t : Tags) : FrameKind → Byte × Byte
  | .ackSize => t.ackSize
  | .ackPacket => t.ackPacket
  | .diag => t.diag
  | .fault => t.fault
  | .overflow => t.overflow

/-- The two bytes of a 16-bit number, high byte first (R188). -/
def bytesOfHalf (v : Half) : List Byte := [v.extractLsb' 8 8, v.extractLsb' 0 8]

/-- The three command codes and the unrecognised case (R189, R197). -/
inductive Command where
  | rd
  | pk
  | rs
  | unknown
  deriving DecidableEq, Repr

/-- The command a code selects: both bytes, exact (R189). -/
def commandOf (code : Byte × Byte) : Command :=
  if code = (0x52, 0x44) then .rd
  else if code = (0x50, 0x4B) then .pk
  else if code = (0x52, 0x53) then .rs
  else .unknown

end Sys2Proof.Machine
end

