-- ==== Sys2Proof/Machine/Ops.lean ====
section
/-!
DEFINITION. The named operations every meaning is written over: bytes of Memory (20_memory.md), registers (10_state.md),
output events, the end of a run (48_task_state_machine.md R212 to R216), taking a fault (60_exceptions.md R238) and, beside
it, the suspension and the resume, the only entry and return the core has (R241).
-/
namespace Sys2Proof.Machine

open Sys2Proof

/-! ### Memory -/

/-- The byte at an address: what is listed, else 0 (R26, R40, R57). The search ends at the first higher address. -/
def Memory.byte : Memory → Nat → Byte
  | [], _ => 0
  | (x, v) :: m, a => if x < a then Memory.byte m a else if x = a then v else 0

/-- Two bytes, big-endian (R42, R45). -/
def Memory.half (m : Memory) (a : Nat) : Half := Memory.byte m a ++ Memory.byte m (a + 1)

/-- Four bytes, big-endian (R42, R44, R45, R274). -/
def Memory.word (m : Memory) (a : Nat) : Word :=
  wordOfBytes (Memory.byte m a) (Memory.byte m (a + 1)) (Memory.byte m (a + 2)) (Memory.byte m (a + 3))

/-- What is listed for a byte at an address: a zero byte is not listed. -/
def Memory.cell (a : Nat) (b : Byte) : Memory := if b = 0 then [] else [(a, b)]

/-- Write one byte, keeping the canonical form: the cell takes the place of what is listed at the address. -/
def Memory.writeByte : Memory → Nat → Byte → Memory
  | [], a, b => Memory.cell a b
  | (x, v) :: m, a, b =>
    if x < a then (x, v) :: Memory.writeByte m a b
    else Memory.cell a b ++ ((x, v) :: m).dropWhile fun c => decide (c.1 ≤ a)

/-- Write bytes at consecutive addresses, in ascending order (R43, R48, R194). -/
def Memory.writeBytes : Memory → Nat → List Byte → Memory
  | m, _, [] => m
  | m, a, b :: bs => Memory.writeBytes (Memory.writeByte m a b) (a + 1) bs

/-- The canonical form from an address on: addresses rise strictly from `lo`, no zero byte is listed. -/
def Memory.wfFrom : Nat → Memory → Bool
  | _, [] => true
  | lo, (x, v) :: m => decide (lo ≤ x) && decide (v ≠ 0) && Memory.wfFrom (x + 1) m

/-- The canonical form of Memory. -/
def Memory.wf (m : Memory) : Bool := Memory.wfFrom 0 m

/-- The bounds check of MemRead and MemWrite: the whole access lies below MEM_CAPACITY, the sum taken in unbounded
integers (R42, R43). -/
abbrev State.InBounds (s : State) (addr : Word) (n : Nat) : Prop := addr.toNat + n ≤ s.params.memCapacity

/-! ### Registers, pc, HI and LO -/

/-- `x[i]`: 0 for register 0, else RF[i] (R11). -/
def State.reg (s : State) (r : RegNum) : Word := if r = 0 then 0 else s.regs[r.toNat]'r.isLt

/-- `x[i] <- v`: no effect for register 0 (R11). -/
def State.setReg (r : RegNum) (v : Word) (s : State) : State :=
  { s with regs := if r = 0 then s.regs else s.regs.set r.toNat v r.isLt }

/-- `pc <- target` (R15). -/
def State.setPc (target : Word) (s : State) : State := { s with pc := target }

/-- The fall-through `pc <- pc + 4` (R15, R16). -/
def State.advance (s : State) : State := s.setPc (s.pc + 4)

/-- `HI <- v` (R17). -/
def State.setHi (v : Word) (s : State) : State := { s with hi := v }

/-- `LO <- v` (R17). -/
def State.setLo (v : Word) (s : State) : State := { s with lo := v }

/-- Write bytes to Memory at an address (the write of R43 after its check, and of R194). -/
def State.storeBytes (a : Nat) (bs : List Byte) (s : State) : State :=
  { s with mem := Memory.writeBytes s.mem a bs }

/-- An instruction that writes one general register and falls through (R80, R95, R110, R120, R150). -/
def writeResult (r : RegNum) (v : Word) (s : State) : Result := .next (s.setReg r v).advance

/-! ### The interface and the control loop -/

/-- The frame is consumed: `pending_frame <- 0` (R207). DESIGN CHOICE: what rx_frame then holds is open (I14); the model keeps
the consumed frame there (log 10). -/
def State.consumeFrame (s : State) : State := { s with pendingFrame := false }

/-- The tick is consumed: `pending_tick <- 0` (R208). -/
def State.consumeTick (s : State) : State := { s with pendingTick := false }

/-- The timer fires: `pending_tick <- 1` (R23; a tick merges with a pending one, R246). -/
def State.raiseTick (s : State) : State := { s with pendingTick := true }

/-- The serial receiver delivers a frame: `pending_frame <- 1`, `rx_frame` (R23). -/
def State.raiseFrame (f : Frame) (s : State) : State := { s with pendingFrame := true, rxFrame := f }

/-- A sensor signals an event: `ext_event_pending <- 1` (R23). -/
def State.raiseExternal (s : State) : State := { s with extEvent := true }

/-- The encoder counters read as listed (R217; log 9). -/
def State.setEncoders (counts : List (Axis × Word)) (s : State) : State := { s with encoders := counts }

/-- What is left of the environment's schedule (log 6). -/
def State.setInputs (rest : List Input) (s : State) : State := { s with inputs := rest }

/-- Where the control loop stands (log 5). -/
def State.setPhase (p : Phase) (s : State) : State := { s with phase := p }

/-- A free choice has been used: the next one is another (log 7, log 8). -/
def State.nextChoice (s : State) : State := { s with choices := s.choices + 1 }

/-! ### Output events -/

/-- Output events, appended in the order they are made (R221). -/
def State.emit (es : List Output) (s : State) : State := { s with outputs := s.outputs ++ es }

/-- `emit Frame(kind, data)`: the outbound frame `build(TAG_kind, data)` (R188). -/
def State.emitFrame (kind : FrameKind) (data : List Byte) (s : State) : State :=
  s.emit [.frame kind (buildFrame (tagOf s.params.tags kind) data)]

/-- Insert an axis by its rank. -/
def insertAxis (n : Nat) (a : Axis) : List Axis → List Axis
  | [] => [a]
  | b :: l => if Config.axisRank n a ≤ Config.axisRank n b then a :: b :: l else b :: insertAxis n a l

/-- The axes in the order of one step's motor events: any order (R214, R217, I11), taken from the free ranks of the
`n`-th choice. Log 8. -/
def orderAxes (n : Nat) (axes : List Axis) : List Axis := axes.foldr (insertAxis n) []

/-! ### The end of a run -/

/-- The fault codes (R235). -/
def FaultReason.code : FaultReason → Byte
  | .invalidOpcode _ => 1
  | .invalidFunction _ => 2
  | .divideByZero => 3
  | .memoryOutOfBounds _ => 4
  | .unknownTrap _ => 5

/-- run_until_suspend returns: the control loop is between steps again, and the outcome is recorded (R172). -/
def State.leaveRun (o : RunOutcome) (s : State) : State := { s with phase := .atLoop, lastOutcome := some o }

/-- The TM state changes (R20). -/
def State.setTask (t : TaskState) (s : State) : State := { s with tmState := t }

/-- Start a MotionSession from a request and go to Moving (R214): the session registers, then for each axis, in any
order, reset_encoder and set_speed. -/
def State.startMotion (req : MotionRequest) (s : State) : State :=
  { s with
    motion :=
      { active := true, driving := true, axes := req.axes, target := req.target, speed := req.speed, debounce := 0 }
    outputs :=
      s.outputs ++ (orderAxes s.choices req.axes).flatMap fun a => [.resetEncoder a, .setSpeed a req.speed]
    choices := s.choices + 1
    tmState := .moving }

/-- What the Executing tick body does with the outcome of run_until_suspend (R212): Halted goes to Idle (R213), Faulted
sends the Fault frame with the fault code and the pc and goes to Idle (R215), Suspended starts the motion (R214), Yielded
changes nothing (R216). -/
def State.endRun (o : RunOutcome) (s : State) : State :=
  match o with
  | .halted => (s.leaveRun o).setTask .idle
  | .faulted r => ((s.leaveRun o).emitFrame .fault (r.code :: bytesOfWord s.pc)).setTask .idle
  | .suspended req => (s.leaveRun o).startMotion req
  | .yielded => s.leaveRun o

/-- The program ends: `halted <- 1`, pc unchanged (R171), outcome Halted. -/
def State.haltProgram (s : State) : State := { s with halted := true }.endRun .halted

/-- Taking a fault (R238): the instruction writes nothing, `halted <- 1`, suspend_reason stays, the run returns
`Faulted(reason)` and the Executing tick body reports it and goes to Idle (R215). -/
def State.takeFault (r : FaultReason) (s : State) : State := { s with halted := true }.endRun (.faulted r)

/-- Suspending (R169): `suspend_reason <- MotionPending`, `pc <- pc + 4`, the run returns `Suspended(req)`. -/
def State.suspendFor (req : MotionRequest) (s : State) : State :=
  ({ s with suspend := .motionPending }).advance.endRun (.suspended req)

/-- The resume operation (R173): `suspend_reason <- None`, nothing else. -/
def State.resume (s : State) : State := { s with suspend := .none }

end Sys2Proof.Machine
end

