-- ==== Sys2Proof/Machine/Operands.lean ====
section
/-!
DEFINITION. The operand forms: immediates (30_encoding.md R68), branch and jump targets (R69, R70), the effective address
(20_memory.md R47), shift counts (41_shifts.md R95).
-/
namespace Sys2Proof.Machine

open Sys2Proof

/-- `sext_16(imm)` (R68). -/
def signExtendImm (imm : Half) : Word := imm.signExtend 32

/-- `zext_16(imm)` (R68). -/
def zeroExtendImm (imm : Half) : Word := imm.zeroExtend 32

/-- `boff = sext_16(imm) << 2` (R69). -/
def branchOffset (imm : Half) : Word := signExtendImm imm <<< 2

/-- The target of a taken branch: `pc + 4 + boff` modulo 2^32, pc the branch's own address (R69). -/
def branchTarget (pc : Word) (imm : Half) : Word := pc + 4 + branchOffset imm

/-- The target of `j` and `jal`: `(pc + 4)[31:28] || field26 || 0b00` (R70). -/
def jumpTarget (pc : Word) (field26 : BitVec 26) : Word := (pc + 4).extractLsb' 28 4 ++ field26 ++ 0#2

/-- The effective address of a load or store: `x[rs] + sext_16(imm)` modulo 2^32 (R47, R150). -/
def State.effectiveAddress (s : State) (rs : RegNum) (imm : Half) : Word := s.reg rs + signExtendImm imm

/-- The count of a variable shift: `x[rs][4:0]` (R95). -/
def shiftCount (v : Word) : Nat := (v.extractLsb' 0 5).toNat

/-- `imm || v[15:0]` (R126). -/
def replaceHigh (imm : Half) (v : Word) : Word := imm ++ v.extractLsb' 0 16

/-- `v[31:16] || imm` (R127). -/
def replaceLow (imm : Half) (v : Word) : Word := v.extractLsb' 16 16 ++ imm

end Sys2Proof.Machine
end

