-- ==== Sys2Proof/Machine/Control.lean ====
section
/-!
DEFINITION. Control transfer (44_control_transfer.md). No delay slot: pc is written once (R15, R135, R272).
-/
namespace Sys2Proof.Machine

open Sys2Proof

/-- A conditional branch: the target when the condition holds, else `pc + 4`; nothing else changes (R15, R69, R135). -/
def branchIf (taken : Bool) (imm : Half) (s : State) : Result :=
  .next (s.setPc (if taken then branchTarget s.pc imm else s.pc + 4))

/-- `beq`: taken when `x[rs] = x[rt]` (R136). -/
def execBeq (rs rt : RegNum) (imm : Half) (s : State) : Result := branchIf (s.reg rs == s.reg rt) imm s

/-- `bne`: taken when `x[rs] != x[rt]` (R137). -/
def execBne (rs rt : RegNum) (imm : Half) (s : State) : Result := branchIf (s.reg rs != s.reg rt) imm s

/-- `blez`: taken when `s(x[rs]) <= 0` (R138). -/
def execBlez (rs : RegNum) (imm : Half) (s : State) : Result := branchIf (notPositive (s.reg rs)) imm s

/-- `bgtz`: taken when `s(x[rs]) > 0` (R139). -/
def execBgtz (rs : RegNum) (imm : Half) (s : State) : Result := branchIf (isPositive (s.reg rs)) imm s

/-- `j`: `pc <- (pc + 4)[31:28] || field26 || 0b00` (R140). -/
def execJ (target : BitVec 26) (s : State) : Result := .next (s.setPc (jumpTarget s.pc target))

/-- `jal`: `x[31] <- pc + 4`, then the jump of `j` (R141). -/
def execJal (target : BitVec 26) (s : State) : Result := .next ((s.setReg 31 (s.pc + 4)).setPc (jumpTarget s.pc target))

/-- `jr`: `pc <- x[rs]`, all 32 bits (R142). -/
def execJr (rs : RegNum) (s : State) : Result := .next (s.setPc (s.reg rs))

/-- `jalr`: `t <- x[rs]; x[rd] <- pc + 4; pc <- t` (R143). -/
def execJalr (rd rs : RegNum) (s : State) : Result := .next ((s.setReg rd (s.pc + 4)).setPc (s.reg rs))

end Sys2Proof.Machine
end

