-- ==== Sys2Proof/Machine/ImmediateAlu.lean ====
section
/-!
DEFINITION. Immediate-format arithmetic, logic, compare and load half immediate (43_immediate_alu.md). x[rs] is read
before the write of x[rt], no fault, HI, LO and Memory are not accessed (R120).
-/
namespace Sys2Proof.Machine

open Sys2Proof

/-- `addi`: `x[rt] <- x[rs] + sext_16(imm)` modulo 2^32, no overflow fault (R120, R121). -/
def execAddi (rt rs : RegNum) (imm : Half) (s : State) : Result := writeResult rt (s.reg rs + signExtendImm imm) s

/-- `addiu`: `x[rt] <- x[rs] + sext_16(imm)` modulo 2^32 (R120, R122). -/
def execAddiu (rt rs : RegNum) (imm : Half) (s : State) : Result := writeResult rt (s.reg rs + signExtendImm imm) s

/-- `andi`: `x[rt] <- x[rs] AND zext_16(imm)` (R120, R123). -/
def execAndi (rt rs : RegNum) (imm : Half) (s : State) : Result := writeResult rt (s.reg rs &&& zeroExtendImm imm) s

/-- `ori`: `x[rt] <- x[rs] OR zext_16(imm)` (R120, R124). -/
def execOri (rt rs : RegNum) (imm : Half) (s : State) : Result := writeResult rt (s.reg rs ||| zeroExtendImm imm) s

/-- `xori`: `x[rt] <- x[rs] XOR zext_16(imm)` (R120, R125). -/
def execXori (rt rs : RegNum) (imm : Half) (s : State) : Result := writeResult rt (s.reg rs ^^^ zeroExtendImm imm) s

/-- `slti`: `x[rt] <- 1 if s(x[rs]) < s(sext_16(imm)) else 0` (R120, R128). -/
def execSlti (rt rs : RegNum) (imm : Half) (s : State) : Result := writeResult rt (boolWord (lessSigned (s.reg rs) (signExtendImm imm))) s

/-- `sltiu`: `x[rt] <- 1 if u(x[rs]) < u(sext_16(imm)) else 0` (R120, R129). -/
def execSltiu (rt rs : RegNum) (imm : Half) (s : State) : Result := writeResult rt (boolWord (lessUnsigned (s.reg rs) (signExtendImm imm))) s

/-- `lhi`: `x[rt] <- imm || x[rt][15:0]` (R126). -/
def execLhi (rt : RegNum) (imm : Half) (s : State) : Result := writeResult rt (replaceHigh imm (s.reg rt)) s

/-- `llo`: `x[rt] <- x[rt][31:16] || imm` (R127). -/
def execLlo (rt : RegNum) (imm : Half) (s : State) : Result := writeResult rt (replaceLow imm (s.reg rt)) s

end Sys2Proof.Machine
end

