-- ==== Sys2Proof/Machine/LoadStore.lean ====
section
/-!
DEFINITION. Loads and stores (45_load_store.md): one addressing mode, bounds-checked over the whole access,
big-endian, no alignment rule (R150).
-/
namespace Sys2Proof.Machine

open Sys2Proof

/-- A load of `n` bytes: the effective address, the bounds check over the whole access, then `x[rt] <- value`, where
`value` reads Memory at the address; MemoryOutOfBounds(ea) otherwise, with no write (R42, R150). The access and its check
are made for register 0 too. -/
def loadFrom (n : Nat) (value : Memory → Nat → Word) (rt rs : RegNum) (imm : Half) (s : State) : Result :=
  let ea := s.effectiveAddress rs imm
  if s.InBounds ea n then writeResult rt (value s.mem ea.toNat) s
  else .next (s.takeFault (.memoryOutOfBounds ea))

/-- A store of bytes: the effective address, the bounds check over the whole access, then the bytes in address order;
MemoryOutOfBounds(ea) otherwise, and then no byte is written (R43, R150). -/
def storeTo (bytes : List Byte) (rs : RegNum) (imm : Half) (s : State) : Result :=
  let ea := s.effectiveAddress rs imm
  if s.InBounds ea bytes.length then .next (s.storeBytes ea.toNat bytes).advance
  else .next (s.takeFault (.memoryOutOfBounds ea))

/-- `lb`: `x[rt] <- sext_8(MemRead(ea, 1))` (R151). -/
def execLb (rt rs : RegNum) (imm : Half) (s : State) : Result :=
  loadFrom 1 (fun m a => (Memory.byte m a).signExtend 32) rt rs imm s

/-- `lbu`: `x[rt] <- zext_8(MemRead(ea, 1))` (R152). -/
def execLbu (rt rs : RegNum) (imm : Half) (s : State) : Result :=
  loadFrom 1 (fun m a => (Memory.byte m a).zeroExtend 32) rt rs imm s

/-- `lh`: `x[rt] <- sext_16(MemRead(ea, 2))`, big-endian (R153). -/
def execLh (rt rs : RegNum) (imm : Half) (s : State) : Result :=
  loadFrom 2 (fun m a => (Memory.half m a).signExtend 32) rt rs imm s

/-- `lhu`: `x[rt] <- zext_16(MemRead(ea, 2))`, big-endian (R154). -/
def execLhu (rt rs : RegNum) (imm : Half) (s : State) : Result :=
  loadFrom 2 (fun m a => (Memory.half m a).zeroExtend 32) rt rs imm s

/-- `lw`: `x[rt] <- MemRead(ea, 4)`, big-endian (R155). -/
def execLw (rt rs : RegNum) (imm : Half) (s : State) : Result :=
  loadFrom 4 Memory.word rt rs imm s

/-- `sb`: `MemWrite(ea, 1, x[rt][7:0])` (R156). -/
def execSb (rt rs : RegNum) (imm : Half) (s : State) : Result := storeTo [(s.reg rt).extractLsb' 0 8] rs imm s

/-- `sh`: `MemWrite(ea, 2, x[rt][15:0])`, the high byte at the lower address (R157). -/
def execSh (rt rs : RegNum) (imm : Half) (s : State) : Result := storeTo (bytesOfHalf ((s.reg rt).extractLsb' 0 16)) rs imm s

/-- `sw`: `MemWrite(ea, 4, x[rt])`, the most significant byte at the lowest address (R158). -/
def execSw (rt rs : RegNum) (imm : Half) (s : State) : Result := storeTo (bytesOfWord (s.reg rt)) rs imm s

end Sys2Proof.Machine
end

