-- ==== Sys2Proof/Machine/MulDiv.lean ====
section
/-!
DEFINITION. Multiply, divide, HI and LO (42_muldiv_hilo.md). The results are exact integers, narrowed at the end.
-/
namespace Sys2Proof.Machine

open Sys2Proof

/-- Write HI and LO and fall through (R105). -/
def writeHiLo (hi lo : Word) (s : State) : Result := .next ((s.setHi hi).setLo lo).advance

/-- `mult`: the 64-bit two's-complement pattern of `s(x[rs]) * s(x[rt])`, HI its high half, LO its low half (R106). -/
def execMult (rs rt : RegNum) (s : State) : Result :=
  let p := BitVec.ofInt 64 ((s.reg rs).toInt * (s.reg rt).toInt)
  writeHiLo (p.extractLsb' 32 32) (p.extractLsb' 0 32) s

/-- `multu`: the 64-bit pattern of `u(x[rs]) * u(x[rt])` (R107). -/
def execMultu (rs rt : RegNum) (s : State) : Result :=
  let p := BitVec.ofNat 64 ((s.reg rs).toNat * (s.reg rt).toNat)
  writeHiLo (p.extractLsb' 32 32) (p.extractLsb' 0 32) s

/-- `div`: LO the quotient rounded toward zero, HI the remainder with the dividend's sign, each as a 32-bit
two's-complement value; DivideByZero when `x[rt] = 0`, before any write (R108). -/
def execDiv (rs rt : RegNum) (s : State) : Result :=
  if s.reg rt = 0 then .next (s.takeFault .divideByZero)
  else
    let n := (s.reg rs).toInt
    let d := (s.reg rt).toInt
    let q := Int.tdiv n d
    writeHiLo (BitVec.ofInt 32 (n - q * d)) (BitVec.ofInt 32 q) s

/-- `divu`: LO `n div d`, HI `n mod d`; DivideByZero when `x[rt] = 0`, before any write (R109). -/
def execDivu (rs rt : RegNum) (s : State) : Result :=
  if s.reg rt = 0 then .next (s.takeFault .divideByZero)
  else
    let n := (s.reg rs).toNat
    let d := (s.reg rt).toNat
    writeHiLo (BitVec.ofNat 32 (n % d)) (BitVec.ofNat 32 (n / d)) s

/-- `mfhi`: `x[rd] <- HI` (R110). -/
def execMfhi (rd : RegNum) (s : State) : Result := writeResult rd s.hi s

/-- `mflo`: `x[rd] <- LO` (R111). -/
def execMflo (rd : RegNum) (s : State) : Result := writeResult rd s.lo s

/-- `mthi`: `HI <- x[rs]` (R112). -/
def execMthi (rs : RegNum) (s : State) : Result := .next (s.setHi (s.reg rs)).advance

/-- `mtlo`: `LO <- x[rs]` (R113). -/
def execMtlo (rs : RegNum) (s : State) : Result := .next (s.setLo (s.reg rs)).advance

end Sys2Proof.Machine
end

