-- ==== Sys2Proof/Machine/RegisterAlu.lean ====
section
/-!
DEFINITION. Register-format arithmetic, logic and compare (40_register_alu.md). Both operands are read before the
write, no fault, HI, LO and Memory are not accessed (R80).
-/
namespace Sys2Proof.Machine

open Sys2Proof

/-- `add`: `x[rd] <- x[rs] + x[rt]` modulo 2^32, no overflow fault (R80, R81). -/
def execAdd (rd rs rt : RegNum) (s : State) : Result := writeResult rd (s.reg rs + s.reg rt) s

/-- `addu`: `x[rd] <- x[rs] + x[rt]` modulo 2^32 (R80, R82). -/
def execAddu (rd rs rt : RegNum) (s : State) : Result := writeResult rd (s.reg rs + s.reg rt) s

/-- `sub`: `x[rd] <- x[rs] - x[rt]` modulo 2^32, no overflow fault (R80, R83). -/
def execSub (rd rs rt : RegNum) (s : State) : Result := writeResult rd (s.reg rs - s.reg rt) s

/-- `subu`: `x[rd] <- x[rs] - x[rt]` modulo 2^32 (R80, R84). -/
def execSubu (rd rs rt : RegNum) (s : State) : Result := writeResult rd (s.reg rs - s.reg rt) s

/-- `and`: `x[rd] <- x[rs] AND x[rt]` (R80, R85). -/
def execAnd (rd rs rt : RegNum) (s : State) : Result := writeResult rd (s.reg rs &&& s.reg rt) s

/-- `or`: `x[rd] <- x[rs] OR x[rt]` (R80, R86). -/
def execOr (rd rs rt : RegNum) (s : State) : Result := writeResult rd (s.reg rs ||| s.reg rt) s

/-- `xor`: `x[rd] <- x[rs] XOR x[rt]` (R80, R87). -/
def execXor (rd rs rt : RegNum) (s : State) : Result := writeResult rd (s.reg rs ^^^ s.reg rt) s

/-- `nor`: `x[rd] <- NOT (x[rs] OR x[rt])` (R80, R88). -/
def execNor (rd rs rt : RegNum) (s : State) : Result := writeResult rd (~~~(s.reg rs ||| s.reg rt)) s

/-- `slt`: `x[rd] <- 1 if s(x[rs]) < s(x[rt]) else 0` (R80, R89). -/
def execSlt (rd rs rt : RegNum) (s : State) : Result := writeResult rd (boolWord (lessSigned (s.reg rs) (s.reg rt))) s

/-- `sltu`: `x[rd] <- 1 if u(x[rs]) < u(x[rt]) else 0` (R80, R90). -/
def execSltu (rd rs rt : RegNum) (s : State) : Result := writeResult rd (boolWord (lessUnsigned (s.reg rs) (s.reg rt))) s

end Sys2Proof.Machine
end

