-- ==== Sys2Proof/Machine/Shifts.lean ====
section
/-!
DEFINITION. Shifts (41_shifts.md). The value shifted is x[rt]; a variable count is the low five bits of x[rs] (R95).
-/
namespace Sys2Proof.Machine

open Sys2Proof

/-- `sll`: `x[rd] <- x[rt] << shamt` modulo 2^32 (R95, R96). -/
def execSll (rd rt : RegNum) (shamt : BitVec 5) (s : State) : Result := writeResult rd (s.reg rt <<< shamt.toNat) s

/-- `srl`: `x[rd] <- u(x[rt]) div 2^shamt` (R95, R97). -/
def execSrl (rd rt : RegNum) (shamt : BitVec 5) (s : State) : Result := writeResult rd (s.reg rt >>> shamt.toNat) s

/-- `sra`: `x[rd] <- floor(s(x[rt]) / 2^shamt)` (R95, R98). -/
def execSra (rd rt : RegNum) (shamt : BitVec 5) (s : State) : Result := writeResult rd ((s.reg rt).sshiftRight shamt.toNat) s

/-- `sllv`: `n <- x[rs][4:0]; x[rd] <- x[rt] << n` modulo 2^32 (R95, R99). -/
def execSllv (rd rt rs : RegNum) (s : State) : Result := writeResult rd (s.reg rt <<< shiftCount (s.reg rs)) s

/-- `srlv`: `n <- x[rs][4:0]; x[rd] <- u(x[rt]) div 2^n` (R95, R100). -/
def execSrlv (rd rt rs : RegNum) (s : State) : Result := writeResult rd (s.reg rt >>> shiftCount (s.reg rs)) s

/-- `srav`: `n <- x[rs][4:0]; x[rd] <- floor(s(x[rt]) / 2^n)` (R95, R101). -/
def execSrav (rd rt rs : RegNum) (s : State) : Result := writeResult rd ((s.reg rt).sshiftRight (shiftCount (s.reg rs))) s

end Sys2Proof.Machine
end

