-- ==== Sys2Proof/Machine/Trap.lean ====
section
/-!
DEFINITION. The trap instruction and the trap dispatcher (46_trap_dispatch.md R165 to R176).
-/
namespace Sys2Proof.Machine

open Sys2Proof

/-- The axes a register-dependent row names: some non-empty subset of AXES (R166); which one is free (log 3). -/
def computedAxes (p : Params) (code : BitVec 8) (regs : RegFile) : List Axis :=
  let named := p.axes.filter (Config.motionAxes code regs)
  if named = [] then p.axes else named

/-- `mkreq(RF)`: the motion request of a Motion row, from the register values before the trap (R166, R169, R176). -/
def motionRequest (p : Params) (code : BitVec 8) (rule : MotionRule) (regs : RegFile) : MotionRequest :=
  match rule with
  | .fixed req => req
  | .computed =>
    { axes := computedAxes p code regs, target := Config.motionTarget code regs, speed := Config.motionSpeed code regs }

/-- `trap code` (R165): Unassigned raises UnknownTrap (R174); Halt ends the program with pc unchanged (R171); Sync emits
HostEffect(code) and falls through (R168); Motion suspends with pc at the next instruction (R169). -/
def execTrap (code : BitVec 8) (s : State) : Result :=
  match s.params.trapClass code with
  | .unassigned => .next (s.takeFault (.unknownTrap code))
  | .halt => .next s.haltProgram
  | .sync => .next (s.emit [.hostEffect code]).advance
  | .motion rule => .next (s.suspendFor (motionRequest s.params code rule s.regs))

end Sys2Proof.Machine
end

