-- ==== Sys2Proof/Machine/Interpreter.lean ====
section
/-!
DEFINITION. The instruction step and the loop of run_until_suspend (46_trap_dispatch.md R170 to R175).
-/
namespace Sys2Proof.Machine

open Sys2Proof

/-- The instruction fetch: `MemRead(pc, 4)`, none when it is out of bounds (R44). -/
def State.fetch (s : State) : Option Word :=
  if s.InBounds s.pc 4 then some (Memory.word s.mem s.pc.toNat) else none

/-- One instruction step (R170), its checks in the order of R239: the halt check (R171), the fetch, the decode, then the
execution. -/
def State.instrStep (s : State) : Result :=
  if s.totSize.toNat ≤ s.pc.toNat then .next s.haltProgram
  else
    match s.fetch with
    | none => .next (s.takeFault (.memoryOutOfBounds s.pc))
    | some w =>
      match decodeWord w with
      | .invalidOpcode => .next (s.takeFault (.invalidOpcode w))
      | .invalidFunction => .next (s.takeFault (.invalidFunction w))
      | .instr i => exec i s

/-- One turn of the loop of run_until_suspend after `n` instruction steps (R172): with the budget used up it returns
Yielded (R175), else it makes one more instruction step. -/
def State.runStep (n : Nat) (s : State) : Result :=
  if s.params.stepBudget = some n then .next (s.endRun .yielded)
  else (s.setPhase (.inRun (n + 1))).instrStep

end Sys2Proof.Machine
end

