-- ==== Sys2Proof/Machine/Loader.lean ====
section
/-!
DEFINITION. The command dispatcher and the load protocol (47_frame_commands.md), the Resetting body (48_task_state_machine.md R210):
the frame step and the three transient states.
-/
namespace Sys2Proof.Machine

open Sys2Proof

/-- The size an "RD" frame declares: two payload bytes at the offsets SIZE_OFF_HI and SIZE_OFF_LO (R192). -/
def declaredSize (p : Params) (payload : List Byte) : Nat :=
  (payload.getD p.sizeOffHi 0).toNat * 256 + (payload.getD p.sizeOffLo 0).toNat

/-- Set the LoadSession (R21). -/
def State.setLoad (tot bytes : Half) (s : State) : State := { s with totSize := tot, bytesIn := bytes }

/-- The ReceivingSize body on a frame: a declared size above MEM_CAPACITY is rejected (LoadOverflow, R193), any other is
accepted (R192); both end in Idle. -/
def State.receivingSizeBody (f : Frame) (s : State) : State :=
  let declared := declaredSize s.params (parseFrame f).payload
  let size := BitVec.ofNat 16 declared
  if s.params.memCapacity < declared then
    ((s.setLoad 0 0).emitFrame .overflow (bytesOfHalf size)).setTask .idle
  else ((s.setLoad size 0).emitFrame .ackSize (bytesOfHalf size)).setTask .idle

/-- The fresh InterpreterState (R28): all registers, HI, LO and pc 0, halted 0, suspend_reason None. -/
def State.freshInterpreter (s : State) : State :=
  { s with regs := Vector.replicate 32 0, hi := 0, lo := 0, pc := 0, halted := false, suspend := .none }

/-- How many payload bytes a "PK" frame copies: `min(18, tot_size - bytes_in)` (R194). -/
def copyCount (s : State) : Nat := min 18 (s.totSize.toNat - s.bytesIn.toNat)

/-- The copy of the ReceivingPayload body: the bytes, `bytes_in`, the acknowledgement (R194). -/
def State.copyPayload (f : Frame) (s : State) : State :=
  let n := copyCount s
  let bytesIn := s.bytesIn + BitVec.ofNat 16 n
  ((s.storeBytes s.bytesIn.toNat ((parseFrame f).payload.take n)).setLoad s.totSize bytesIn).emitFrame .ackPacket
    (bytesOfHalf bytesIn)

/-- The ReceivingPayload body on a frame: the copy (R194), then the end of the load (R195). -/
def State.receivingPayloadBody (f : Frame) (s : State) : State :=
  let s := s.copyPayload f
  if s.bytesIn = s.totSize then s.freshInterpreter.setTask .executing else s.setTask .idle

/-- The Resetting body (R27, R210). -/
def State.resettingBody (s : State) : State :=
  { s.emit [.driverReinit] with
    mem := []
    regs := Vector.replicate 32 0
    hi := 0
    lo := 0
    pc := 0
    halted := true
    suspend := .none
    totSize := 0
    bytesIn := 0
    motion := { s.motion with active := false, driving := false, debounce := 0 }
    extEvent := false
    tmState := .idle }

/-- The command dispatch, in every TM state (R190): "RD" (R191), "PK" (R194), "RS" (R196), any other code (R197). -/
def State.dispatchCommand (f : Frame) (s : State) : State :=
  let code := (parseFrame f).code
  match commandOf code with
  | .rd => (s.setLoad s.totSize 0).setTask .receivingSize
  | .pk => s.setTask .receivingPayload
  | .rs => s.setTask .resetting
  | .unknown => s.emitFrame .diag [code.1, code.2]

/-- The body of the transient state the core is in, run once and at once (R206); a ticked state has none. -/
def State.runTransient (s : State) : State :=
  match s.tmState with
  | .resetting => s.resettingBody
  | .receivingSize => s.receivingSizeBody s.rxFrame
  | .receivingPayload => s.receivingPayloadBody s.rxFrame
  | .idle => s
  | .executing => s
  | .moving => s
  | .settling => s

/-- The frame step (R207): consume the frame, dispatch its command, run the entered state's body. -/
def State.frameStep (s : State) : State :=
  (s.consumeFrame.dispatchCommand s.rxFrame).runTransient

end Sys2Proof.Machine
end

