-- ==== Sys2Proof/Machine/TaskMachine.lean ====
section
/-!
DEFINITION. The tick step and the bodies of the ticked states (48_task_state_machine.md sections 1 and 2).
-/
namespace Sys2Proof.Machine

open Sys2Proof

/-- The Idle tick body: a pending external event leads to Executing (R211). -/
def State.idleTick (s : State) : State :=
  if s.extEvent then { s with extEvent := false, tmState := .executing } else s

/-- The start of run_until_suspend, called by the Executing tick body (R172, R212): a halted interpreter returns Halted at
once; else a stale suspension is cleared (R173) and the run begins with no instruction step made. -/
def State.executingTick (s : State) : State :=
  if s.halted then s.endRun .halted else s.resume.setPhase (.inRun 0)

/-- `read_encoder_count(axis)`: what the environment lists for the axis (R217, I12; log 9). -/
def State.encoderCount (s : State) (axis : Axis) : Word := (s.encoders.lookup axis).getD 0

/-- The target is reached: every axis of the session has an unsigned count at or above the target (R217). -/
def State.targetReached (s : State) : Bool :=
  s.motion.axes.all fun a => decide (s.motion.target.toNat ≤ (s.encoderCount a).toNat)

/-- Stop the motors and settle (R217). -/
def State.stopMotion (s : State) : State :=
  { s with
    outputs := s.outputs ++ (orderAxes s.choices s.motion.axes).map fun a => .setSpeed a 0
    choices := s.choices + 1
    motion := { s.motion with driving := false }
    tmState := .settling }

/-- The Moving tick body (R217). -/
def State.movingTick (s : State) : State := if s.targetReached then s.stopMotion else s

/-- The Settling tick body: increment, then compare with the threshold; past it the session is destroyed and the
interpreter resumed (R218). -/
def State.settlingTick (s : State) : State :=
  let count := s.motion.debounce + 1
  if settleThreshold < count.toNat then
    { s with motion := { s.motion with debounce := 0, active := false }, tmState := .executing }.resume
  else { s with motion := { s.motion with debounce := count } }

/-- The tick step (R208): consume the tick, background polling (R219), then the body of the current state. A transient
state has no tick body: a tick step never finds one (R206, and `State.coreStep` runs its body first). -/
def State.tickStep (s : State) : State :=
  let s := s.consumeTick.emit [.backgroundPoll]
  match s.tmState with
  | .idle => s.idleTick
  | .executing => s.executingTick
  | .moving => s.movingTick
  | .settling => s.settlingTick
  | .resetting => s
  | .receivingSize => s
  | .receivingPayload => s

end Sys2Proof.Machine
end

