-- ==== Sys2Proof/Machine/ControlLoop.lean ====
section
/-!
DEFINITION. The control loop (48_task_state_machine.md R205) and the arrival of what the outside agents do (10_state.md R23,
60_exceptions.md R245, R246).
-/
namespace Sys2Proof.Machine

open Sys2Proof

/-- One iteration of the control loop between steps (R205): a pending frame or a pending tick is taken; of both, the one
the free choice takes (log 7), the other in a later iteration; with neither the core waits (log 14). -/
def State.loopIteration (s : State) : State :=
  match s.pendingFrame, s.pendingTick with
  | true, true =>
    if Config.frameFirst s.choices then s.nextChoice.frameStep else s.nextChoice.tickStep
  | true, false => s.frameStep
  | false, true => s.tickStep
  | false, false => s

/-- A step of the core with nothing arriving: the next instruction step of a run in progress (R172), the body of a
transient state (R206, R265: Resetting at power-on, before any tick or frame is consumed), or an iteration of the control
loop (R205). -/
def State.coreStep (s : State) : Result :=
  match s.phase with
  | .inRun n => s.runStep n
  | .atLoop =>
    match s.tmState with
    | .resetting => .next s.runTransient
    | .receivingSize => .next s.runTransient
    | .receivingPayload => .next s.runTransient
    | .idle => .next s.loopIteration
    | .executing => .next s.loopIteration
    | .moving => .next s.loopIteration
    | .settling => .next s.loopIteration

/-- What an outside agent does sets a flag or a value that the core reads later (R3, R245): a tick merges with a pending
one, an event too (R23, R246); a frame that arrives while one is pending is refused (R276, D39). -/
def State.arrive (e : Input) (s : State) : Result :=
  match e with
  | .tick => .next s.raiseTick
  | .frame f =>
    if s.pendingFrame then .refused .frameOverrun else .next (s.raiseFrame f)
  | .external => .next s.raiseExternal
  | .encoders counts => .next (s.setEncoders counts)
  | .quiet => s.coreStep

/-- One step of the model: the next entry of the environment's schedule, or, with an empty schedule, a step of the core.
An entry may land between any two steps, so between two instruction steps too, where it only sets its flag (R246). -/
def State.scheduledStep (s : State) : Result :=
  match s.inputs with
  | [] => s.coreStep
  | e :: rest => (s.setInputs rest).arrive e

end Sys2Proof.Machine
end

