-- ==== Sys2Proof/Machine/Step.lean ====
section
/-!
DEFINITION. The step of the machine, and the state in which a given instruction is the next one to run.
-/
namespace Sys2Proof.Machine

open Sys2Proof

/-- One step of the machine. -/
def step (s : State) : Host.Outcome State Fault Refusal := s.scheduledStep

/-- `s` with the instruction whose table word is `w` where the next step fetches: the interpreter is inside
run_until_suspend in Executing, not halted and not suspended, nothing arrives, the word's bytes stand in Memory at pc, and
pc lies below tot_size (R170, R171). pc moves to 0 only where no word can be fetched at it. It stands for a load from
outside; log 1 and log 18. -/
def State.withFetchWord (s : State) (nbits w : Nat) : State :=
  let word := BitVec.ofNat 32 (w % 2 ^ nbits)
  let fetchable := s.pc.toNat + 4 ≤ s.params.memCapacity ∧ s.pc.toNat + 4 ≤ 65535
  let pc := if fetchable then s.pc else 0
  { s with
    pc := pc
    halted := false
    suspend := .none
    mem := Memory.writeBytes s.mem pc.toNat (bytesOfWord word)
    tmState := .executing
    totSize := if pc.toNat < s.totSize.toNat then s.totSize else BitVec.ofNat 16 (pc.toNat + 4)
    phase := .inRun 0
    inputs := [] }

end Sys2Proof.Machine
end

