-- ==== Sys2Proof/Safety.lean ====
section
/-!
DEFINITION. The terms claims are stated in: what an instruction or a fault leaves unchanged (frames), the invariant of the
reachable states, the source's exclusion of running and moving under host duty H1, and the host's side of the load protocol.
-/
namespace Sys2Proof.Machine

open Sys2Proof

/-! ### Frames -/

/-- Everything but the registers, HI, LO, pc, Memory and the output events is as before. -/
structure SameControl (s t : State) : Prop where
  halted : t.halted = s.halted
  suspend : t.suspend = s.suspend
  tmState : t.tmState = s.tmState
  totSize : t.totSize = s.totSize
  bytesIn : t.bytesIn = s.bytesIn
  motion : t.motion = s.motion
  pendingTick : t.pendingTick = s.pendingTick
  pendingFrame : t.pendingFrame = s.pendingFrame
  rxFrame : t.rxFrame = s.rxFrame
  extEvent : t.extEvent = s.extEvent
  params : t.params = s.params
  phase : t.phase = s.phase
  inputs : t.inputs = s.inputs
  encoders : t.encoders = s.encoders
  choices : t.choices = s.choices
  lastOutcome : t.lastOutcome = s.lastOutcome

/-- Every byte of Memory is as before. -/
def SameMemory (s t : State) : Prop := ∀ a, Memory.byte t.mem a = Memory.byte s.mem a

/-- Every general register is as before. -/
def SameRegisters (s t : State) : Prop := ∀ r, t.reg r = s.reg r

/-- The instruction wrote `v` to register `rd` (nothing for register 0, R11), fell through, and changed nothing else. -/
structure WroteRegister (rd : RegNum) (v : Word) (s t : State) : Prop where
  result : t.reg rd = if rd = 0 then 0 else v
  others : ∀ r, r ≠ rd → t.reg r = s.reg r
  hi : t.hi = s.hi
  lo : t.lo = s.lo
  pc : t.pc = s.pc + 4
  memory : SameMemory s t
  outputs : t.outputs = s.outputs
  control : SameControl s t

/-- The instruction left HI and LO as given, fell through, and changed nothing else. -/
structure WroteHiLo (hi lo : Word) (s t : State) : Prop where
  hi : t.hi = hi
  lo : t.lo = lo
  registers : SameRegisters s t
  pc : t.pc = s.pc + 4
  memory : SameMemory s t
  outputs : t.outputs = s.outputs
  control : SameControl s t

/-- The instruction set pc to the target and changed nothing else. -/
structure Transferred (target : Word) (s t : State) : Prop where
  pc : t.pc = target
  registers : SameRegisters s t
  hi : t.hi = s.hi
  lo : t.lo = s.lo
  memory : SameMemory s t
  outputs : t.outputs = s.outputs
  control : SameControl s t

/-- The instruction wrote `pc + 4` to register `rd` (nothing for register 0), set pc to the target, and changed nothing
else. -/
structure Linked (rd : RegNum) (target : Word) (s t : State) : Prop where
  pc : t.pc = target
  link : t.reg rd = if rd = 0 then 0 else s.pc + 4
  others : ∀ r, r ≠ rd → t.reg r = s.reg r
  hi : t.hi = s.hi
  lo : t.lo = s.lo
  memory : SameMemory s t
  outputs : t.outputs = s.outputs
  control : SameControl s t

/-- The instruction stored the bytes at the address, fell through, and changed nothing else: every byte of Memory outside
the stored ones is as before. -/
structure StoredBytes (addr : Nat) (bytes : List Byte) (s t : State) : Prop where
  stored : ∀ (k : Nat) (h : k < bytes.length), Memory.byte t.mem (addr + k) = bytes[k]
  elsewhere : ∀ a, a < addr ∨ addr + bytes.length ≤ a → Memory.byte t.mem a = Memory.byte s.mem a
  registers : SameRegisters s t
  hi : t.hi = s.hi
  lo : t.lo = s.lo
  pc : t.pc = s.pc + 4
  outputs : t.outputs = s.outputs
  control : SameControl s t

/-- The registers, HI, LO, pc and Memory are as before: what a fault, a halt and a TM step leave of the program. -/
structure SameProgram (s t : State) : Prop where
  registers : SameRegisters s t
  hi : t.hi = s.hi
  lo : t.lo = s.lo
  pc : t.pc = s.pc
  memory : SameMemory s t

/-- What the environment owns and the load session are as before. -/
structure SameInterface (s t : State) : Prop where
  totSize : t.totSize = s.totSize
  bytesIn : t.bytesIn = s.bytesIn
  pendingTick : t.pendingTick = s.pendingTick
  pendingFrame : t.pendingFrame = s.pendingFrame
  rxFrame : t.rxFrame = s.rxFrame
  extEvent : t.extEvent = s.extEvent
  params : t.params = s.params
  inputs : t.inputs = s.inputs
  encoders : t.encoders = s.encoders

/-- A fault was taken (R215, R235, R238): the program's state is as before, halted is set, the run has ended in Idle, and
one Fault frame went out whose payload is the fault code, the pc (4 bytes, big-endian) and zeros. -/
structure TookFault (reason : FaultReason) (code : Byte) (s t : State) : Prop where
  program : SameProgram s t
  interface : SameInterface s t
  halted : t.halted = true
  suspend : t.suspend = s.suspend
  tmState : t.tmState = .idle
  motion : t.motion = s.motion
  choices : t.choices = s.choices
  phase : t.phase = .atLoop
  outcome : t.lastOutcome = some (.faulted reason)
  report :
    ∃ f : Frame,
      t.outputs = s.outputs ++ [.frame .fault f] ∧
        (parseFrame f).code = s.params.tags.fault ∧
          (parseFrame f).payload =
            [code, s.pc.extractLsb' 24 8, s.pc.extractLsb' 16 8, s.pc.extractLsb' 8 8, s.pc.extractLsb' 0 8] ++
              List.replicate 13 0

/-- The program ended with Halted (R171, R213): halted is set, the run has ended in Idle, nothing else changed. -/
structure EndedHalted (s t : State) : Prop where
  program : SameProgram s t
  interface : SameInterface s t
  halted : t.halted = true
  suspend : t.suspend = s.suspend
  tmState : t.tmState = .idle
  motion : t.motion = s.motion
  choices : t.choices = s.choices
  phase : t.phase = .atLoop
  outcome : t.lastOutcome = some .halted
  outputs : t.outputs = s.outputs

/-! ### The next instruction -/

/-- The next step of the machine is an instruction step whose checks before the fetch pass: nothing arrives, a run is in
progress after `n` instruction steps with budget left, and pc lies in the loaded program (R170, R171, R175). -/
structure AtInstruction (n : Nat) (s : State) : Prop where
  inputs : s.inputs = []
  phase : s.phase = .inRun n
  budget : s.params.stepBudget ≠ some n
  loaded : s.pc.toNat < s.totSize.toNat

/-- The bits of a word an instruction's rule uses: the opcode, the function code of the Register format, and the fields
of its row; every other bit is ignored (R65). -/
def usedBits : Instr → Word
  | .sll _ _ _ => 0xFC1FFFFF
  | .srl _ _ _ => 0xFC1FFFFF
  | .sra _ _ _ => 0xFC1FFFFF
  | .sllv _ _ _ => 0xFFFFF83F
  | .srlv _ _ _ => 0xFFFFF83F
  | .srav _ _ _ => 0xFFFFF83F
  | .jr _ => 0xFFE0003F
  | .jalr _ _ => 0xFFE0F83F
  | .mfhi _ => 0xFC00F83F
  | .mthi _ => 0xFFE0003F
  | .mflo _ => 0xFC00F83F
  | .mtlo _ => 0xFFE0003F
  | .mult _ _ => 0xFFFF003F
  | .multu _ _ => 0xFFFF003F
  | .div _ _ => 0xFFFF003F
  | .divu _ _ => 0xFFFF003F
  | .add _ _ _ => 0xFFFFF83F
  | .addu _ _ _ => 0xFFFFF83F
  | .sub _ _ _ => 0xFFFFF83F
  | .subu _ _ _ => 0xFFFFF83F
  | .and _ _ _ => 0xFFFFF83F
  | .or _ _ _ => 0xFFFFF83F
  | .xor _ _ _ => 0xFFFFF83F
  | .nor _ _ _ => 0xFFFFF83F
  | .slt _ _ _ => 0xFFFFF83F
  | .sltu _ _ _ => 0xFFFFF83F
  | .beq _ _ _ => 0xFFFFFFFF
  | .bne _ _ _ => 0xFFFFFFFF
  | .blez _ _ => 0xFFE0FFFF
  | .bgtz _ _ => 0xFFE0FFFF
  | .addi _ _ _ => 0xFFFFFFFF
  | .addiu _ _ _ => 0xFFFFFFFF
  | .slti _ _ _ => 0xFFFFFFFF
  | .sltiu _ _ _ => 0xFFFFFFFF
  | .andi _ _ _ => 0xFFFFFFFF
  | .ori _ _ _ => 0xFFFFFFFF
  | .xori _ _ _ => 0xFFFFFFFF
  | .llo _ _ => 0xFC1FFFFF
  | .lhi _ _ => 0xFC1FFFFF
  | .lb _ _ _ => 0xFFFFFFFF
  | .lh _ _ _ => 0xFFFFFFFF
  | .lw _ _ _ => 0xFFFFFFFF
  | .lbu _ _ _ => 0xFFFFFFFF
  | .lhu _ _ _ => 0xFFFFFFFF
  | .sb _ _ _ => 0xFFFFFFFF
  | .sh _ _ _ => 0xFFFFFFFF
  | .sw _ _ _ => 0xFFFFFFFF
  | .j _ => 0xFFFFFFFF
  | .jal _ => 0xFFFFFFFF
  | .trap _ => 0xFC0000FF

/-! ### The invariant -/

/-- Every listed address of Memory is below a bound. -/
def MemoryBelow (bound : Nat) (m : Memory) : Prop := ∀ c ∈ m, c.1 < bound

/-- Axes that a session may have: at least one, each an axis of AXES (R166). -/
def LegalAxes (p : Params) (axes : List Axis) : Prop := axes ≠ [] ∧ ∀ a ∈ axes, a ∈ p.axes

/-- The invariant of the reachable states. The first three invariants of R29 are `loaded`, `declared` and the bounds of
`mem_in_capacity`; `run_state`, `motion_states` and the rest are what the transitions of 48_task_state_machine.md keep
whatever the host sends. -/
structure Inv (s : State) : Prop where
  params_ok : s.params.wf = true
  mem_wf : Memory.wf s.mem = true
  mem_in_capacity : MemoryBelow s.params.memCapacity s.mem
  reg_zero : s.regs[0] = 0
  loaded : s.bytesIn.toNat ≤ s.totSize.toNat
  declared : s.totSize.toNat ≤ s.params.memCapacity
  no_transient : s.tmState ≠ .receivingSize ∧ s.tmState ≠ .receivingPayload
  run_state :
    ∀ n, s.phase = .inRun n →
      s.tmState = .executing ∧ s.halted = false ∧ s.suspend = .none ∧ ∀ b, s.params.stepBudget = some b → n ≤ b
  motion_states :
    s.tmState = .moving ∨ s.tmState = .settling →
      s.motion.active = true ∧ s.suspend = .motionPending ∧ s.halted = false
  moving_drives : s.tmState = .moving → s.motion.driving = true ∧ s.motion.debounce = 0
  settling_stopped : s.tmState = .settling → s.motion.driving = false
  debounce_bound : s.motion.debounce.toNat ≤ settleThreshold
  session_axes : s.motion.active = true → LegalAxes s.params s.motion.axes

/-- An "RD" or a "PK" frame is pending. -/
def LoadFramePending (s : State) : Prop :=
  s.pendingFrame = true ∧
    (commandOf (parseFrame s.rxFrame).code = .rd ∨ commandOf (parseFrame s.rxFrame).code = .pk)

/-- Host duty H1 in a state (R275): no "RD" or "PK" frame is there while the TM is in Executing, Moving or Settling. -/
def HostKeepsH1 (s : State) : Prop :=
  LoadFramePending s → s.tmState ≠ .executing ∧ s.tmState ≠ .moving ∧ s.tmState ≠ .settling

/-- Run and suspend are mutually exclusive (R222): a session is active exactly in Moving and Settling, and the interpreter
is suspended exactly then. -/
structure RunMotionExclusive (s : State) : Prop where
  active_iff : s.motion.active = true ↔ s.tmState = .moving ∨ s.tmState = .settling
  suspend_iff : s.suspend = .motionPending ↔ s.tmState = .moving ∨ s.tmState = .settling

/-! ### Several steps -/

/-- `k` steps of the machine, ending at the first fault or refusal. -/
def runSteps : Nat → State → Result
  | 0, s => .next s
  | k + 1, s =>
    match step s with
    | .next t => runSteps k t
    | .fault r => .fault r
    | .refused r => .refused r

/-! ### The host's side of the load protocol (R198, R269) -/

/-- The "RD" frame that declares a size: its high and low byte at the payload offsets, zeros elsewhere (R192). -/
def sizeFrame (p : Params) (size : Nat) : Frame :=
  buildFrame (0x52, 0x44)
    ((List.range 18).map fun k =>
      if k = p.sizeOffHi.val then BitVec.ofNat 8 (size / 256)
      else if k = p.sizeOffLo.val then BitVec.ofNat 8 size else 0)

/-- The "PK" frame that carries bytes, padded with zeros (R194). -/
def programFrame (bytes : List Byte) : Frame := buildFrame (0x50, 0x4B) bytes

/-- The number of "PK" frames of an image: ceil(L / 18) (R198). -/
def programFrameCount (size : Nat) : Nat := (size + 17) / 18

/-- The schedule of a load: one "RD" frame, then the image in "PK" frames of 18 bytes, each frame consumed before the
next arrives (R198, R269). -/
def loadSchedule (p : Params) (image : List Byte) : List Input :=
  [.frame (sizeFrame p image.length), .quiet] ++
    (List.range (programFrameCount image.length)).flatMap fun k =>
      [.frame (programFrame ((image.drop (18 * k)).take 18)), .quiet]

end Sys2Proof.Machine
end

