-- ==== Sys2Proof/Certificates/Slice0/Obligations.lean ====
section
/-!
DEFINITION. The statements for the provers. Each docstring says what the statement claims; a statement that rests on a decision
of the spec (92_eei_decisions.md) or on a choice of the model names it.
-/
open Sys2Proof Sys2Proof.Machine

/-- For every well-formed instruction and any bytes after it: decoding its word gives the instruction, and decoding its
four bytes in memory order gives it with the rest of the bytes. -/
def Obligations.DecodeEncodeRoundTrip : Prop :=
  ∀ (i : Instr) (rest : List Byte), i.wf = true →
    decodeWord (encode i) = .instr i ∧ decodeBytes (bytesOfWord (encode i) ++ rest) = .instr i rest

/-- If a word decodes to an instruction, its used bits are those of the encoding of the instruction; and every word with
the same used bits decodes to the same instruction, whatever its other bits hold. That the unused fields are ignored
is the decision D4 of the spec; that the encoding has 0 in them, so that the used bits of the word are the whole
encoding, is the deduction of log 22 from the assembler notation of the spec (D37). -/
def Obligations.DecodingIgnoresExactlyUnusedFields : Prop :=
  ∀ (w : Word) (i : Instr), decodeWord w = .instr i →
    w &&& usedBits i = encode i ∧ ∀ w' : Word, w' &&& usedBits i = w &&& usedBits i → decodeWord w' = .instr i

/-- A word decodes to InvalidOpcode exactly when its opcode is not 0 and not one of the 24 listed ones, to InvalidFunction
exactly when its opcode is 0 and its function code is not one of the 26 listed ones, and to an instruction otherwise.
The opcode numbers are the decision D3 of the spec. -/
def Obligations.IllegalWordsAreExactlyTheUnlisted : Prop :=
  ∀ w : Word,
    let opcodes : List (BitVec 6) :=
      [0x02, 0x03, 0x04, 0x05, 0x06, 0x07, 0x08, 0x09, 0x0A, 0x0B, 0x0C, 0x0D, 0x0E, 0x18, 0x19, 0x1A, 0x20, 0x21, 0x23, 0x24,
        0x25, 0x28, 0x29, 0x2B]
    let functs : List (BitVec 6) :=
      [0x00, 0x02, 0x03, 0x04, 0x06, 0x07, 0x08, 0x09, 0x10, 0x11, 0x12, 0x13, 0x18, 0x19, 0x1A, 0x1B, 0x20, 0x21, 0x22, 0x23,
        0x24, 0x25, 0x26, 0x27, 0x2A, 0x2B]
    (decodeWord w = .invalidOpcode ↔ w.extractLsb' 26 6 ∉ (0 : BitVec 6) :: opcodes) ∧
      (decodeWord w = .invalidFunction ↔ w.extractLsb' 26 6 = 0 ∧ w.extractLsb' 0 6 ∉ functs) ∧
        ((∃ i, decodeWord w = .instr i) ↔
          w.extractLsb' 26 6 ∈ opcodes ∨ w.extractLsb' 26 6 = 0 ∧ w.extractLsb' 0 6 ∈ functs)

/-- Ten example words of the family files, one for each family and format, decode to the instructions the spec prints
beside them. -/
def Obligations.SpecWordsDecodeAsListed : Prop :=
  decodeWord 0x00221820 = .instr (.add 3 1 2) ∧ decodeWord 0x00021903 = .instr (.sra 3 2 4) ∧
    decodeWord 0x00221807 = .instr (.srav 3 2 1) ∧ decodeWord 0x0022001A = .instr (.div 1 2) ∧
      decodeWord 0x2022FFFF = .instr (.addi 2 1 0xFFFF) ∧ decodeWord 0x64021234 = .instr (.lhi 2 0x1234) ∧
        decodeWord 0x1422FFFE = .instr (.bne 1 2 0xFFFE) ∧ decodeWord 0x0080F809 = .instr (.jalr 31 4) ∧
          decodeWord 0x8C22FFFC = .instr (.lw 2 1 0xFFFC) ∧ decodeWord 0x68000010 = .instr (.trap 0x10)

/-- With nothing arriving, a run in progress after n instruction steps with budget left, pc in the loaded program and the
four bytes at pc in bounds: if their big-endian word decodes to a well-formed instruction, the step is exec of it at
the state whose count of instruction steps is n + 1 and which is otherwise the same. That one model step is one
instruction step, counted in the field phase, is a choice of the model (log 5). -/
def Obligations.StepRunsTheDecodedInstruction : Prop :=
  ∀ (s : State) (n : Nat) (i : Instr), AtInstruction n s → s.pc.toNat + 4 ≤ s.params.memCapacity → i.wf = true →
    decodeWord
        (Memory.byte s.mem s.pc.toNat ++ Memory.byte s.mem (s.pc.toNat + 1) ++ Memory.byte s.mem (s.pc.toNat + 2) ++
          Memory.byte s.mem (s.pc.toNat + 3)) = .instr i →
      step s = exec i { s with phase := .inRun (n + 1) }

/-- With the next step an instruction step and the word at pc in bounds: if its opcode is in no row of the map, the step
takes the fault InvalidOpcode (code 1); if its opcode is 0 and its function code is in no row, InvalidFunction (code
2). The program state is unchanged, halted is set, the Fault frame carries code and pc, the TM is in Idle. Fault
precision, the Fault frame and the codes are the decisions D17 and D18 of the spec; phase and lastOutcome are the
fields of the model of log 5 and log 12. -/
def Obligations.IllegalWordFaultsAtDecode : Prop :=
  ∀ (s : State) (n : Nat), AtInstruction n s → s.pc.toNat + 4 ≤ s.params.memCapacity →
    let w := Memory.word s.mem s.pc.toNat
    (decodeWord w = .invalidOpcode → ∃ t, step s = .next t ∧ TookFault (.invalidOpcode w) 1 s t) ∧
      (decodeWord w = .invalidFunction → ∃ t, step s = .next t ∧ TookFault (.invalidFunction w) 2 s t)

/-- With nothing arriving, a run in progress with budget left and pc at or above tot_size: the step ends the program,
outcome Halted, TM in Idle, program state unchanged, whatever stands in Memory at pc. The comparison is the decision
D19 of the spec; phase and lastOutcome are the fields of the model of log 5 and log 12. -/
def Obligations.RunningOffTheProgramHalts : Prop :=
  ∀ (s : State) (n : Nat), s.inputs = [] → s.phase = .inRun n → s.params.stepBudget ≠ some n →
    s.totSize.toNat ≤ s.pc.toNat → ∃ t, step s = .next t ∧ EndedHalted s t

/-- With the next step an instruction step and the four bytes at pc not all below MEM_CAPACITY, the step takes the fault
MemoryOutOfBounds with the pc as its address: the program state is unchanged, halted is set, the Fault frame carries
code 4 and pc, the TM is in Idle. The bounds check is the decision D12 of the spec, precision D17, the code and what
the Fault frame reports D18; phase and lastOutcome are the fields of the model of log 5 and log 12. -/
def Obligations.FetchOutOfBoundsFaults : Prop :=
  ∀ (s : State) (n : Nat), AtInstruction n s → s.params.memCapacity < s.pc.toNat + 4 →
    ∃ t, step s = .next t ∧ TookFault (.memoryOutOfBounds s.pc) 4 s t

/-- With nothing arriving and a run in progress after as many instruction steps as STEP_BUDGET allows, the step returns
Yielded: every register, Memory, the TM state and all else are as before, and the control loop is between steps. The
budget is the decision D25 of the spec; that the return with Yielded is a model step of its own is a choice of the
model (log 25), as are the fields phase (log 5) and lastOutcome (log 12). -/
def Obligations.UsedUpBudgetYields : Prop :=
  ∀ (s : State) (n : Nat), s.inputs = [] → s.phase = .inRun n → s.params.stepBudget = some n →
    step s = .next { s with phase := .atLoop, lastOutcome := some .yielded }

/-- add (opcode 0, function code 100000) always completes: rd holds the sum of the two old operands modulo 2^32 (nothing
is written for rd = 0), pc is pc + 4, and every other register, HI, LO, Memory and all else are unchanged. The example
word of the rule decodes to add $3,$1,$2. -/
def Obligations.AddWrapsModulo32Bits : Prop :=
  ∀ (rd rs rt : RegNum) (s : State),
    (encode (.add rd rs rt)).extractLsb' 26 6 = 0 ∧ (encode (.add rd rs rt)).extractLsb' 0 6 = 0b100000#6 ∧
      decodeWord 0x00221820 = .instr (.add 3 1 2) ∧
        ∃ t, exec (.add rd rs rt) s = .next t ∧
          WroteRegister rd (BitVec.ofNat 32 ((s.reg rs).toNat + (s.reg rt).toNat)) s t

/-- addu, sub and subu always complete with the sum or the difference of the old operands modulo 2^32 in rd (nothing for
rd = 0), pc + 4, and nothing else changed. The operations are the decision D14 of the spec, the absence of an overflow
fault D6. -/
def Obligations.AdduSubSubuResults : Prop :=
  ∀ (rd rs rt : RegNum) (s : State),
    let a := (s.reg rs).toNat
    let b := (s.reg rt).toNat
    (∃ t, exec (.addu rd rs rt) s = .next t ∧ WroteRegister rd (BitVec.ofNat 32 (a + b)) s t) ∧
      (∃ t, exec (.sub rd rs rt) s = .next t ∧ WroteRegister rd (BitVec.ofInt 32 ((a : Int) - (b : Int))) s t) ∧
        (∃ t, exec (.subu rd rs rt) s = .next t ∧ WroteRegister rd (BitVec.ofInt 32 ((a : Int) - (b : Int))) s t)

/-- and, or, xor and nor always complete: each bit of the value written to rd is the and, or, exclusive or, or negated or
of the two old operand bits; pc + 4; nothing else changed. The operations are the decision D14 of the spec. -/
def Obligations.BitwiseRegisterResults : Prop :=
  ∀ (rd rs rt : RegNum) (s : State),
    let a := (s.reg rs).getLsbD
    let b := (s.reg rt).getLsbD
    (∃ v t, exec (.and rd rs rt) s = .next t ∧ WroteRegister rd v s t ∧
        ∀ k, k < 32 → v.getLsbD k = (a k && b k)) ∧
      (∃ v t, exec (.or rd rs rt) s = .next t ∧ WroteRegister rd v s t ∧
        ∀ k, k < 32 → v.getLsbD k = (a k || b k)) ∧
        (∃ v t, exec (.xor rd rs rt) s = .next t ∧ WroteRegister rd v s t ∧
        ∀ k, k < 32 → v.getLsbD k = (a k != b k)) ∧
          (∃ v t, exec (.nor rd rs rt) s = .next t ∧ WroteRegister rd v s t ∧
        ∀ k, k < 32 → v.getLsbD k = (!(a k || b k)))

/-- slt compares the signed readings and sltu the unsigned readings of the old operands, exactly; the value written to rd
is 1 or 0; pc + 4; nothing else changed. The operations are the decision D14 of the spec. -/
def Obligations.SetLessThanResults : Prop :=
  ∀ (rd rs rt : RegNum) (s : State),
    (∃ t, exec (.slt rd rs rt) s = .next t ∧ WroteRegister rd (if (s.reg rs).toInt < (s.reg rt).toInt then 1 else 0) s t) ∧
      (∃ t, exec (.sltu rd rs rt) s = .next t ∧ WroteRegister rd (if (s.reg rs).toNat < (s.reg rt).toNat then 1 else 0) s t)

/-- sll writes x[rt] * 2^shamt modulo 2^32, srl writes u(x[rt]) div 2^shamt, sra writes floor(s(x[rt]) / 2^shamt) as a
32-bit value, to rd; pc + 4; nothing else changed. The operations are the decision D14 of the spec. -/
def Obligations.ConstantShiftResults : Prop :=
  ∀ (rd rt : RegNum) (shamt : BitVec 5) (s : State),
    (∃ t, exec (.sll rd rt shamt) s = .next t ∧ WroteRegister rd (BitVec.ofNat 32 ((s.reg rt).toNat * 2 ^ shamt.toNat)) s t) ∧
      (∃ t, exec (.srl rd rt shamt) s = .next t ∧ WroteRegister rd (BitVec.ofNat 32 ((s.reg rt).toNat / 2 ^ shamt.toNat)) s t) ∧
        (∃ t, exec (.sra rd rt shamt) s = .next t ∧ WroteRegister rd (BitVec.ofInt 32 ((s.reg rt).toInt / 2 ^ shamt.toNat)) s t)

/-- With n = u(x[rs]) modulo 32: sllv writes x[rt] * 2^n modulo 2^32, srlv u(x[rt]) div 2^n, srav floor(s(x[rt]) / 2^n),
to rd; pc + 4; nothing else changed. The operations and the count are the decisions D14 and D15 of the spec. -/
def Obligations.VariableShiftResults : Prop :=
  ∀ (rd rt rs : RegNum) (s : State),
    let n := (s.reg rs).toNat % 32
    (∃ t, exec (.sllv rd rt rs) s = .next t ∧ WroteRegister rd (BitVec.ofNat 32 ((s.reg rt).toNat * 2 ^ n)) s t) ∧
      (∃ t, exec (.srlv rd rt rs) s = .next t ∧ WroteRegister rd (BitVec.ofNat 32 ((s.reg rt).toNat / 2 ^ n)) s t) ∧
        (∃ t, exec (.srav rd rt rs) s = .next t ∧ WroteRegister rd (BitVec.ofInt 32 ((s.reg rt).toInt / 2 ^ n)) s t)

/-- mult and multu always complete: HI and LO together, HI the high half, are the exact product of the signed (mult) or
unsigned (multu) readings of the operands; pc + 4; no general register, no byte of Memory and nothing else changes.
The operations are the decision D14 of the spec. -/
def Obligations.MultiplyGivesTheExactProduct : Prop :=
  ∀ (rs rt : RegNum) (s : State),
    (∃ (hi lo : Word) (t : State), exec (.mult rs rt) s = .next t ∧ WroteHiLo hi lo s t ∧
        (hi ++ lo).toInt = (s.reg rs).toInt * (s.reg rt).toInt) ∧
      ∃ (hi lo : Word) (t : State), exec (.multu rs rt) s = .next t ∧ WroteHiLo hi lo s t ∧
        hi.toNat * 2 ^ 32 + lo.toNat = (s.reg rs).toNat * (s.reg rt).toNat

/-- For a divisor other than 0, div completes: except for -2^31 / -1, n = q * d + r exactly with |r| < |d| and r = 0 or of
the sign of n, where q is LO and r is HI read as signed; for -2^31 / -1, LO is 0x80000000 and HI is 0; pc + 4; nothing
else changes. The operation and the overflow case are the decisions D14 and D13 of the spec. -/
def Obligations.DivideGivesQuotientAndRemainder : Prop :=
  ∀ (rs rt : RegNum) (s : State), s.reg rt ≠ 0 →
    ∃ (hi lo : Word) (t : State), exec (.div rs rt) s = .next t ∧ WroteHiLo hi lo s t ∧
      if s.reg rs = 0x80000000#32 ∧ s.reg rt = 0xFFFFFFFF#32 then lo = 0x80000000#32 ∧ hi = 0
      else
        (s.reg rs).toInt = lo.toInt * (s.reg rt).toInt + hi.toInt ∧
          hi.toInt.natAbs < (s.reg rt).toInt.natAbs ∧
            (hi.toInt = 0 ∨ (0 < hi.toInt ∧ 0 < (s.reg rs).toInt) ∨ (hi.toInt < 0 ∧ (s.reg rs).toInt < 0))

/-- For a divisor other than 0, divu completes with u(x[rs]) = LO * u(x[rt]) + HI and HI < u(x[rt]); pc + 4; nothing else
changes. The operation is the decision D14 of the spec. -/
def Obligations.DivideUnsignedGivesQuotientAndRemainder : Prop :=
  ∀ (rs rt : RegNum) (s : State), s.reg rt ≠ 0 →
    ∃ (hi lo : Word) (t : State), exec (.divu rs rt) s = .next t ∧ WroteHiLo hi lo s t ∧
      (s.reg rs).toNat = lo.toNat * (s.reg rt).toNat + hi.toNat ∧ hi.toNat < (s.reg rt).toNat

/-- With x[rt] = 0, whatever x[rs] holds, div and divu take the fault DivideByZero (code 3): HI, LO, every register, pc
and Memory are as before, halted is set, the Fault frame goes out and the TM is in Idle. Precision, the Fault frame
and its code are the decisions D17 and D18 of the spec. -/
def Obligations.DivisionByZeroFaults : Prop :=
  ∀ (rs rt : RegNum) (s : State), s.reg rt = 0 →
    (∃ t, exec (.div rs rt) s = .next t ∧ TookFault .divideByZero 3 s t) ∧
      ∃ t, exec (.divu rs rt) s = .next t ∧ TookFault .divideByZero 3 s t

/-- mfhi and mflo write HI or LO to rd and leave HI and LO as they are; mthi writes x[rs] to HI and leaves LO, mtlo writes
x[rs] to LO and leaves HI; pc + 4; nothing else changes. The operations are the decision D14 of the spec. -/
def Obligations.MoveHiLoResults : Prop :=
  ∀ (r : RegNum) (s : State),
    (∃ t, exec (.mfhi r) s = .next t ∧ WroteRegister r s.hi s t) ∧
      (∃ t, exec (.mflo r) s = .next t ∧ WroteRegister r s.lo s t) ∧
        (∃ t, exec (.mthi r) s = .next t ∧ WroteHiLo (s.reg r) s.lo s t) ∧
          ∃ t, exec (.mtlo r) s = .next t ∧ WroteHiLo s.hi (s.reg r) s t

/-- addi and addiu always complete with x[rs] plus the signed reading of the immediate, modulo 2^32, in rt; pc + 4;
nothing else changes. Extension and operation are the decisions D5, D6 and D14 of the spec. -/
def Obligations.AddImmediateResults : Prop :=
  ∀ (rt rs : RegNum) (imm : Half) (s : State),
    (∃ t, exec (.addi rt rs imm) s = .next t ∧ WroteRegister rt (BitVec.ofInt 32 ((s.reg rs).toNat + imm.toInt)) s t) ∧
      (∃ t, exec (.addiu rt rs imm) s = .next t ∧ WroteRegister rt (BitVec.ofInt 32 ((s.reg rs).toNat + imm.toInt)) s t)

/-- For bits 0 to 15 the value written to rt is the and, or, or exclusive or of the bit of x[rs] and the bit of the
immediate; for bits 16 to 31 it is 0 for andi and the bit of x[rs] for ori and xori; pc + 4; nothing else changes.
Extension and operation are the decisions D5 and D14 of the spec. -/
def Obligations.LogicalImmediateResults : Prop :=
  ∀ (rt rs : RegNum) (imm : Half) (s : State),
    let a := (s.reg rs).getLsbD
    let b := imm.getLsbD
    (∃ v t, exec (.andi rt rs imm) s = .next t ∧ WroteRegister rt v s t ∧
        ∀ k, k < 32 → v.getLsbD k = (if k < 16 then a k && b k else false)) ∧
      (∃ v t, exec (.ori rt rs imm) s = .next t ∧ WroteRegister rt v s t ∧
        ∀ k, k < 32 → v.getLsbD k = (if k < 16 then a k || b k else a k)) ∧
        (∃ v t, exec (.xori rt rs imm) s = .next t ∧ WroteRegister rt v s t ∧
        ∀ k, k < 32 → v.getLsbD k = (if k < 16 then a k != b k else a k))

/-- lhi writes imm * 2^16 + (x[rt] mod 2^16) and llo writes (x[rt] div 2^16) * 2^16 + imm to rt; pc + 4; nothing else
changes. The operations are the decision D16 of the spec. -/
def Obligations.LoadHalfImmediateResults : Prop :=
  ∀ (rt : RegNum) (imm : Half) (s : State),
    (∃ t, exec (.lhi rt imm) s = .next t ∧ WroteRegister rt (BitVec.ofNat 32 (imm.toNat * 2 ^ 16 + (s.reg rt).toNat % 2 ^ 16)) s t) ∧
      (∃ t, exec (.llo rt imm) s = .next t ∧ WroteRegister rt (BitVec.ofNat 32 ((s.reg rt).toNat / 2 ^ 16 * 2 ^ 16 + imm.toNat)) s t)

/-- slti writes 1 exactly when s(x[rs]) is less than the signed reading of the immediate; sltiu writes 1 exactly when
u(x[rs]) is less than the immediate sign-extended to 32 bits and read as unsigned; 0 otherwise; to rt; pc + 4; nothing
else changes. Extension and operation are the decisions D5 and D14 of the spec. -/
def Obligations.SetLessThanImmediateResults : Prop :=
  ∀ (rt rs : RegNum) (imm : Half) (s : State),
    (∃ t, exec (.slti rt rs imm) s = .next t ∧ WroteRegister rt (if (s.reg rs).toInt < imm.toInt then 1 else 0) s t) ∧
      (∃ t, exec (.sltiu rt rs imm) s = .next t ∧ WroteRegister rt (if (s.reg rs).toNat < (if imm.toNat < 2 ^ 15 then imm.toNat else imm.toNat + (2 ^ 32 - 2 ^ 16)) then 1 else 0) s t)

/-- beq, bne, blez and bgtz always complete: pc becomes pc + 4 plus four times the signed immediate, modulo 2^32, when
x[rs] = x[rt], x[rs] is not x[rt], s(x[rs]) <= 0, or s(x[rs]) > 0 holds, and pc + 4 otherwise; no register, no byte of
Memory and nothing else changes. There is no delay slot. Target, conditions and the missing delay slot are the
decisions D7 and D14 of the spec. -/
def Obligations.BranchTargets : Prop :=
  ∀ (rs rt : RegNum) (imm : Half) (s : State),
    let target : Word := BitVec.ofInt 32 ((s.pc.toNat : Int) + 4 + 4 * imm.toInt)
    (∃ t, exec (.beq rs rt imm) s = .next t ∧ Transferred (if s.reg rs = s.reg rt then target else s.pc + 4) s t) ∧
      (∃ t, exec (.bne rs rt imm) s = .next t ∧ Transferred (if s.reg rs ≠ s.reg rt then target else s.pc + 4) s t) ∧
        (∃ t, exec (.blez rs imm) s = .next t ∧ Transferred (if (s.reg rs).toInt ≤ 0 then target else s.pc + 4) s t) ∧
          (∃ t, exec (.bgtz rs imm) s = .next t ∧ Transferred (if 0 < (s.reg rs).toInt then target else s.pc + 4) s t)

/-- j and jal go to the 26-bit field times 4 in the 256 MiB region of pc + 4; jal links pc + 4 in register 31; jr goes to
x[rs]; jalr goes to the old x[rs] and links pc + 4 in rd (nothing for rd = 0); nothing else changes. Targets and links
are the decisions D8, D9 and D14 of the spec. -/
def Obligations.JumpTargetsAndLinks : Prop :=
  ∀ (rd rs : RegNum) (target : BitVec 26) (s : State),
    let jump : Word := BitVec.ofNat 32 ((s.pc + 4).toNat / 2 ^ 28 * 2 ^ 28 + target.toNat * 4)
    (∃ t, exec (.j target) s = .next t ∧ Transferred jump s t) ∧
      (∃ t, exec (.jal target) s = .next t ∧ Linked 31 jump s t) ∧
        (∃ t, exec (.jr rs) s = .next t ∧ Transferred (s.reg rs) s t) ∧
          ∃ t, exec (.jalr rd rs) s = .next t ∧ Linked rd (s.reg rs) s t

/-- For every state, base register and immediate the effective address of a load or store is the unsigned x[rs] plus the
signed immediate, reduced modulo 2^32. Sign extension and wrap are the decisions D5 and D12 of the spec. -/
def Obligations.EffectiveAddressWraps : Prop :=
  ∀ (s : State) (rs : RegNum) (imm : Half),
    s.effectiveAddress rs imm = BitVec.ofInt 32 ((s.reg rs).toNat + imm.toInt)

/-- lb (opcode 0x20) and lbu (opcode 0x24): when the effective address is below MEM_CAPACITY they complete with the signed
or unsigned reading of the byte there in rt, pc + 4 and nothing else changed; otherwise they take MemoryOutOfBounds of
the address (code 4), with no register written. The example words of the rules decode to them. The sign extension of
the immediate and the wrap and bounds check of the address are the decisions D5 and D12 of the spec; precision, the
Fault frame and its code are D17 and D18. -/
def Obligations.LoadByteExtends : Prop :=
  ∀ (rt rs : RegNum) (imm : Half) (s : State),
    let ea := s.effectiveAddress rs imm
    let b := Memory.byte s.mem ea.toNat
    ((encode (.lb rt rs imm)).extractLsb' 26 6 = 0b100000#6 ∧ (encode (.lbu rt rs imm)).extractLsb' 26 6 = 0b100100#6 ∧
      decodeWord 0x80220003 = .instr (.lb 2 1 3) ∧ decodeWord 0x90220003 = .instr (.lbu 2 1 3)) ∧
      (ea.toNat < s.params.memCapacity →
        (∃ t, exec (.lb rt rs imm) s = .next t ∧ WroteRegister rt (BitVec.ofInt 32 b.toInt) s t) ∧
          ∃ t, exec (.lbu rt rs imm) s = .next t ∧ WroteRegister rt (BitVec.ofNat 32 b.toNat) s t) ∧
        (s.params.memCapacity ≤ ea.toNat →
          (∃ t, exec (.lb rt rs imm) s = .next t ∧ TookFault (.memoryOutOfBounds ea) 4 s t) ∧
            ∃ t, exec (.lbu rt rs imm) s = .next t ∧ TookFault (.memoryOutOfBounds ea) 4 s t)

/-- When both bytes at the effective address are in bounds, lh and lhu complete with the signed or unsigned reading of the
halfword whose high byte is at the lower address, in rt, pc + 4 and nothing else changed; otherwise they take
MemoryOutOfBounds of the address (code 4). Any alignment is legal. Alignment, byte order and bounds check are the
decisions D10, D11 and D12 of the spec, the sign extension of the immediate D5; precision, the Fault frame and its
code are D17 and D18. -/
def Obligations.LoadHalfwordExtends : Prop :=
  ∀ (rt rs : RegNum) (imm : Half) (s : State),
    let ea := s.effectiveAddress rs imm
    let h := (Memory.byte s.mem ea.toNat).toNat * 256 + (Memory.byte s.mem (ea.toNat + 1)).toNat
    (ea.toNat + 2 ≤ s.params.memCapacity →
        (∃ t, exec (.lh rt rs imm) s = .next t ∧ WroteRegister rt
            (BitVec.ofInt 32 (if h < 2 ^ 15 then (h : Int) else (h : Int) - 2 ^ 16)) s t) ∧
          ∃ t, exec (.lhu rt rs imm) s = .next t ∧ WroteRegister rt (BitVec.ofNat 32 h) s t) ∧
      (s.params.memCapacity < ea.toNat + 2 →
        (∃ t, exec (.lh rt rs imm) s = .next t ∧ TookFault (.memoryOutOfBounds ea) 4 s t) ∧
          ∃ t, exec (.lhu rt rs imm) s = .next t ∧ TookFault (.memoryOutOfBounds ea) 4 s t)

/-- lw (opcode 0x23): when the four bytes at the effective address are in bounds it completes with the word whose most
significant byte is at the lowest address, in rt, pc + 4 and nothing else changed, at any alignment; otherwise it
takes MemoryOutOfBounds of the address (code 4), with no register written. The example word of the rule decodes to it.
Alignment is the decision D10 of the spec, the sign extension of the immediate and the wrap and bounds check of the
address D5 and D12; precision, the Fault frame and its code are D17 and D18. -/
def Obligations.LoadWordAssemblesBigEndian : Prop :=
  ∀ (rt rs : RegNum) (imm : Half) (s : State),
    let ea := s.effectiveAddress rs imm
    let b := fun k => (Memory.byte s.mem (ea.toNat + k)).toNat
    ((encode (.lw rt rs imm)).extractLsb' 26 6 = 0b100011#6 ∧ decodeWord 0x8C22FFFC = .instr (.lw 2 1 0xFFFC)) ∧
      (ea.toNat + 4 ≤ s.params.memCapacity →
        ∃ t, exec (.lw rt rs imm) s = .next t ∧
          WroteRegister rt (BitVec.ofNat 32 (b 0 * 2 ^ 24 + b 1 * 2 ^ 16 + b 2 * 2 ^ 8 + b 3)) s t) ∧
        (s.params.memCapacity < ea.toNat + 4 →
          ∃ t, exec (.lw rt rs imm) s = .next t ∧ TookFault (.memoryOutOfBounds ea) 4 s t)

/-- sb (opcode 0x28) stores bits 7:0 and sw (opcode 0x2B) the four bytes of x[rt], the most significant at the lowest
address, at the effective address when the whole access is in bounds: exactly those bytes of Memory change, no
register changes, pc + 4; otherwise they take MemoryOutOfBounds of the address (code 4) and no byte is written. The
example words of the rules decode to them. Alignment is the decision D10 of the spec, the sign extension of the
immediate and the wrap and bounds check of the address D5 and D12; precision, the Fault frame and its code are D17 and
D18. -/
def Obligations.StoreByteAndWordBytes : Prop :=
  ∀ (rt rs : RegNum) (imm : Half) (s : State),
    let ea := s.effectiveAddress rs imm
    let v := s.reg rt
    ((encode (.sb rt rs imm)).extractLsb' 26 6 = 0b101000#6 ∧ (encode (.sw rt rs imm)).extractLsb' 26 6 = 0b101011#6 ∧
      decodeWord 0xA0220000 = .instr (.sb 2 1 0) ∧ decodeWord 0xAC220008 = .instr (.sw 2 1 8)) ∧
      (ea.toNat < s.params.memCapacity →
        ∃ t, exec (.sb rt rs imm) s = .next t ∧ StoredBytes ea.toNat [BitVec.ofNat 8 v.toNat] s t) ∧
        (s.params.memCapacity ≤ ea.toNat →
          ∃ t, exec (.sb rt rs imm) s = .next t ∧ TookFault (.memoryOutOfBounds ea) 4 s t) ∧
          (ea.toNat + 4 ≤ s.params.memCapacity →
            ∃ t, exec (.sw rt rs imm) s = .next t ∧
              StoredBytes ea.toNat
                [BitVec.ofNat 8 (v.toNat / 2 ^ 24), BitVec.ofNat 8 (v.toNat / 2 ^ 16), BitVec.ofNat 8 (v.toNat / 2 ^ 8),
                  BitVec.ofNat 8 v.toNat] s t) ∧
            (s.params.memCapacity < ea.toNat + 4 →
              ∃ t, exec (.sw rt rs imm) s = .next t ∧ TookFault (.memoryOutOfBounds ea) 4 s t)

/-- When both bytes at the effective address are in bounds, sh stores bits 15:8 there and bits 7:0 one above: exactly
those two bytes of Memory change, no register changes, pc + 4; otherwise it takes MemoryOutOfBounds of the address
(code 4) and neither byte is written. Alignment, byte order and bounds check are the decisions D10, D11 and D12 of the
spec, the sign extension of the immediate D5; precision, the Fault frame and its code are D17 and D18. -/
def Obligations.StoreHalfwordBytes : Prop :=
  ∀ (rt rs : RegNum) (imm : Half) (s : State),
    let ea := s.effectiveAddress rs imm
    let v := (s.reg rt).toNat
    (ea.toNat + 2 ≤ s.params.memCapacity →
        ∃ t, exec (.sh rt rs imm) s = .next t ∧
          StoredBytes ea.toNat [BitVec.ofNat 8 (v / 2 ^ 8), BitVec.ofNat 8 v] s t) ∧
      (s.params.memCapacity < ea.toNat + 2 →
        ∃ t, exec (.sh rt rs imm) s = .next t ∧ TookFault (.memoryOutOfBounds ea) 4 s t)

/-- If sw of register rt at an in-bounds address is followed by lw into r (not register 0) from the same effective
address, r holds the stored value. If lb or lbu into r (not register 0) is followed by sb of r at any in-bounds
address, the byte stored is the byte loaded; the same for lh or lhu and sh with two bytes. These laws are derived in
the spec from its load and store rules. -/
def Obligations.StoreThenLoadGivesTheValueBack : Prop :=
  ∀ (s t u : State) (r rt rs base : RegNum) (imm disp : Half), r ≠ 0 →
    let ea := (s.effectiveAddress rs imm).toNat
    let ea2 := (t.effectiveAddress base disp).toNat
    (ea + 4 ≤ s.params.memCapacity → exec (.sw rt rs imm) s = .next t → t.effectiveAddress base disp = s.effectiveAddress rs imm →
        exec (.lw r base disp) t = .next u → u.reg r = s.reg rt) ∧
      (ea < s.params.memCapacity → exec (.lb r rs imm) s = .next t ∨ exec (.lbu r rs imm) s = .next t →
          ea2 < s.params.memCapacity → exec (.sb r base disp) t = .next u →
            Memory.byte u.mem ea2 = Memory.byte s.mem ea) ∧
        (ea + 2 ≤ s.params.memCapacity → exec (.lh r rs imm) s = .next t ∨ exec (.lhu r rs imm) s = .next t →
          ea2 + 2 ≤ s.params.memCapacity → exec (.sh r base disp) t = .next u →
            Memory.byte u.mem ea2 = Memory.byte s.mem ea ∧ Memory.byte u.mem (ea2 + 1) = Memory.byte s.mem (ea + 1))

/-- When TRAP_TABLE gives the code the class Halt, trap completes by ending the program: halted is set, outcome Halted, TM
in Idle, and pc, every register, HI, LO and Memory are as before. That Halt is a class of the table is the decision
D20 of the spec, the halt condition D19; phase and lastOutcome are the fields of the model of log 5 and log 12. -/
def Obligations.HaltTrapEndsTheProgram : Prop :=
  ∀ (code : BitVec 8) (s : State), s.params.trapClass code = .halt →
    ∃ t, exec (.trap code) s = .next t ∧ EndedHalted s t

/-- When TRAP_TABLE gives the code the class Sync, trap completes with one output event HostEffect(code), pc + 4, and no
register, HI, LO, byte of Memory, status bit or anything else changed. That it writes no state is the decision D21 of
the spec. -/
def Obligations.SyncTrapOnlyEmitsItsEvent : Prop :=
  ∀ (code : BitVec 8) (s : State), s.params.trapClass code = .sync →
    ∃ t, exec (.trap code) s = .next t ∧ t.outputs = s.outputs ++ [.hostEffect code] ∧ t.pc = s.pc + 4 ∧
      SameRegisters s t ∧ t.hi = s.hi ∧ t.lo = s.lo ∧ SameMemory s t ∧ SameControl s t

/-- When TRAP_TABLE gives the code the class Motion, trap completes: the request, computed from the registers before the
trap, is the one of the table for a constant row, and for a register-dependent row its axes are a non-empty subset of
AXES whenever AXES is not empty; suspend_reason is MotionPending, pc is pc + 4, the outcome is Suspended(request), no
register, HI, LO or byte of Memory changes and halted is as before; the TM is in Moving with the session of the
request (active, driving, debounce 0), and the output is reset_encoder then set_speed for each axis of the request, in
some order of the axes. How the session starts is the decision D32 of the spec; the form of a row and the free request
of a register-dependent one are log 3, the order of the axes is log 8, phase and lastOutcome are the fields of the
model of log 5 and log 12. -/
def Obligations.MotionTrapSuspendsAndStartsTheSession : Prop :=
  ∀ (code : BitVec 8) (rule : MotionRule) (s : State), s.params.trapClass code = .motion rule →
    ∃ (t : State) (order : List Axis),
      let req := motionRequest s.params code rule s.regs
      (∀ row, rule = .fixed row → req = row) ∧
        (rule = .computed → s.params.axes ≠ [] → LegalAxes s.params req.axes) ∧
      exec (.trap code) s = .next t ∧ t.suspend = .motionPending ∧ t.pc = s.pc + 4 ∧
        t.lastOutcome = some (.suspended req) ∧ t.phase = .atLoop ∧ t.halted = s.halted ∧
          SameRegisters s t ∧ t.hi = s.hi ∧ t.lo = s.lo ∧ SameMemory s t ∧ SameInterface s t ∧
            t.tmState = .moving ∧
              t.motion =
                { active := true, driving := true, axes := req.axes, target := req.target, speed := req.speed,
                  debounce := 0 } ∧
                order.Perm req.axes ∧
                  t.outputs = s.outputs ++ order.flatMap fun a => [.resetEncoder a, .setSpeed a req.speed]

/-- When TRAP_TABLE gives the code the class Unassigned, trap takes the fault UnknownTrap(code) (code 5): no register, HI,
LO or byte of Memory changes, pc stays at the trap, halted is set, the Fault frame goes out and the TM is in Idle.
Precision, the Fault frame and its code are the decisions D17 and D18 of the spec. -/
def Obligations.UnassignedTrapFaults : Prop :=
  ∀ (code : BitVec 8) (s : State), s.params.trapClass code = .unassigned →
    ∃ t, exec (.trap code) s = .next t ∧ TookFault (.unknownTrap code) 5 s t

/-- With the default parameters, code 0 is Halt, 1 is Sync, 16 is Motion with the constant request (all axes, target 60,
speed 1), and each of the other 253 codes is Unassigned. The table is the decision D20 of the spec; the two axes are a
choice of the model (log 2). -/
def Obligations.DefaultTrapTableClasses : Prop :=
  Params.default.trapClass 0x00 = .halt ∧ Params.default.trapClass 0x01 = .sync ∧
    Params.default.trapClass 0x10 =
      .motion (.fixed { axes := Params.default.axes, target := 60, speed := 1 }) ∧
      ∀ code : BitVec 8, code ≠ 0x00 → code ≠ 0x01 → code ≠ 0x10 → Params.default.trapClass code = .unassigned

/-- No instruction is refused and none stops the machine: for every instruction and every state exec answers a next state
(the five faults of the spec are next states), and in it the environment, the load session and the parameters are as
before. That the faults of the spec are next states is the reading of log 4. -/
def Obligations.EveryInstructionAnswersANextState : Prop :=
  ∀ (i : Instr) (s : State), ∃ t, exec i s = .next t ∧ SameInterface s t

/-- If executing an instruction changes halted, suspend_reason, the TM state, the run or the motion session, the
instruction is div or divu with a zero divisor, a load or store out of bounds, or a trap whose class is not Sync. The
spec derives from its list of faults that the other instructions raise nothing. -/
def Obligations.OnlyTheListedInstructionsEndARun : Prop :=
  ∀ (i : Instr) (s t : State), exec i s = .next t → ¬ SameControl s t →
    (∃ rs rt, (i = .div rs rt ∨ i = .divu rs rt) ∧ s.reg rt = 0) ∨
      (∃ (rt rs : RegNum) (imm : Half) (n : Nat),
        s.params.memCapacity < (s.effectiveAddress rs imm).toNat + n ∧
          (n = 1 ∧ (i = .lb rt rs imm ∨ i = .lbu rt rs imm ∨ i = .sb rt rs imm) ∨
            n = 2 ∧ (i = .lh rt rs imm ∨ i = .lhu rt rs imm ∨ i = .sh rt rs imm) ∨
              n = 4 ∧ (i = .lw rt rs imm ∨ i = .sw rt rs imm))) ∨
        ∃ code, i = .trap code ∧ s.params.trapClass code ≠ .sync

/-- From State.reset the first step gives the power-on state with tm_state Idle and one DriverReinit event: halted is
still 1, Memory is all zero, and no tick or frame has been consumed. The power-on values are the decision D24 of the
spec; the fields of the model itself are those of log 2, 5, 6, 7, 9, 10, 11 and 12. -/
def Obligations.PowerOnRunsTheResettingBody : Prop :=
  step State.reset = .next { State.reset with tmState := .idle, outputs := [.driverReinit] }

/-- Between two steps with an "RS" frame pending (and no tick), in any ticked state: the step runs the Resetting body: one
DriverReinit event, every byte of Memory 0, registers, HI, LO, pc 0, halted 1, suspend_reason None, load session 0, no
session, no external event, TM in Idle, no outbound frame; pending_tick is as before. A second "RS" frame then changes
nothing but the output events. What the body clears is the decision D24 of the spec. The second frame is the one that
rx_frame still holds: that a consumed frame stays there is a choice of the model (log 10). -/
def Obligations.ResetFrameClearsTheCore : Prop :=
  ∀ s : State, s.inputs = [] → s.phase = .atLoop →
    s.tmState = .idle ∨ s.tmState = .executing ∨ s.tmState = .moving ∨ s.tmState = .settling →
    s.pendingTick = false → s.pendingFrame = true → (parseFrame s.rxFrame).code = (0x52, 0x53) →
    ∃ t, step s = .next t ∧ t.outputs = s.outputs ++ [.driverReinit] ∧
      (∀ a, Memory.byte t.mem a = 0) ∧ (∀ r, t.reg r = 0) ∧ t.hi = 0 ∧ t.lo = 0 ∧ t.pc = 0 ∧ t.halted = true ∧
        t.suspend = .none ∧ t.totSize = 0 ∧ t.bytesIn = 0 ∧ t.motion.active = false ∧ t.motion.driving = false ∧
          t.motion.debounce = 0 ∧ t.extEvent = false ∧ t.tmState = .idle ∧ t.pendingFrame = false ∧
            t.pendingTick = s.pendingTick ∧ t.params = s.params ∧
              step { t with pendingFrame := true } = .next { t with outputs := t.outputs ++ [.driverReinit] }

/-- Between two steps with an "RD" frame pending (and no tick), in any ticked state, let the declared size be
payload[SIZE_OFF_HI] * 256 + payload[SIZE_OFF_LO]. If it is at most MEM_CAPACITY, the step sets tot_size to it,
bytes_in to 0 and sends AckSize with it; if it is greater, the step sets both to 0 and sends Overflow with the
rejected size. In both cases the TM is in Idle and the InterpreterState, Memory and the session are as before.
Offsets, rejection and payloads are the decisions D28, D29 and D31 of the spec; that rx_frame keeps the consumed frame
is a choice of the model (log 10). -/
def Obligations.SizeFrameIsAcceptedOrRejected : Prop :=
  ∀ s : State, s.inputs = [] → s.phase = .atLoop →
    s.tmState = .idle ∨ s.tmState = .executing ∨ s.tmState = .moving ∨ s.tmState = .settling →
    s.pendingTick = false → s.pendingFrame = true →
    (parseFrame s.rxFrame).code = (0x52, 0x44) →
      let byte := fun k : Nat => ((parseFrame s.rxFrame).payload.getD k 0).toNat
      let size := byte s.params.sizeOffHi * 256 + byte s.params.sizeOffLo
      let data : List Byte := [BitVec.ofNat 8 (size / 256), BitVec.ofNat 8 size]
      (size ≤ s.params.memCapacity →
        step s = .next
          { s with
            pendingFrame := false
            tmState := .idle
            totSize := BitVec.ofNat 16 size
            bytesIn := 0
            outputs := s.outputs ++ [.frame .ackSize (buildFrame s.params.tags.ackSize data)] }) ∧
        (s.params.memCapacity < size →
          step s = .next
            { s with
              pendingFrame := false
              tmState := .idle
              totSize := 0
              bytesIn := 0
              outputs := s.outputs ++ [.frame .overflow (buildFrame s.params.tags.overflow data)] })

/-- Between two steps with a "PK" frame pending (and no tick), in any ticked state, with bytes_in <= tot_size and n =
min(18, tot_size - bytes_in): the first n payload bytes stand in Memory from bytes_in on and no other byte of Memory
changes, bytes_in has advanced by n, AckPacket carries it; if it equals tot_size the InterpreterState is fresh
(registers, HI, LO, pc 0, halted 0, suspend_reason None) and the TM is in Executing, else the InterpreterState is as
before and the TM in Idle; the session, tot_size, pending_tick, the external event, the parameters, rx_frame, the
schedule, the encoder counts, the counter of the free choices and the last outcome are as before. Count, payload and
fresh values are the decisions D30, D31 and D23 of the spec; that rx_frame keeps the consumed frame is a choice of the
model (log 10). -/
def Obligations.ProgramFrameCopiesAndStarts : Prop :=
  ∀ s : State, s.inputs = [] → s.phase = .atLoop →
    s.tmState = .idle ∨ s.tmState = .executing ∨ s.tmState = .moving ∨ s.tmState = .settling →
    s.pendingTick = false → s.pendingFrame = true →
    (parseFrame s.rxFrame).code = (0x50, 0x4B) → s.bytesIn.toNat ≤ s.totSize.toNat →
      let n := min 18 (s.totSize.toNat - s.bytesIn.toNat)
      let data := (parseFrame s.rxFrame).payload
      let total := s.bytesIn.toNat + n
      ∃ t, step s = .next t ∧
        (∀ k, k < n → Memory.byte t.mem (s.bytesIn.toNat + k) = data.getD k 0) ∧
          (∀ a, a < s.bytesIn.toNat ∨ total ≤ a → Memory.byte t.mem a = Memory.byte s.mem a) ∧
            t.bytesIn.toNat = total ∧ t.totSize = s.totSize ∧ t.motion = s.motion ∧ t.pendingFrame = false ∧
              t.pendingTick = s.pendingTick ∧ t.extEvent = s.extEvent ∧ t.params = s.params ∧ t.phase = .atLoop ∧
                t.rxFrame = s.rxFrame ∧ t.inputs = s.inputs ∧ t.encoders = s.encoders ∧ t.choices = s.choices ∧
                t.lastOutcome = s.lastOutcome ∧
                t.outputs = s.outputs ++
                    [.frame .ackPacket
                      (buildFrame s.params.tags.ackPacket [BitVec.ofNat 8 (total / 256), BitVec.ofNat 8 total])] ∧
                  if total = s.totSize.toNat then
                    t.tmState = .executing ∧ (∀ r, t.reg r = 0) ∧ t.hi = 0 ∧ t.lo = 0 ∧ t.pc = 0 ∧
                      t.halted = false ∧ t.suspend = .none
                  else
                    t.tmState = .idle ∧ SameRegisters s t ∧ t.hi = s.hi ∧ t.lo = s.lo ∧ t.pc = s.pc ∧
                      t.halted = s.halted ∧ t.suspend = s.suspend

/-- Between two steps with a frame pending (and no tick) whose code is none of "RD", "PK", "RS": the step consumes the
frame and sends the Diag frame with the two bytes of the code; tm_state and every other piece of state are unchanged,
in each ticked state. The payload of the frame is the decision D31 of the spec; that rx_frame keeps the consumed frame
is a choice of the model (log 10). -/
def Obligations.UnknownCommandIsEchoedOnly : Prop :=
  ∀ s : State, s.inputs = [] → s.phase = .atLoop →
    s.tmState = .idle ∨ s.tmState = .executing ∨ s.tmState = .moving ∨ s.tmState = .settling →
    s.pendingTick = false → s.pendingFrame = true →
    (parseFrame s.rxFrame).code ≠ (0x52, 0x44) → (parseFrame s.rxFrame).code ≠ (0x50, 0x4B) →
      (parseFrame s.rxFrame).code ≠ (0x52, 0x53) →
        step s = .next
          { s with
            pendingFrame := false
            outputs := s.outputs ++
              [.frame .diag (buildFrame s.params.tags.diag [s.rxFrame[0], s.rxFrame[1]])] }

/-- For a 2-byte tag and at most 18 data bytes the built frame is the tag, the data and zeros; parsing any frame gives its
first two bytes as the code and the other 18 as the payload, so parsing a built frame gives the tag and the padded
data. -/
def Obligations.BuildPadsAndParseSplits : Prop :=
  (∀ (tag : Byte × Byte) (data : List Byte), data.length ≤ 18 →
      (buildFrame tag data).toList = tag.1 :: tag.2 :: (data ++ List.replicate (18 - data.length) 0) ∧
        parseFrame (buildFrame tag data) = { code := tag, payload := data ++ List.replicate (18 - data.length) 0 }) ∧
    ∀ f : Frame,
      f.toList = (parseFrame f).code.1 :: (parseFrame f).code.2 :: (parseFrame f).payload ∧
        (parseFrame f).payload.length = 18

/-- In Idle with a tick pending and no frame: the step polls the background; with an external event pending it clears it
and goes to Executing, otherwise nothing else changes. The clearing is the decision D34 of the spec. -/
def Obligations.IdleTickTakesTheExternalEvent : Prop :=
  ∀ s : State, s.inputs = [] → s.phase = .atLoop → s.pendingTick = true → s.pendingFrame = false → s.tmState = .idle →
    step s = .next
      { s with
        pendingTick := false
        outputs := s.outputs ++ [.backgroundPoll]
        extEvent := false
        tmState := if s.extEvent then .executing else .idle }

/-- In Executing with a tick pending and no frame: the step polls the background; if halted is 1 the outcome is Halted and
the TM goes to Idle with nothing else changed; otherwise a run begins with no instruction step made and suspend_reason
None. The halted case and the stale suspension are the decisions D17 and D34 of the spec. That the tick step only
begins the run, whose instruction steps are model steps of their own, is a choice of the model (log 5: R4 and R212 run
it inside the tick step); lastOutcome is the field of the model of log 12. -/
def Obligations.ExecutingTickRunsOrReturnsHalted : Prop :=
  ∀ s : State, s.inputs = [] → s.phase = .atLoop → s.pendingTick = true → s.pendingFrame = false → s.tmState = .executing →
    step s = .next
      (if s.halted then
        { s with
          pendingTick := false
          outputs := s.outputs ++ [.backgroundPoll]
          lastOutcome := some .halted
          tmState := .idle }
      else
        { s with
          pendingTick := false
          outputs := s.outputs ++ [.backgroundPoll]
          suspend := .none
          phase := .inRun 0 })

/-- In Moving with a tick pending and no frame: if every axis of the session has an unsigned count at or above the target,
the step stops each axis (set_speed 0, in some order), clears ms_driving and goes to Settling; otherwise it only polls
the background. The InterpreterState, Memory and the rest of the session are as before. The comparison is the decision
D32 of the spec; the order of the axes is log 8, the reading of a count log 9. -/
def Obligations.MovingTickStopsOnlyAtTheTarget : Prop :=
  ∀ s : State, s.inputs = [] → s.phase = .atLoop → s.pendingTick = true → s.pendingFrame = false → s.tmState = .moving →
    ((∀ a ∈ s.motion.axes, s.motion.target.toNat ≤ (s.encoderCount a).toNat) →
        ∃ (t : State) (order : List Axis), step s = .next t ∧ order.Perm s.motion.axes ∧
          t.outputs = s.outputs ++ (.backgroundPoll :: order.map fun a => .setSpeed a 0) ∧
            t.tmState = .settling ∧ t.motion = { s.motion with driving := false } ∧ SameProgram s t ∧
              t.halted = s.halted ∧ t.suspend = s.suspend ∧ t.pendingTick = false ∧ t.phase = .atLoop) ∧
      ((∃ a ∈ s.motion.axes, (s.encoderCount a).toNat < s.motion.target.toNat) →
        step s = .next { s with pendingTick := false, outputs := s.outputs ++ [.backgroundPoll] })

/-- From Settling with ms_debounce 0 between steps and no flag pending: while k of at most 4 ticks are consumed the TM
stays in Settling with ms_debounce = k and the InterpreterState as it was; the fifth tick clears ms_debounce, destroys
the session, sets suspend_reason to None and goes to Executing with registers, HI, LO, pc, halted and Memory as they
were. The exact count is the decision D33 of the spec; the schedule by which the ticks arrive is the device of the
model of log 6. -/
def Obligations.FiveSettlingTicksResume : Prop :=
  ∀ s : State, s.phase = .atLoop → s.pendingTick = false → s.pendingFrame = false → s.tmState = .settling →
    s.motion.debounce = 0 →
    let ticks := fun k : Nat => (List.replicate k [Input.tick, Input.quiet]).flatten
    (∀ k, k ≤ 4 →
        ∃ t, runSteps (2 * k) { s with inputs := ticks k } = .next t ∧ t.tmState = .settling ∧
          t.motion = { s.motion with debounce := BitVec.ofNat 8 k } ∧ SameProgram s t ∧ t.halted = s.halted ∧
            t.suspend = s.suspend) ∧
      ∃ t, runSteps 10 { s with inputs := ticks 5 } = .next t ∧ t.tmState = .executing ∧
        t.motion = { s.motion with active := false } ∧ t.suspend = .none ∧ SameProgram s t ∧ t.halted = s.halted

/-- Whatever the core is doing, a step whose schedule begins with a tick, an external event, encoder counts, or a frame
while none is pending, sets the flag (with the frame received) or the counts, removes the entry, and changes nothing
else; a tick or event that is already pending merges. A frame that arrives while one is pending is refused: this is
the decision D39 of the spec (log 13). The schedule and the encoder counts in State are devices of the model (log 6
and log 9). -/
def Obligations.ArrivalsOnlySetTheirFlag : Prop :=
  ∀ (s : State) (rest : List Input) (f : Frame) (counts : List (Axis × Word)),
    step { s with inputs := .tick :: rest } = .next { s with inputs := rest, pendingTick := true } ∧
      step { s with inputs := .external :: rest } = .next { s with inputs := rest, extEvent := true } ∧
        step { s with inputs := .encoders counts :: rest } = .next { s with inputs := rest, encoders := counts } ∧
          (s.pendingFrame = false →
            step { s with inputs := .frame f :: rest } =
              .next { s with inputs := rest, pendingFrame := true, rxFrame := f }) ∧
            (s.pendingFrame = true → step { s with inputs := .frame f :: rest } = .refused .frameOverrun)

/-- Between two steps in a ticked state with both flags set, the step takes one of the two, by a free choice, and leaves
the other pending: it is the frame step of that state, with pending_tick still set, or the tick step of that state,
with pending_frame and the frame still there. A core with neither flag set waits unchanged. That either may come first
is the decision D26 of the spec; the counter of the choices taken, which advances by one, is a device of the model
(log 7), and that waiting is a step which answers the same state is its reading of R205 (log 14). -/
def Obligations.BothPendingTakesOneAndKeepsTheOther : Prop :=
  ∀ s : State, s.inputs = [] → s.phase = .atLoop →
    s.tmState = .idle ∨ s.tmState = .executing ∨ s.tmState = .moving ∨ s.tmState = .settling →
    (s.pendingTick = true → s.pendingFrame = true →
        ∃ t, step s = .next t ∧
          (t.pendingTick = true ∧ t.pendingFrame = false ∧ t = { s with choices := s.choices + 1 }.frameStep ∨
            t.pendingTick = false ∧ t.pendingFrame = true ∧ t.rxFrame = s.rxFrame ∧
              t = { s with choices := s.choices + 1 }.tickStep)) ∧
      (s.pendingTick = false → s.pendingFrame = false → step s = .next s)

/-- In Moving or Settling between steps, whatever arrives and whatever is pending: a step that answers a next state and
does not consume a "PK" or "RS" frame (a pending one is still pending after it) leaves the registers, HI, LO, pc,
halted and Memory as they were and starts no run. The spec derives that run and suspend are mutually exclusive. The
schedule of arrivals is the device of the model of log 6, the order of the two pending flags the free choice of log 7. -/
def Obligations.ProgramIsFrozenWhileMoving : Prop :=
  ∀ s t : State, s.phase = .atLoop → s.tmState = .moving ∨ s.tmState = .settling →
    step s = .next t →
    ¬ (s.pendingFrame = true ∧ t.pendingFrame = false ∧
        ((parseFrame s.rxFrame).code = (0x50, 0x4B) ∨ (parseFrame s.rxFrame).code = (0x52, 0x53))) →
    SameProgram s t ∧ t.halted = s.halted ∧ t.phase = .atLoop

/-- From every state that meets Inv, a step that answers a next state gives a state that meets Inv: Memory keeps its
canonical form and lies below MEM_CAPACITY, register 0 is 0, bytes_in <= tot_size <= MEM_CAPACITY, a run goes on only
in Executing with halted 0, no suspension and within the budget, no transient state persists, Moving and Settling have
an active session and a suspended interpreter, the debounce counter stays at or below the threshold, a session has
legal axes. -/
def Obligations.StepKeepsTheInvariant : Prop :=
  ∀ s t : State, Inv s → step s = .next t → Inv t

/-- The power-on state meets Inv. It rests on the default parameters of log 2. -/
def Obligations.ResetMeetsTheInvariant : Prop :=
  Inv State.reset

/-- From every state that meets Inv and in which a session is active exactly in Moving and Settling and the interpreter
suspended exactly then, a step that answers a next state keeps this, provided the host keeps duty H1 in the state
stepped from (no "RD" or "PK" frame there while the TM is in Executing, Moving or Settling); so no step of a run is
made with an active session. The spec derives this property from its transitions under H1, the decision D27. -/
def Obligations.RunAndMotionStayExclusive : Prop :=
  ∀ s t : State, Inv s → RunMotionExclusive s → HostKeepsH1 s → step s = .next t →
    RunMotionExclusive t ∧ (∀ n, t.phase = .inRun n → t.motion.active = false ∧ t.suspend = .none)

/-- The power-on state has no active session and is not suspended, and it is in neither Moving nor Settling; and host duty
H1 holds in it. -/
def Obligations.ResetIsRunMotionExclusive : Prop :=
  RunMotionExclusive State.reset ∧ HostKeepsH1 State.reset

/-- From Idle between steps with no flag pending, for every image of 1 <= L <= min(65535, MEM_CAPACITY) bytes sent as one
"RD" frame and ceil(L / 18) "PK" frames, each consumed before the next arrives: after the last frame step bytes_in =
tot_size = L, byte k of Memory is byte k of the image for every k < L, every byte above is as it was, the
InterpreterState is fresh and the TM is in Executing. The spec derives this property of its source from its rules. The
schedule by which the frames arrive is the device of the model of log 6. -/
def Obligations.LoadProtocolPlacesTheImage : Prop :=
  ∀ (s : State) (image : List Byte), s.phase = .atLoop → s.tmState = .idle → s.pendingTick = false →
    s.pendingFrame = false → s.params.sizeOffHi ≠ s.params.sizeOffLo → 1 ≤ image.length → image.length ≤ 65535 →
    image.length ≤ s.params.memCapacity →
    ∃ t,
      runSteps (2 + 2 * programFrameCount image.length)
          { s with inputs := loadSchedule s.params image } = .next t ∧
        t.bytesIn.toNat = image.length ∧ t.totSize.toNat = image.length ∧
          (∀ (k : Nat) (h : k < image.length), Memory.byte t.mem k = image[k]) ∧
            (∀ a, image.length ≤ a → Memory.byte t.mem a = Memory.byte s.mem a) ∧
              (∀ r, t.reg r = 0) ∧ t.hi = 0 ∧ t.lo = 0 ∧ t.pc = 0 ∧ t.halted = false ∧ t.suspend = .none ∧
                t.tmState = .executing ∧ t.phase = .atLoop ∧ t.inputs = []

/-- Whatever instruction completes: if HI has changed it is mult, multu, div, divu or mthi, and if LO has changed it is
mult, multu, div, divu or mtlo. mult, multu, and div and divu that do not fault, write both registers: what HI and LO
held before leaves no trace. mthi writes HI and mtlo writes LO; mfhi reads HI and mflo reads LO. Every other
instruction does the same whatever HI and LO hold: with other values in them it completes too, and the next states
differ in HI and LO at most. -/
def Obligations.HiLoAreTouchedByTheirInstructionsOnly : Prop :=
  (∀ (i : Instr) (s t : State), exec i s = .next t →
      (t.hi ≠ s.hi →
          (∃ rs rt, i = .mult rs rt ∨ i = .multu rs rt ∨ i = .div rs rt ∨ i = .divu rs rt) ∨ ∃ rs, i = .mthi rs) ∧
        (t.lo ≠ s.lo →
          (∃ rs rt, i = .mult rs rt ∨ i = .multu rs rt ∨ i = .div rs rt ∨ i = .divu rs rt) ∨ ∃ rs, i = .mtlo rs)) ∧
    (∀ (rs rt : RegNum) (hi lo : Word) (s : State) (i : Instr),
        i = .mult rs rt ∨ i = .multu rs rt ∨ (i = .div rs rt ∨ i = .divu rs rt) ∧ s.reg rt ≠ 0 →
          ∃ t, exec i s = .next t ∧ exec i { s with hi := hi, lo := lo } = .next t) ∧
      (∀ (r : RegNum) (s : State),
          (∃ t, exec (.mthi r) s = .next t ∧ t.hi = s.reg r) ∧ (∃ t, exec (.mtlo r) s = .next t ∧ t.lo = s.reg r) ∧
            (∃ t, exec (.mfhi r) s = .next t ∧ t.reg r = if r = 0 then 0 else s.hi) ∧
              ∃ t, exec (.mflo r) s = .next t ∧ t.reg r = if r = 0 then 0 else s.lo) ∧
        ∀ (i : Instr) (hi lo : Word) (s : State), (∀ r, i ≠ .mfhi r ∧ i ≠ .mflo r) →
          ∃ t u, exec i s = .next t ∧ exec i { s with hi := hi, lo := lo } = .next u ∧
            { u with hi := t.hi, lo := t.lo } = t
end

