-- ==== Sys2Proof/Laws/Encoding.lean ====
section
/-!
SUPPORT. The fields of the words the encoder builds, and the bytes of a word: what the round trip of decode and encode is
assembled from.
-/
namespace Sys2Proof

/-! ### The fields of a Register-format word -/

section Register

variable (rs rt rd : RegNum) (shamt : BitVec 5) (funct : BitVec 6)

@[simp] theorem opcodeOf_registerWord : opcodeOf (registerWord rs rt rd shamt funct) = 0#6 := by
  apply BitVec.eq_of_getLsbD_eq
  intro i hi
  simp only [opcodeOf, registerWord, BitVec.getLsbD_extractLsb', BitVec.getLsbD_append]
  interval_cases i <;> simp

@[simp] theorem rsOf_registerWord : rsOf (registerWord rs rt rd shamt funct) = rs := by
  apply BitVec.eq_of_getLsbD_eq
  intro i hi
  simp only [rsOf, registerWord, BitVec.getLsbD_extractLsb', BitVec.getLsbD_append]
  interval_cases i <;> simp

@[simp] theorem rtOf_registerWord : rtOf (registerWord rs rt rd shamt funct) = rt := by
  apply BitVec.eq_of_getLsbD_eq
  intro i hi
  simp only [rtOf, registerWord, BitVec.getLsbD_extractLsb', BitVec.getLsbD_append]
  interval_cases i <;> simp

@[simp] theorem rdOf_registerWord : rdOf (registerWord rs rt rd shamt funct) = rd := by
  apply BitVec.eq_of_getLsbD_eq
  intro i hi
  simp only [rdOf, registerWord, BitVec.getLsbD_extractLsb', BitVec.getLsbD_append]
  interval_cases i <;> simp

@[simp] theorem shamtOf_registerWord : shamtOf (registerWord rs rt rd shamt funct) = shamt := by
  apply BitVec.eq_of_getLsbD_eq
  intro i hi
  simp only [shamtOf, registerWord, BitVec.getLsbD_extractLsb', BitVec.getLsbD_append]
  interval_cases i <;> simp

@[simp] theorem functOf_registerWord : functOf (registerWord rs rt rd shamt funct) = funct := by
  apply BitVec.eq_of_getLsbD_eq
  intro i hi
  simp only [functOf, registerWord, BitVec.getLsbD_extractLsb', BitVec.getLsbD_append]
  interval_cases i <;> simp

end Register

/-! ### The fields of an Immediate-format word -/

section Immediate

variable (opcode : BitVec 6) (rs rt : RegNum) (imm : Half)

@[simp] theorem opcodeOf_immediateWord : opcodeOf (immediateWord opcode rs rt imm) = opcode := by
  apply BitVec.eq_of_getLsbD_eq
  intro i hi
  simp only [opcodeOf, immediateWord, BitVec.getLsbD_extractLsb', BitVec.getLsbD_append]
  interval_cases i <;> simp

@[simp] theorem rsOf_immediateWord : rsOf (immediateWord opcode rs rt imm) = rs := by
  apply BitVec.eq_of_getLsbD_eq
  intro i hi
  simp only [rsOf, immediateWord, BitVec.getLsbD_extractLsb', BitVec.getLsbD_append]
  interval_cases i <;> simp

@[simp] theorem rtOf_immediateWord : rtOf (immediateWord opcode rs rt imm) = rt := by
  apply BitVec.eq_of_getLsbD_eq
  intro i hi
  simp only [rtOf, immediateWord, BitVec.getLsbD_extractLsb', BitVec.getLsbD_append]
  interval_cases i <;> simp

@[simp] theorem immOf_immediateWord : immOf (immediateWord opcode rs rt imm) = imm := by
  apply BitVec.eq_of_getLsbD_eq
  intro i hi
  simp only [immOf, immediateWord, BitVec.getLsbD_extractLsb', BitVec.getLsbD_append]
  interval_cases i <;> simp

end Immediate

/-! ### The fields of a Jump-format word -/

section Jump

variable (opcode : BitVec 6) (field26 : BitVec 26) (code : BitVec 8)

@[simp] theorem opcodeOf_jumpWord : opcodeOf (jumpWord opcode field26) = opcode := by
  apply BitVec.eq_of_getLsbD_eq
  intro i hi
  simp only [opcodeOf, jumpWord, BitVec.getLsbD_extractLsb', BitVec.getLsbD_append]
  interval_cases i <;> simp

@[simp] theorem targetOf_jumpWord : targetOf (jumpWord opcode field26) = field26 := by
  apply BitVec.eq_of_getLsbD_eq
  intro i hi
  simp only [targetOf, jumpWord, BitVec.getLsbD_extractLsb', BitVec.getLsbD_append]
  interval_cases i <;> simp

@[simp] theorem trapCodeOf_jumpWord : trapCodeOf (jumpWord opcode (0#18 ++ code)) = code := by
  apply BitVec.eq_of_getLsbD_eq
  intro i hi
  simp only [trapCodeOf, jumpWord, BitVec.getLsbD_extractLsb', BitVec.getLsbD_append]
  interval_cases i <;> simp

end Jump

/-! ### The bytes of a word -/

theorem bytesOfWord_length (w : Word) : (bytesOfWord w).length = 4 := rfl

/-- The four bytes of a word, put together again, are the word (R44). -/
theorem wordOfBytes_bytesOfWord (w : Word) :
    wordOfBytes (w.extractLsb' 24 8) (w.extractLsb' 16 8) (w.extractLsb' 8 8) (w.extractLsb' 0 8) = w := by
  apply BitVec.eq_of_getLsbD_eq
  intro i hi
  simp only [wordOfBytes, BitVec.getLsbD_extractLsb', BitVec.getLsbD_append]
  interval_cases i <;> simp

/-- The value of a big-endian word (R44). -/
theorem wordOfBytes_toNat (b0 b1 b2 b3 : Byte) :
    (wordOfBytes b0 b1 b2 b3).toNat = b0.toNat * 2 ^ 24 + b1.toNat * 2 ^ 16 + b2.toNat * 2 ^ 8 + b3.toNat := by
  have h1 := b1.isLt
  have h2 := b2.isLt
  have h3 := b3.isLt
  unfold wordOfBytes
  rw [BitVec.toNat_append, BitVec.toNat_append, BitVec.toNat_append, ← Nat.shiftLeft_add_eq_or_of_lt h1,
    ← Nat.shiftLeft_add_eq_or_of_lt h2, ← Nat.shiftLeft_add_eq_or_of_lt h3]
  simp only [Nat.shiftLeft_eq]
  omega

/-- Decoding four bytes is decoding their word. -/
theorem decodeBytes_cons (b0 b1 b2 b3 : Byte) (rest : List Byte) (i : Instr)
    (h : decodeWord (wordOfBytes b0 b1 b2 b3) = .instr i) : decodeBytes (b0 :: b1 :: b2 :: b3 :: rest) = .instr i rest := by
  simp only [decodeBytes, h]

end Sys2Proof
end

