-- ==== Sys2Proof/Laws/Memory.lean ====
section
/-!
SUPPORT. The laws of Memory: a read after a write at the same and at another address, the same for a sequence of bytes, the
canonical form and the bound on the listed addresses kept by every write, and that equal reads mean equal memories.
-/
namespace Sys2Proof.Machine

open Sys2Proof

@[simp] theorem Memory.byte_nil (a : Nat) : Memory.byte [] a = 0 := rfl

theorem Memory.byte_cons (x : Nat) (v : Byte) (m : Memory) (a : Nat) :
    Memory.byte ((x, v) :: m) a = if x < a then Memory.byte m a else if x = a then v else 0 := rfl

theorem Memory.cell_zero (a : Nat) : Memory.cell a 0 = [] := rfl

theorem Memory.cell_of_ne {a : Nat} {b : Byte} (h : b ≠ 0) : Memory.cell a b = [(a, b)] := if_neg h

/-! ### One byte -/

/-- Reading the listing of one byte in front of cells that do not read at or below its address. -/
theorem Memory.byte_cell_append (a : Nat) (b : Byte) (m : Memory) (c : Nat) (h : ∀ d, d ≤ a → Memory.byte m d = 0) :
    Memory.byte (Memory.cell a b ++ m) c = if c = a then b else Memory.byte m c := by
  by_cases hb : b = 0
  · subst hb
    rcases eq_or_ne c a with rfl | hc
    · rw [cell_zero, List.nil_append, if_pos rfl, h c le_rfl]
    · rw [cell_zero, List.nil_append, if_neg hc]
  · rw [cell_of_ne hb, List.cons_append, List.nil_append, byte_cons]
    rcases lt_trichotomy c a with hc | rfl | hc
    · rw [if_neg (by omega), if_neg (by omega), if_neg (by omega), h c hc.le]
    · rw [if_neg (lt_irrefl c), if_pos rfl, if_pos rfl]
    · rw [if_pos hc, if_neg (by omega)]

theorem Memory.byte_dropWhile_le (m : Memory) (a c : Nat) (h : a < c) :
    Memory.byte (m.dropWhile fun d => decide (d.1 ≤ a)) c = Memory.byte m c := by
  induction m with
  | nil => rfl
  | cons d m ih =>
    obtain ⟨x, v⟩ := d
    by_cases hx : x ≤ a
    · simp [hx, ih, byte_cons, Nat.lt_of_le_of_lt hx h]
    · simp [hx]

theorem Memory.byte_dropWhile_below (m : Memory) (a d : Nat) (h : d ≤ a) :
    Memory.byte (m.dropWhile fun c => decide (c.1 ≤ a)) d = 0 := by
  induction m with
  | nil => rfl
  | cons c m ih =>
    obtain ⟨x, v⟩ := c
    by_cases hx : x ≤ a
    · simpa [List.dropWhile_cons, hx] using ih
    · have h1 : ¬ x < d := by omega
      have h2 : x ≠ d := by omega
      simp [hx, byte_cons, h1, h2]

/-- What every read gives after a write of one byte, in any memory. -/
theorem Memory.byte_writeByte (m : Memory) (a : Nat) (b : Byte) (c : Nat) :
    Memory.byte (Memory.writeByte m a b) c = if c = a then b else Memory.byte m c := by
  induction m with
  | nil => simpa [writeByte] using byte_cell_append a b [] c (fun _ _ => rfl)
  | cons d m ih =>
    obtain ⟨x, v⟩ := d
    by_cases hx : x < a
    · by_cases hc : x < c
      · simp [writeByte, hx, byte_cons, hc, ih]
      · have h1 : c ≠ a := by omega
        simp [writeByte, hx, byte_cons, hc, h1]
    · simp only [writeByte, hx, if_false]
      rw [byte_cell_append _ _ _ _ (fun d hd => byte_dropWhile_below _ _ _ hd)]
      by_cases hc : c = a
      · simp [hc]
      · rcases lt_or_gt_of_ne hc with hlt | hgt
        · have h1 : ¬ x < c := by omega
          have h2 : x ≠ c := by omega
          simp [hc, byte_dropWhile_below _ _ _ hlt.le, byte_cons, h1, h2]
        · simp [hc, byte_dropWhile_le _ _ _ hgt]

@[simp] theorem Memory.byte_writeByte_self (m : Memory) (a : Nat) (b : Byte) :
    Memory.byte (Memory.writeByte m a b) a = b := by simp [byte_writeByte]

theorem Memory.byte_writeByte_other (m : Memory) (a c : Nat) (b : Byte) (h : c ≠ a) :
    Memory.byte (Memory.writeByte m a b) c = Memory.byte m c := by simp [byte_writeByte, h]

/-! ### A sequence of bytes -/

/-- What every read gives after a write of bytes at consecutive addresses, in any memory. -/
theorem Memory.byte_writeBytes (m : Memory) (a : Nat) (bs : List Byte) (c : Nat) :
    Memory.byte (Memory.writeBytes m a bs) c =
      if a ≤ c ∧ c < a + bs.length then bs.getD (c - a) 0 else Memory.byte m c := by
  induction bs generalizing m a with
  | nil => rw [writeBytes, List.length_nil, if_neg (by omega)]
  | cons b bs ih =>
    rw [writeBytes, ih, byte_writeByte]
    rcases Nat.lt_trichotomy c a with h | rfl | h
    · have h1 : ¬ (a + 1 ≤ c) := by omega
      have h2 : ¬ (a ≤ c) := by omega
      have h3 : c ≠ a := by omega
      simp [h1, h2, h3]
    · simp
    · have h1 : a + 1 ≤ c := h
      have h2 : a ≤ c := by omega
      have h3 : c ≠ a := by omega
      have h4 : c - a = (c - (a + 1)) + 1 := by omega
      have h5 : c < a + 1 + bs.length ↔ c < a + (bs.length + 1) := by omega
      simp [h1, h2, h3, h4, h5]

/-- A written byte reads back. -/
theorem Memory.byte_writeBytes_inside (m : Memory) (a : Nat) (bs : List Byte) (k : Nat) (h : k < bs.length) :
    Memory.byte (Memory.writeBytes m a bs) (a + k) = bs[k] := by
  have h1 : a ≤ a + k ∧ a + k < a + bs.length := by omega
  rw [byte_writeBytes, if_pos h1]
  simp [h]

/-- A byte outside the written ones reads as before. -/
theorem Memory.byte_writeBytes_outside (m : Memory) (a : Nat) (bs : List Byte) (c : Nat)
    (h : c < a ∨ a + bs.length ≤ c) : Memory.byte (Memory.writeBytes m a bs) c = Memory.byte m c := by
  rw [byte_writeBytes, if_neg (by omega)]

/-! ### The canonical form -/

/-- The canonical form as a fact about the list: addresses rise from `lo` on and no zero byte is listed. -/
theorem Memory.wfFrom_cons (lo x : Nat) (v : Byte) (m : Memory) :
    Memory.wfFrom lo ((x, v) :: m) = true ↔ lo ≤ x ∧ v ≠ 0 ∧ Memory.wfFrom (x + 1) m = true := by
  simp [wfFrom, Bool.and_eq_true, and_assoc]

theorem Memory.wfFrom_mono {lo lo' : Nat} {m : Memory} (h : lo' ≤ lo) (hw : Memory.wfFrom lo m = true) :
    Memory.wfFrom lo' m = true := by
  cases m with
  | nil => rfl
  | cons c m =>
    obtain ⟨x, v⟩ := c
    rw [wfFrom_cons] at hw ⊢
    exact ⟨h.trans hw.1, hw.2⟩

theorem Memory.wfFrom_dropWhile {lo : Nat} {m : Memory} (a : Nat) (hw : Memory.wfFrom lo m = true) :
    Memory.wfFrom (a + 1) (m.dropWhile fun c => decide (c.1 ≤ a)) = true := by
  induction m generalizing lo with
  | nil => rfl
  | cons c m ih =>
    obtain ⟨x, v⟩ := c
    rw [wfFrom_cons] at hw
    by_cases hx : x ≤ a
    · simpa [List.dropWhile_cons, hx] using ih hw.2.2
    · have : a + 1 ≤ x := by omega
      simpa [List.dropWhile_cons, hx] using (wfFrom_cons _ _ _ _).2 ⟨this, hw.2⟩

theorem Memory.wfFrom_cell_append {lo a : Nat} {b : Byte} {m : Memory} (h : lo ≤ a)
    (hw : Memory.wfFrom (a + 1) m = true) : Memory.wfFrom lo (Memory.cell a b ++ m) = true := by
  by_cases hb : b = 0
  · subst hb
    exact wfFrom_mono (by omega) hw
  · rw [cell_of_ne hb]
    exact (wfFrom_cons _ _ _ _).2 ⟨h, hb, hw⟩

/-- A write at or above `lo` keeps the form from `lo` on. -/
theorem Memory.wfFrom_writeByte {lo a : Nat} {m : Memory} (b : Byte) (h : lo ≤ a) (hw : Memory.wfFrom lo m = true) :
    Memory.wfFrom lo (Memory.writeByte m a b) = true := by
  induction m generalizing lo with
  | nil => simpa [writeByte] using wfFrom_cell_append (m := []) h rfl
  | cons c m ih =>
    obtain ⟨x, v⟩ := c
    by_cases hx : x < a
    · rw [writeByte, if_pos hx, wfFrom_cons]
      rw [wfFrom_cons] at hw
      exact ⟨hw.1, hw.2.1, ih hx hw.2.2⟩
    · rw [writeByte, if_neg hx]
      exact wfFrom_cell_append h (wfFrom_dropWhile a hw)

/-- A write of one byte keeps the canonical form. -/
theorem Memory.wf_writeByte {m : Memory} (a : Nat) (b : Byte) (hw : Memory.wf m = true) :
    Memory.wf (Memory.writeByte m a b) = true := wfFrom_writeByte b (Nat.zero_le a) hw

/-- A write of bytes keeps the canonical form. -/
theorem Memory.wf_writeBytes {m : Memory} (a : Nat) (bs : List Byte) (hw : Memory.wf m = true) :
    Memory.wf (Memory.writeBytes m a bs) = true := by
  induction bs generalizing m a with
  | nil => exact hw
  | cons b bs ih => exact ih (a + 1) (wf_writeByte a b hw)

/-- The empty memory (power-on and reset) has the canonical form. -/
@[simp] theorem Memory.wf_nil : Memory.wf [] = true := rfl

theorem Memory.byte_below {lo a : Nat} {m : Memory} (h : a < lo) (hw : Memory.wfFrom lo m = true) :
    Memory.byte m a = 0 := by
  cases m with
  | nil => rfl
  | cons c m =>
    obtain ⟨x, v⟩ := c
    have := ((wfFrom_cons _ _ _ _).1 hw).1
    rw [byte_cons, if_neg (by omega), if_neg (by omega)]

/-- Two memories in canonical form that read the same at every address are equal. -/
theorem Memory.eq_of_byte_eq {lo : Nat} {m m' : Memory} (hw : Memory.wfFrom lo m = true)
    (hw' : Memory.wfFrom lo m' = true) (h : ∀ a, Memory.byte m a = Memory.byte m' a) : m = m' := by
  induction m generalizing lo m' with
  | nil =>
    cases m' with
    | nil => rfl
    | cons c m' =>
      obtain ⟨x, v⟩ := c
      have := h x
      simp [byte_cons] at this
      exact absurd this.symm ((wfFrom_cons _ _ _ _).1 hw').2.1
  | cons c m ih =>
    obtain ⟨x, v⟩ := c
    obtain ⟨-, hv, hm⟩ := (wfFrom_cons _ _ _ _).1 hw
    cases m' with
    | nil =>
      have := h x
      simp [byte_cons] at this
      exact absurd this hv
    | cons c' m' =>
      obtain ⟨x', v'⟩ := c'
      obtain ⟨-, hv', hm'⟩ := (wfFrom_cons _ _ _ _).1 hw'
      have hx : x = x' := by
        rcases lt_trichotomy x x' with hlt | heq | hgt
        · have := h x
          rw [byte_cons, byte_cons, if_neg (lt_irrefl x), if_pos rfl, if_neg (by omega), if_neg (by omega)] at this
          exact absurd this hv
        · exact heq
        · have := h x'
          rw [byte_cons, byte_cons, if_neg (lt_irrefl x'), if_pos rfl, if_neg (by omega), if_neg (by omega)] at this
          exact absurd this.symm hv'
      subst hx
      have hvv : v = v' := by simpa [byte_cons] using h x
      subst hvv
      rw [ih hm hm' fun a => ?_]
      by_cases ha : x < a
      · simpa [byte_cons, ha] using h a
      · rw [byte_below (by omega) hm, byte_below (by omega) hm']

/-! ### The bound on the listed addresses -/

theorem Memory.mem_cell {a : Nat} {b : Byte} {c : Host.Cell} (h : c ∈ Memory.cell a b) : c.1 = a := by
  unfold cell at h
  split at h
  · cases h
  · rw [List.mem_singleton.1 h]

/-- The addresses listed after a write of one byte are those listed before and the written one. -/
theorem Memory.mem_writeByte {m : Memory} {a : Nat} {b : Byte} {c : Host.Cell} (h : c ∈ Memory.writeByte m a b) :
    c ∈ m ∨ c.1 = a := by
  induction m with
  | nil => exact .inr (mem_cell h)
  | cons d m ih =>
    obtain ⟨x, v⟩ := d
    by_cases hx : x < a
    · rw [writeByte, if_pos hx, List.mem_cons] at h
      rcases h with rfl | h
      · exact .inl (List.mem_cons_self ..)
      · exact (ih h).imp_left (List.mem_cons_of_mem _)
    · rw [writeByte, if_neg hx, List.mem_append] at h
      rcases h with h | h
      · exact .inr (mem_cell h)
      · exact .inl (List.dropWhile_sublist _ |>.subset h)

/-- The addresses listed after a write of bytes are those listed before and the written ones. -/
theorem Memory.mem_writeBytes {m : Memory} {a : Nat} {bs : List Byte} {c : Host.Cell}
    (h : c ∈ Memory.writeBytes m a bs) : c ∈ m ∨ a ≤ c.1 ∧ c.1 < a + bs.length := by
  induction bs generalizing m a with
  | nil => exact .inl h
  | cons b bs ih =>
    rcases ih h with h | h
    · rcases mem_writeByte h with h | h
      · exact .inl h
      · exact .inr ⟨h.ge, by simp only [List.length_cons]; omega⟩
    · exact .inr ⟨by omega, by simp only [List.length_cons]; omega⟩

/-- A write of bytes below a bound keeps the listed addresses below the bound. -/
theorem Memory.writeBytes_bounded {m : Memory} {a bound : Nat} {bs : List Byte} (hm : ∀ c ∈ m, c.1 < bound)
    (ha : a + bs.length ≤ bound) : ∀ c ∈ Memory.writeBytes m a bs, c.1 < bound := by
  intro c hc
  rcases mem_writeBytes hc with h | h
  · exact hm c h
  · omega

/-! ### Words -/

theorem Memory.half_eq (m : Memory) (a : Nat) : Memory.half m a = Memory.byte m a ++ Memory.byte m (a + 1) := rfl

theorem Memory.word_eq (m : Memory) (a : Nat) :
    Memory.word m a =
      wordOfBytes (Memory.byte m a) (Memory.byte m (a + 1)) (Memory.byte m (a + 2)) (Memory.byte m (a + 3)) := rfl

end Sys2Proof.Machine
end

