-- ==== Sys2Proof/Laws/State.lean ====
section
/-!
SUPPORT. One lemma per field per update of the state, each true by rfl, so that no later proof unfolds a record update; and
what reads of a register and of a fetched word give after an update that does not touch them.
-/
namespace Sys2Proof.Machine

open Sys2Proof

variable (s : State)


/-! ### setReg -/

@[simp] theorem State.setReg_regs (r : RegNum) (v : Word) :
    (s.setReg r v).regs = if r = 0 then s.regs else s.regs.set r.toNat v r.isLt := rfl
@[simp] theorem State.setReg_hi (r : RegNum) (v : Word) : (s.setReg r v).hi = s.hi := rfl
@[simp] theorem State.setReg_lo (r : RegNum) (v : Word) : (s.setReg r v).lo = s.lo := rfl
@[simp] theorem State.setReg_pc (r : RegNum) (v : Word) : (s.setReg r v).pc = s.pc := rfl
@[simp] theorem State.setReg_halted (r : RegNum) (v : Word) : (s.setReg r v).halted = s.halted := rfl
@[simp] theorem State.setReg_suspend (r : RegNum) (v : Word) : (s.setReg r v).suspend = s.suspend := rfl
@[simp] theorem State.setReg_mem (r : RegNum) (v : Word) : (s.setReg r v).mem = s.mem := rfl
@[simp] theorem State.setReg_tmState (r : RegNum) (v : Word) : (s.setReg r v).tmState = s.tmState := rfl
@[simp] theorem State.setReg_totSize (r : RegNum) (v : Word) : (s.setReg r v).totSize = s.totSize := rfl
@[simp] theorem State.setReg_bytesIn (r : RegNum) (v : Word) : (s.setReg r v).bytesIn = s.bytesIn := rfl
@[simp] theorem State.setReg_motion (r : RegNum) (v : Word) : (s.setReg r v).motion = s.motion := rfl
@[simp] theorem State.setReg_pendingTick (r : RegNum) (v : Word) : (s.setReg r v).pendingTick = s.pendingTick := rfl
@[simp] theorem State.setReg_pendingFrame (r : RegNum) (v : Word) : (s.setReg r v).pendingFrame = s.pendingFrame := rfl
@[simp] theorem State.setReg_rxFrame (r : RegNum) (v : Word) : (s.setReg r v).rxFrame = s.rxFrame := rfl
@[simp] theorem State.setReg_extEvent (r : RegNum) (v : Word) : (s.setReg r v).extEvent = s.extEvent := rfl
@[simp] theorem State.setReg_params (r : RegNum) (v : Word) : (s.setReg r v).params = s.params := rfl
@[simp] theorem State.setReg_phase (r : RegNum) (v : Word) : (s.setReg r v).phase = s.phase := rfl
@[simp] theorem State.setReg_inputs (r : RegNum) (v : Word) : (s.setReg r v).inputs = s.inputs := rfl
@[simp] theorem State.setReg_encoders (r : RegNum) (v : Word) : (s.setReg r v).encoders = s.encoders := rfl
@[simp] theorem State.setReg_choices (r : RegNum) (v : Word) : (s.setReg r v).choices = s.choices := rfl
@[simp] theorem State.setReg_outputs (r : RegNum) (v : Word) : (s.setReg r v).outputs = s.outputs := rfl
@[simp] theorem State.setReg_lastOutcome (r : RegNum) (v : Word) : (s.setReg r v).lastOutcome = s.lastOutcome := rfl

/-! ### consumeFrame -/

@[simp] theorem State.consumeFrame_regs : (s.consumeFrame).regs = s.regs := rfl
@[simp] theorem State.consumeFrame_hi : (s.consumeFrame).hi = s.hi := rfl
@[simp] theorem State.consumeFrame_lo : (s.consumeFrame).lo = s.lo := rfl
@[simp] theorem State.consumeFrame_pc : (s.consumeFrame).pc = s.pc := rfl
@[simp] theorem State.consumeFrame_halted : (s.consumeFrame).halted = s.halted := rfl
@[simp] theorem State.consumeFrame_suspend : (s.consumeFrame).suspend = s.suspend := rfl
@[simp] theorem State.consumeFrame_mem : (s.consumeFrame).mem = s.mem := rfl
@[simp] theorem State.consumeFrame_tmState : (s.consumeFrame).tmState = s.tmState := rfl
@[simp] theorem State.consumeFrame_totSize : (s.consumeFrame).totSize = s.totSize := rfl
@[simp] theorem State.consumeFrame_bytesIn : (s.consumeFrame).bytesIn = s.bytesIn := rfl
@[simp] theorem State.consumeFrame_motion : (s.consumeFrame).motion = s.motion := rfl
@[simp] theorem State.consumeFrame_pendingTick : (s.consumeFrame).pendingTick = s.pendingTick := rfl
@[simp] theorem State.consumeFrame_pendingFrame : (s.consumeFrame).pendingFrame = false := rfl
@[simp] theorem State.consumeFrame_rxFrame : (s.consumeFrame).rxFrame = s.rxFrame := rfl
@[simp] theorem State.consumeFrame_extEvent : (s.consumeFrame).extEvent = s.extEvent := rfl
@[simp] theorem State.consumeFrame_params : (s.consumeFrame).params = s.params := rfl
@[simp] theorem State.consumeFrame_phase : (s.consumeFrame).phase = s.phase := rfl
@[simp] theorem State.consumeFrame_inputs : (s.consumeFrame).inputs = s.inputs := rfl
@[simp] theorem State.consumeFrame_encoders : (s.consumeFrame).encoders = s.encoders := rfl
@[simp] theorem State.consumeFrame_choices : (s.consumeFrame).choices = s.choices := rfl
@[simp] theorem State.consumeFrame_outputs : (s.consumeFrame).outputs = s.outputs := rfl
@[simp] theorem State.consumeFrame_lastOutcome : (s.consumeFrame).lastOutcome = s.lastOutcome := rfl
@[simp] theorem State.consumeFrame_reg (i : RegNum) : (s.consumeFrame).reg i = s.reg i := rfl

/-! ### consumeTick -/

@[simp] theorem State.consumeTick_regs : (s.consumeTick).regs = s.regs := rfl
@[simp] theorem State.consumeTick_hi : (s.consumeTick).hi = s.hi := rfl
@[simp] theorem State.consumeTick_lo : (s.consumeTick).lo = s.lo := rfl
@[simp] theorem State.consumeTick_pc : (s.consumeTick).pc = s.pc := rfl
@[simp] theorem State.consumeTick_halted : (s.consumeTick).halted = s.halted := rfl
@[simp] theorem State.consumeTick_suspend : (s.consumeTick).suspend = s.suspend := rfl
@[simp] theorem State.consumeTick_mem : (s.consumeTick).mem = s.mem := rfl
@[simp] theorem State.consumeTick_tmState : (s.consumeTick).tmState = s.tmState := rfl
@[simp] theorem State.consumeTick_totSize : (s.consumeTick).totSize = s.totSize := rfl
@[simp] theorem State.consumeTick_bytesIn : (s.consumeTick).bytesIn = s.bytesIn := rfl
@[simp] theorem State.consumeTick_motion : (s.consumeTick).motion = s.motion := rfl
@[simp] theorem State.consumeTick_pendingTick : (s.consumeTick).pendingTick = false := rfl
@[simp] theorem State.consumeTick_pendingFrame : (s.consumeTick).pendingFrame = s.pendingFrame := rfl
@[simp] theorem State.consumeTick_rxFrame : (s.consumeTick).rxFrame = s.rxFrame := rfl
@[simp] theorem State.consumeTick_extEvent : (s.consumeTick).extEvent = s.extEvent := rfl
@[simp] theorem State.consumeTick_params : (s.consumeTick).params = s.params := rfl
@[simp] theorem State.consumeTick_phase : (s.consumeTick).phase = s.phase := rfl
@[simp] theorem State.consumeTick_inputs : (s.consumeTick).inputs = s.inputs := rfl
@[simp] theorem State.consumeTick_encoders : (s.consumeTick).encoders = s.encoders := rfl
@[simp] theorem State.consumeTick_choices : (s.consumeTick).choices = s.choices := rfl
@[simp] theorem State.consumeTick_outputs : (s.consumeTick).outputs = s.outputs := rfl
@[simp] theorem State.consumeTick_lastOutcome : (s.consumeTick).lastOutcome = s.lastOutcome := rfl
@[simp] theorem State.consumeTick_reg (i : RegNum) : (s.consumeTick).reg i = s.reg i := rfl

/-! ### raiseTick -/

@[simp] theorem State.raiseTick_regs : (s.raiseTick).regs = s.regs := rfl
@[simp] theorem State.raiseTick_hi : (s.raiseTick).hi = s.hi := rfl
@[simp] theorem State.raiseTick_lo : (s.raiseTick).lo = s.lo := rfl
@[simp] theorem State.raiseTick_pc : (s.raiseTick).pc = s.pc := rfl
@[simp] theorem State.raiseTick_halted : (s.raiseTick).halted = s.halted := rfl
@[simp] theorem State.raiseTick_suspend : (s.raiseTick).suspend = s.suspend := rfl
@[simp] theorem State.raiseTick_mem : (s.raiseTick).mem = s.mem := rfl
@[simp] theorem State.raiseTick_tmState : (s.raiseTick).tmState = s.tmState := rfl
@[simp] theorem State.raiseTick_totSize : (s.raiseTick).totSize = s.totSize := rfl
@[simp] theorem State.raiseTick_bytesIn : (s.raiseTick).bytesIn = s.bytesIn := rfl
@[simp] theorem State.raiseTick_motion : (s.raiseTick).motion = s.motion := rfl
@[simp] theorem State.raiseTick_pendingTick : (s.raiseTick).pendingTick = true := rfl
@[simp] theorem State.raiseTick_pendingFrame : (s.raiseTick).pendingFrame = s.pendingFrame := rfl
@[simp] theorem State.raiseTick_rxFrame : (s.raiseTick).rxFrame = s.rxFrame := rfl
@[simp] theorem State.raiseTick_extEvent : (s.raiseTick).extEvent = s.extEvent := rfl
@[simp] theorem State.raiseTick_params : (s.raiseTick).params = s.params := rfl
@[simp] theorem State.raiseTick_phase : (s.raiseTick).phase = s.phase := rfl
@[simp] theorem State.raiseTick_inputs : (s.raiseTick).inputs = s.inputs := rfl
@[simp] theorem State.raiseTick_encoders : (s.raiseTick).encoders = s.encoders := rfl
@[simp] theorem State.raiseTick_choices : (s.raiseTick).choices = s.choices := rfl
@[simp] theorem State.raiseTick_outputs : (s.raiseTick).outputs = s.outputs := rfl
@[simp] theorem State.raiseTick_lastOutcome : (s.raiseTick).lastOutcome = s.lastOutcome := rfl
@[simp] theorem State.raiseTick_reg (i : RegNum) : (s.raiseTick).reg i = s.reg i := rfl

/-! ### raiseFrame -/

@[simp] theorem State.raiseFrame_regs (f : Frame) : (s.raiseFrame f).regs = s.regs := rfl
@[simp] theorem State.raiseFrame_hi (f : Frame) : (s.raiseFrame f).hi = s.hi := rfl
@[simp] theorem State.raiseFrame_lo (f : Frame) : (s.raiseFrame f).lo = s.lo := rfl
@[simp] theorem State.raiseFrame_pc (f : Frame) : (s.raiseFrame f).pc = s.pc := rfl
@[simp] theorem State.raiseFrame_halted (f : Frame) : (s.raiseFrame f).halted = s.halted := rfl
@[simp] theorem State.raiseFrame_suspend (f : Frame) : (s.raiseFrame f).suspend = s.suspend := rfl
@[simp] theorem State.raiseFrame_mem (f : Frame) : (s.raiseFrame f).mem = s.mem := rfl
@[simp] theorem State.raiseFrame_tmState (f : Frame) : (s.raiseFrame f).tmState = s.tmState := rfl
@[simp] theorem State.raiseFrame_totSize (f : Frame) : (s.raiseFrame f).totSize = s.totSize := rfl
@[simp] theorem State.raiseFrame_bytesIn (f : Frame) : (s.raiseFrame f).bytesIn = s.bytesIn := rfl
@[simp] theorem State.raiseFrame_motion (f : Frame) : (s.raiseFrame f).motion = s.motion := rfl
@[simp] theorem State.raiseFrame_pendingTick (f : Frame) : (s.raiseFrame f).pendingTick = s.pendingTick := rfl
@[simp] theorem State.raiseFrame_pendingFrame (f : Frame) : (s.raiseFrame f).pendingFrame = true := rfl
@[simp] theorem State.raiseFrame_rxFrame (f : Frame) : (s.raiseFrame f).rxFrame = f := rfl
@[simp] theorem State.raiseFrame_extEvent (f : Frame) : (s.raiseFrame f).extEvent = s.extEvent := rfl
@[simp] theorem State.raiseFrame_params (f : Frame) : (s.raiseFrame f).params = s.params := rfl
@[simp] theorem State.raiseFrame_phase (f : Frame) : (s.raiseFrame f).phase = s.phase := rfl
@[simp] theorem State.raiseFrame_inputs (f : Frame) : (s.raiseFrame f).inputs = s.inputs := rfl
@[simp] theorem State.raiseFrame_encoders (f : Frame) : (s.raiseFrame f).encoders = s.encoders := rfl
@[simp] theorem State.raiseFrame_choices (f : Frame) : (s.raiseFrame f).choices = s.choices := rfl
@[simp] theorem State.raiseFrame_outputs (f : Frame) : (s.raiseFrame f).outputs = s.outputs := rfl
@[simp] theorem State.raiseFrame_lastOutcome (f : Frame) : (s.raiseFrame f).lastOutcome = s.lastOutcome := rfl
@[simp] theorem State.raiseFrame_reg (f : Frame) (i : RegNum) : (s.raiseFrame f).reg i = s.reg i := rfl

/-! ### raiseExternal -/

@[simp] theorem State.raiseExternal_regs : (s.raiseExternal).regs = s.regs := rfl
@[simp] theorem State.raiseExternal_hi : (s.raiseExternal).hi = s.hi := rfl
@[simp] theorem State.raiseExternal_lo : (s.raiseExternal).lo = s.lo := rfl
@[simp] theorem State.raiseExternal_pc : (s.raiseExternal).pc = s.pc := rfl
@[simp] theorem State.raiseExternal_halted : (s.raiseExternal).halted = s.halted := rfl
@[simp] theorem State.raiseExternal_suspend : (s.raiseExternal).suspend = s.suspend := rfl
@[simp] theorem State.raiseExternal_mem : (s.raiseExternal).mem = s.mem := rfl
@[simp] theorem State.raiseExternal_tmState : (s.raiseExternal).tmState = s.tmState := rfl
@[simp] theorem State.raiseExternal_totSize : (s.raiseExternal).totSize = s.totSize := rfl
@[simp] theorem State.raiseExternal_bytesIn : (s.raiseExternal).bytesIn = s.bytesIn := rfl
@[simp] theorem State.raiseExternal_motion : (s.raiseExternal).motion = s.motion := rfl
@[simp] theorem State.raiseExternal_pendingTick : (s.raiseExternal).pendingTick = s.pendingTick := rfl
@[simp] theorem State.raiseExternal_pendingFrame : (s.raiseExternal).pendingFrame = s.pendingFrame := rfl
@[simp] theorem State.raiseExternal_rxFrame : (s.raiseExternal).rxFrame = s.rxFrame := rfl
@[simp] theorem State.raiseExternal_extEvent : (s.raiseExternal).extEvent = true := rfl
@[simp] theorem State.raiseExternal_params : (s.raiseExternal).params = s.params := rfl
@[simp] theorem State.raiseExternal_phase : (s.raiseExternal).phase = s.phase := rfl
@[simp] theorem State.raiseExternal_inputs : (s.raiseExternal).inputs = s.inputs := rfl
@[simp] theorem State.raiseExternal_encoders : (s.raiseExternal).encoders = s.encoders := rfl
@[simp] theorem State.raiseExternal_choices : (s.raiseExternal).choices = s.choices := rfl
@[simp] theorem State.raiseExternal_outputs : (s.raiseExternal).outputs = s.outputs := rfl
@[simp] theorem State.raiseExternal_lastOutcome : (s.raiseExternal).lastOutcome = s.lastOutcome := rfl
@[simp] theorem State.raiseExternal_reg (i : RegNum) : (s.raiseExternal).reg i = s.reg i := rfl

/-! ### setEncoders -/

@[simp] theorem State.setEncoders_regs (l : List (Axis × Word)) : (s.setEncoders l).regs = s.regs := rfl
@[simp] theorem State.setEncoders_hi (l : List (Axis × Word)) : (s.setEncoders l).hi = s.hi := rfl
@[simp] theorem State.setEncoders_lo (l : List (Axis × Word)) : (s.setEncoders l).lo = s.lo := rfl
@[simp] theorem State.setEncoders_pc (l : List (Axis × Word)) : (s.setEncoders l).pc = s.pc := rfl
@[simp] theorem State.setEncoders_halted (l : List (Axis × Word)) : (s.setEncoders l).halted = s.halted := rfl
@[simp] theorem State.setEncoders_suspend (l : List (Axis × Word)) : (s.setEncoders l).suspend = s.suspend := rfl
@[simp] theorem State.setEncoders_mem (l : List (Axis × Word)) : (s.setEncoders l).mem = s.mem := rfl
@[simp] theorem State.setEncoders_tmState (l : List (Axis × Word)) : (s.setEncoders l).tmState = s.tmState := rfl
@[simp] theorem State.setEncoders_totSize (l : List (Axis × Word)) : (s.setEncoders l).totSize = s.totSize := rfl
@[simp] theorem State.setEncoders_bytesIn (l : List (Axis × Word)) : (s.setEncoders l).bytesIn = s.bytesIn := rfl
@[simp] theorem State.setEncoders_motion (l : List (Axis × Word)) : (s.setEncoders l).motion = s.motion := rfl
@[simp] theorem State.setEncoders_pendingTick (l : List (Axis × Word)) : (s.setEncoders l).pendingTick = s.pendingTick := rfl
@[simp] theorem State.setEncoders_pendingFrame (l : List (Axis × Word)) :
    (s.setEncoders l).pendingFrame = s.pendingFrame := rfl
@[simp] theorem State.setEncoders_rxFrame (l : List (Axis × Word)) : (s.setEncoders l).rxFrame = s.rxFrame := rfl
@[simp] theorem State.setEncoders_extEvent (l : List (Axis × Word)) : (s.setEncoders l).extEvent = s.extEvent := rfl
@[simp] theorem State.setEncoders_params (l : List (Axis × Word)) : (s.setEncoders l).params = s.params := rfl
@[simp] theorem State.setEncoders_phase (l : List (Axis × Word)) : (s.setEncoders l).phase = s.phase := rfl
@[simp] theorem State.setEncoders_inputs (l : List (Axis × Word)) : (s.setEncoders l).inputs = s.inputs := rfl
@[simp] theorem State.setEncoders_encoders (l : List (Axis × Word)) : (s.setEncoders l).encoders = l := rfl
@[simp] theorem State.setEncoders_choices (l : List (Axis × Word)) : (s.setEncoders l).choices = s.choices := rfl
@[simp] theorem State.setEncoders_outputs (l : List (Axis × Word)) : (s.setEncoders l).outputs = s.outputs := rfl
@[simp] theorem State.setEncoders_lastOutcome (l : List (Axis × Word)) : (s.setEncoders l).lastOutcome = s.lastOutcome := rfl
@[simp] theorem State.setEncoders_reg (l : List (Axis × Word)) (i : RegNum) : (s.setEncoders l).reg i = s.reg i := rfl

/-! ### setInputs -/

@[simp] theorem State.setInputs_regs (l : List Input) : (s.setInputs l).regs = s.regs := rfl
@[simp] theorem State.setInputs_hi (l : List Input) : (s.setInputs l).hi = s.hi := rfl
@[simp] theorem State.setInputs_lo (l : List Input) : (s.setInputs l).lo = s.lo := rfl
@[simp] theorem State.setInputs_pc (l : List Input) : (s.setInputs l).pc = s.pc := rfl
@[simp] theorem State.setInputs_halted (l : List Input) : (s.setInputs l).halted = s.halted := rfl
@[simp] theorem State.setInputs_suspend (l : List Input) : (s.setInputs l).suspend = s.suspend := rfl
@[simp] theorem State.setInputs_mem (l : List Input) : (s.setInputs l).mem = s.mem := rfl
@[simp] theorem State.setInputs_tmState (l : List Input) : (s.setInputs l).tmState = s.tmState := rfl
@[simp] theorem State.setInputs_totSize (l : List Input) : (s.setInputs l).totSize = s.totSize := rfl
@[simp] theorem State.setInputs_bytesIn (l : List Input) : (s.setInputs l).bytesIn = s.bytesIn := rfl
@[simp] theorem State.setInputs_motion (l : List Input) : (s.setInputs l).motion = s.motion := rfl
@[simp] theorem State.setInputs_pendingTick (l : List Input) : (s.setInputs l).pendingTick = s.pendingTick := rfl
@[simp] theorem State.setInputs_pendingFrame (l : List Input) : (s.setInputs l).pendingFrame = s.pendingFrame := rfl
@[simp] theorem State.setInputs_rxFrame (l : List Input) : (s.setInputs l).rxFrame = s.rxFrame := rfl
@[simp] theorem State.setInputs_extEvent (l : List Input) : (s.setInputs l).extEvent = s.extEvent := rfl
@[simp] theorem State.setInputs_params (l : List Input) : (s.setInputs l).params = s.params := rfl
@[simp] theorem State.setInputs_phase (l : List Input) : (s.setInputs l).phase = s.phase := rfl
@[simp] theorem State.setInputs_inputs (l : List Input) : (s.setInputs l).inputs = l := rfl
@[simp] theorem State.setInputs_encoders (l : List Input) : (s.setInputs l).encoders = s.encoders := rfl
@[simp] theorem State.setInputs_choices (l : List Input) : (s.setInputs l).choices = s.choices := rfl
@[simp] theorem State.setInputs_outputs (l : List Input) : (s.setInputs l).outputs = s.outputs := rfl
@[simp] theorem State.setInputs_lastOutcome (l : List Input) : (s.setInputs l).lastOutcome = s.lastOutcome := rfl
@[simp] theorem State.setInputs_reg (l : List Input) (i : RegNum) : (s.setInputs l).reg i = s.reg i := rfl

/-! ### setPhase -/

@[simp] theorem State.setPhase_regs (p : Phase) : (s.setPhase p).regs = s.regs := rfl
@[simp] theorem State.setPhase_hi (p : Phase) : (s.setPhase p).hi = s.hi := rfl
@[simp] theorem State.setPhase_lo (p : Phase) : (s.setPhase p).lo = s.lo := rfl
@[simp] theorem State.setPhase_pc (p : Phase) : (s.setPhase p).pc = s.pc := rfl
@[simp] theorem State.setPhase_halted (p : Phase) : (s.setPhase p).halted = s.halted := rfl
@[simp] theorem State.setPhase_suspend (p : Phase) : (s.setPhase p).suspend = s.suspend := rfl
@[simp] theorem State.setPhase_mem (p : Phase) : (s.setPhase p).mem = s.mem := rfl
@[simp] theorem State.setPhase_tmState (p : Phase) : (s.setPhase p).tmState = s.tmState := rfl
@[simp] theorem State.setPhase_totSize (p : Phase) : (s.setPhase p).totSize = s.totSize := rfl
@[simp] theorem State.setPhase_bytesIn (p : Phase) : (s.setPhase p).bytesIn = s.bytesIn := rfl
@[simp] theorem State.setPhase_motion (p : Phase) : (s.setPhase p).motion = s.motion := rfl
@[simp] theorem State.setPhase_pendingTick (p : Phase) : (s.setPhase p).pendingTick = s.pendingTick := rfl
@[simp] theorem State.setPhase_pendingFrame (p : Phase) : (s.setPhase p).pendingFrame = s.pendingFrame := rfl
@[simp] theorem State.setPhase_rxFrame (p : Phase) : (s.setPhase p).rxFrame = s.rxFrame := rfl
@[simp] theorem State.setPhase_extEvent (p : Phase) : (s.setPhase p).extEvent = s.extEvent := rfl
@[simp] theorem State.setPhase_params (p : Phase) : (s.setPhase p).params = s.params := rfl
@[simp] theorem State.setPhase_phase (p : Phase) : (s.setPhase p).phase = p := rfl
@[simp] theorem State.setPhase_inputs (p : Phase) : (s.setPhase p).inputs = s.inputs := rfl
@[simp] theorem State.setPhase_encoders (p : Phase) : (s.setPhase p).encoders = s.encoders := rfl
@[simp] theorem State.setPhase_choices (p : Phase) : (s.setPhase p).choices = s.choices := rfl
@[simp] theorem State.setPhase_outputs (p : Phase) : (s.setPhase p).outputs = s.outputs := rfl
@[simp] theorem State.setPhase_lastOutcome (p : Phase) : (s.setPhase p).lastOutcome = s.lastOutcome := rfl
@[simp] theorem State.setPhase_reg (p : Phase) (i : RegNum) : (s.setPhase p).reg i = s.reg i := rfl

/-! ### nextChoice -/

@[simp] theorem State.nextChoice_regs : (s.nextChoice).regs = s.regs := rfl
@[simp] theorem State.nextChoice_hi : (s.nextChoice).hi = s.hi := rfl
@[simp] theorem State.nextChoice_lo : (s.nextChoice).lo = s.lo := rfl
@[simp] theorem State.nextChoice_pc : (s.nextChoice).pc = s.pc := rfl
@[simp] theorem State.nextChoice_halted : (s.nextChoice).halted = s.halted := rfl
@[simp] theorem State.nextChoice_suspend : (s.nextChoice).suspend = s.suspend := rfl
@[simp] theorem State.nextChoice_mem : (s.nextChoice).mem = s.mem := rfl
@[simp] theorem State.nextChoice_tmState : (s.nextChoice).tmState = s.tmState := rfl
@[simp] theorem State.nextChoice_totSize : (s.nextChoice).totSize = s.totSize := rfl
@[simp] theorem State.nextChoice_bytesIn : (s.nextChoice).bytesIn = s.bytesIn := rfl
@[simp] theorem State.nextChoice_motion : (s.nextChoice).motion = s.motion := rfl
@[simp] theorem State.nextChoice_pendingTick : (s.nextChoice).pendingTick = s.pendingTick := rfl
@[simp] theorem State.nextChoice_pendingFrame : (s.nextChoice).pendingFrame = s.pendingFrame := rfl
@[simp] theorem State.nextChoice_rxFrame : (s.nextChoice).rxFrame = s.rxFrame := rfl
@[simp] theorem State.nextChoice_extEvent : (s.nextChoice).extEvent = s.extEvent := rfl
@[simp] theorem State.nextChoice_params : (s.nextChoice).params = s.params := rfl
@[simp] theorem State.nextChoice_phase : (s.nextChoice).phase = s.phase := rfl
@[simp] theorem State.nextChoice_inputs : (s.nextChoice).inputs = s.inputs := rfl
@[simp] theorem State.nextChoice_encoders : (s.nextChoice).encoders = s.encoders := rfl
@[simp] theorem State.nextChoice_choices : (s.nextChoice).choices = s.choices + 1 := rfl
@[simp] theorem State.nextChoice_outputs : (s.nextChoice).outputs = s.outputs := rfl
@[simp] theorem State.nextChoice_lastOutcome : (s.nextChoice).lastOutcome = s.lastOutcome := rfl
@[simp] theorem State.nextChoice_reg (i : RegNum) : (s.nextChoice).reg i = s.reg i := rfl

/-! ### setPc -/

@[simp] theorem State.setPc_regs (x : Word) : (s.setPc x).regs = s.regs := rfl
@[simp] theorem State.setPc_hi (x : Word) : (s.setPc x).hi = s.hi := rfl
@[simp] theorem State.setPc_lo (x : Word) : (s.setPc x).lo = s.lo := rfl
@[simp] theorem State.setPc_pc (x : Word) : (s.setPc x).pc = x := rfl
@[simp] theorem State.setPc_halted (x : Word) : (s.setPc x).halted = s.halted := rfl
@[simp] theorem State.setPc_suspend (x : Word) : (s.setPc x).suspend = s.suspend := rfl
@[simp] theorem State.setPc_mem (x : Word) : (s.setPc x).mem = s.mem := rfl
@[simp] theorem State.setPc_tmState (x : Word) : (s.setPc x).tmState = s.tmState := rfl
@[simp] theorem State.setPc_totSize (x : Word) : (s.setPc x).totSize = s.totSize := rfl
@[simp] theorem State.setPc_bytesIn (x : Word) : (s.setPc x).bytesIn = s.bytesIn := rfl
@[simp] theorem State.setPc_motion (x : Word) : (s.setPc x).motion = s.motion := rfl
@[simp] theorem State.setPc_pendingTick (x : Word) : (s.setPc x).pendingTick = s.pendingTick := rfl
@[simp] theorem State.setPc_pendingFrame (x : Word) : (s.setPc x).pendingFrame = s.pendingFrame := rfl
@[simp] theorem State.setPc_rxFrame (x : Word) : (s.setPc x).rxFrame = s.rxFrame := rfl
@[simp] theorem State.setPc_extEvent (x : Word) : (s.setPc x).extEvent = s.extEvent := rfl
@[simp] theorem State.setPc_params (x : Word) : (s.setPc x).params = s.params := rfl
@[simp] theorem State.setPc_phase (x : Word) : (s.setPc x).phase = s.phase := rfl
@[simp] theorem State.setPc_inputs (x : Word) : (s.setPc x).inputs = s.inputs := rfl
@[simp] theorem State.setPc_encoders (x : Word) : (s.setPc x).encoders = s.encoders := rfl
@[simp] theorem State.setPc_choices (x : Word) : (s.setPc x).choices = s.choices := rfl
@[simp] theorem State.setPc_outputs (x : Word) : (s.setPc x).outputs = s.outputs := rfl
@[simp] theorem State.setPc_lastOutcome (x : Word) : (s.setPc x).lastOutcome = s.lastOutcome := rfl
@[simp] theorem State.setPc_reg (x : Word) (i : RegNum) : (s.setPc x).reg i = s.reg i := rfl

/-! ### advance -/

@[simp] theorem State.advance_regs : (s.advance).regs = s.regs := rfl
@[simp] theorem State.advance_hi : (s.advance).hi = s.hi := rfl
@[simp] theorem State.advance_lo : (s.advance).lo = s.lo := rfl
@[simp] theorem State.advance_pc : (s.advance).pc = s.pc + 4 := rfl
@[simp] theorem State.advance_halted : (s.advance).halted = s.halted := rfl
@[simp] theorem State.advance_suspend : (s.advance).suspend = s.suspend := rfl
@[simp] theorem State.advance_mem : (s.advance).mem = s.mem := rfl
@[simp] theorem State.advance_tmState : (s.advance).tmState = s.tmState := rfl
@[simp] theorem State.advance_totSize : (s.advance).totSize = s.totSize := rfl
@[simp] theorem State.advance_bytesIn : (s.advance).bytesIn = s.bytesIn := rfl
@[simp] theorem State.advance_motion : (s.advance).motion = s.motion := rfl
@[simp] theorem State.advance_pendingTick : (s.advance).pendingTick = s.pendingTick := rfl
@[simp] theorem State.advance_pendingFrame : (s.advance).pendingFrame = s.pendingFrame := rfl
@[simp] theorem State.advance_rxFrame : (s.advance).rxFrame = s.rxFrame := rfl
@[simp] theorem State.advance_extEvent : (s.advance).extEvent = s.extEvent := rfl
@[simp] theorem State.advance_params : (s.advance).params = s.params := rfl
@[simp] theorem State.advance_phase : (s.advance).phase = s.phase := rfl
@[simp] theorem State.advance_inputs : (s.advance).inputs = s.inputs := rfl
@[simp] theorem State.advance_encoders : (s.advance).encoders = s.encoders := rfl
@[simp] theorem State.advance_choices : (s.advance).choices = s.choices := rfl
@[simp] theorem State.advance_outputs : (s.advance).outputs = s.outputs := rfl
@[simp] theorem State.advance_lastOutcome : (s.advance).lastOutcome = s.lastOutcome := rfl
@[simp] theorem State.advance_reg (i : RegNum) : (s.advance).reg i = s.reg i := rfl

/-! ### setHi -/

@[simp] theorem State.setHi_regs (v : Word) : (s.setHi v).regs = s.regs := rfl
@[simp] theorem State.setHi_hi (v : Word) : (s.setHi v).hi = v := rfl
@[simp] theorem State.setHi_lo (v : Word) : (s.setHi v).lo = s.lo := rfl
@[simp] theorem State.setHi_pc (v : Word) : (s.setHi v).pc = s.pc := rfl
@[simp] theorem State.setHi_halted (v : Word) : (s.setHi v).halted = s.halted := rfl
@[simp] theorem State.setHi_suspend (v : Word) : (s.setHi v).suspend = s.suspend := rfl
@[simp] theorem State.setHi_mem (v : Word) : (s.setHi v).mem = s.mem := rfl
@[simp] theorem State.setHi_tmState (v : Word) : (s.setHi v).tmState = s.tmState := rfl
@[simp] theorem State.setHi_totSize (v : Word) : (s.setHi v).totSize = s.totSize := rfl
@[simp] theorem State.setHi_bytesIn (v : Word) : (s.setHi v).bytesIn = s.bytesIn := rfl
@[simp] theorem State.setHi_motion (v : Word) : (s.setHi v).motion = s.motion := rfl
@[simp] theorem State.setHi_pendingTick (v : Word) : (s.setHi v).pendingTick = s.pendingTick := rfl
@[simp] theorem State.setHi_pendingFrame (v : Word) : (s.setHi v).pendingFrame = s.pendingFrame := rfl
@[simp] theorem State.setHi_rxFrame (v : Word) : (s.setHi v).rxFrame = s.rxFrame := rfl
@[simp] theorem State.setHi_extEvent (v : Word) : (s.setHi v).extEvent = s.extEvent := rfl
@[simp] theorem State.setHi_params (v : Word) : (s.setHi v).params = s.params := rfl
@[simp] theorem State.setHi_phase (v : Word) : (s.setHi v).phase = s.phase := rfl
@[simp] theorem State.setHi_inputs (v : Word) : (s.setHi v).inputs = s.inputs := rfl
@[simp] theorem State.setHi_encoders (v : Word) : (s.setHi v).encoders = s.encoders := rfl
@[simp] theorem State.setHi_choices (v : Word) : (s.setHi v).choices = s.choices := rfl
@[simp] theorem State.setHi_outputs (v : Word) : (s.setHi v).outputs = s.outputs := rfl
@[simp] theorem State.setHi_lastOutcome (v : Word) : (s.setHi v).lastOutcome = s.lastOutcome := rfl
@[simp] theorem State.setHi_reg (v : Word) (i : RegNum) : (s.setHi v).reg i = s.reg i := rfl

/-! ### setLo -/

@[simp] theorem State.setLo_regs (v : Word) : (s.setLo v).regs = s.regs := rfl
@[simp] theorem State.setLo_hi (v : Word) : (s.setLo v).hi = s.hi := rfl
@[simp] theorem State.setLo_lo (v : Word) : (s.setLo v).lo = v := rfl
@[simp] theorem State.setLo_pc (v : Word) : (s.setLo v).pc = s.pc := rfl
@[simp] theorem State.setLo_halted (v : Word) : (s.setLo v).halted = s.halted := rfl
@[simp] theorem State.setLo_suspend (v : Word) : (s.setLo v).suspend = s.suspend := rfl
@[simp] theorem State.setLo_mem (v : Word) : (s.setLo v).mem = s.mem := rfl
@[simp] theorem State.setLo_tmState (v : Word) : (s.setLo v).tmState = s.tmState := rfl
@[simp] theorem State.setLo_totSize (v : Word) : (s.setLo v).totSize = s.totSize := rfl
@[simp] theorem State.setLo_bytesIn (v : Word) : (s.setLo v).bytesIn = s.bytesIn := rfl
@[simp] theorem State.setLo_motion (v : Word) : (s.setLo v).motion = s.motion := rfl
@[simp] theorem State.setLo_pendingTick (v : Word) : (s.setLo v).pendingTick = s.pendingTick := rfl
@[simp] theorem State.setLo_pendingFrame (v : Word) : (s.setLo v).pendingFrame = s.pendingFrame := rfl
@[simp] theorem State.setLo_rxFrame (v : Word) : (s.setLo v).rxFrame = s.rxFrame := rfl
@[simp] theorem State.setLo_extEvent (v : Word) : (s.setLo v).extEvent = s.extEvent := rfl
@[simp] theorem State.setLo_params (v : Word) : (s.setLo v).params = s.params := rfl
@[simp] theorem State.setLo_phase (v : Word) : (s.setLo v).phase = s.phase := rfl
@[simp] theorem State.setLo_inputs (v : Word) : (s.setLo v).inputs = s.inputs := rfl
@[simp] theorem State.setLo_encoders (v : Word) : (s.setLo v).encoders = s.encoders := rfl
@[simp] theorem State.setLo_choices (v : Word) : (s.setLo v).choices = s.choices := rfl
@[simp] theorem State.setLo_outputs (v : Word) : (s.setLo v).outputs = s.outputs := rfl
@[simp] theorem State.setLo_lastOutcome (v : Word) : (s.setLo v).lastOutcome = s.lastOutcome := rfl
@[simp] theorem State.setLo_reg (v : Word) (i : RegNum) : (s.setLo v).reg i = s.reg i := rfl

/-! ### storeBytes -/

@[simp] theorem State.storeBytes_regs (a : Nat) (bs : List Byte) : (s.storeBytes a bs).regs = s.regs := rfl
@[simp] theorem State.storeBytes_hi (a : Nat) (bs : List Byte) : (s.storeBytes a bs).hi = s.hi := rfl
@[simp] theorem State.storeBytes_lo (a : Nat) (bs : List Byte) : (s.storeBytes a bs).lo = s.lo := rfl
@[simp] theorem State.storeBytes_pc (a : Nat) (bs : List Byte) : (s.storeBytes a bs).pc = s.pc := rfl
@[simp] theorem State.storeBytes_halted (a : Nat) (bs : List Byte) : (s.storeBytes a bs).halted = s.halted := rfl
@[simp] theorem State.storeBytes_suspend (a : Nat) (bs : List Byte) : (s.storeBytes a bs).suspend = s.suspend := rfl
@[simp] theorem State.storeBytes_mem (a : Nat) (bs : List Byte) :
    (s.storeBytes a bs).mem = Memory.writeBytes s.mem a bs := rfl
@[simp] theorem State.storeBytes_tmState (a : Nat) (bs : List Byte) : (s.storeBytes a bs).tmState = s.tmState := rfl
@[simp] theorem State.storeBytes_totSize (a : Nat) (bs : List Byte) : (s.storeBytes a bs).totSize = s.totSize := rfl
@[simp] theorem State.storeBytes_bytesIn (a : Nat) (bs : List Byte) : (s.storeBytes a bs).bytesIn = s.bytesIn := rfl
@[simp] theorem State.storeBytes_motion (a : Nat) (bs : List Byte) : (s.storeBytes a bs).motion = s.motion := rfl
@[simp] theorem State.storeBytes_pendingTick (a : Nat) (bs : List Byte) :
    (s.storeBytes a bs).pendingTick = s.pendingTick := rfl
@[simp] theorem State.storeBytes_pendingFrame (a : Nat) (bs : List Byte) :
    (s.storeBytes a bs).pendingFrame = s.pendingFrame := rfl
@[simp] theorem State.storeBytes_rxFrame (a : Nat) (bs : List Byte) : (s.storeBytes a bs).rxFrame = s.rxFrame := rfl
@[simp] theorem State.storeBytes_extEvent (a : Nat) (bs : List Byte) : (s.storeBytes a bs).extEvent = s.extEvent := rfl
@[simp] theorem State.storeBytes_params (a : Nat) (bs : List Byte) : (s.storeBytes a bs).params = s.params := rfl
@[simp] theorem State.storeBytes_phase (a : Nat) (bs : List Byte) : (s.storeBytes a bs).phase = s.phase := rfl
@[simp] theorem State.storeBytes_inputs (a : Nat) (bs : List Byte) : (s.storeBytes a bs).inputs = s.inputs := rfl
@[simp] theorem State.storeBytes_encoders (a : Nat) (bs : List Byte) : (s.storeBytes a bs).encoders = s.encoders := rfl
@[simp] theorem State.storeBytes_choices (a : Nat) (bs : List Byte) : (s.storeBytes a bs).choices = s.choices := rfl
@[simp] theorem State.storeBytes_outputs (a : Nat) (bs : List Byte) : (s.storeBytes a bs).outputs = s.outputs := rfl
@[simp] theorem State.storeBytes_lastOutcome (a : Nat) (bs : List Byte) :
    (s.storeBytes a bs).lastOutcome = s.lastOutcome := rfl
@[simp] theorem State.storeBytes_reg (a : Nat) (bs : List Byte) (i : RegNum) : (s.storeBytes a bs).reg i = s.reg i := rfl

/-! ### emit -/

@[simp] theorem State.emit_regs (es : List Output) : (s.emit es).regs = s.regs := rfl
@[simp] theorem State.emit_hi (es : List Output) : (s.emit es).hi = s.hi := rfl
@[simp] theorem State.emit_lo (es : List Output) : (s.emit es).lo = s.lo := rfl
@[simp] theorem State.emit_pc (es : List Output) : (s.emit es).pc = s.pc := rfl
@[simp] theorem State.emit_halted (es : List Output) : (s.emit es).halted = s.halted := rfl
@[simp] theorem State.emit_suspend (es : List Output) : (s.emit es).suspend = s.suspend := rfl
@[simp] theorem State.emit_mem (es : List Output) : (s.emit es).mem = s.mem := rfl
@[simp] theorem State.emit_tmState (es : List Output) : (s.emit es).tmState = s.tmState := rfl
@[simp] theorem State.emit_totSize (es : List Output) : (s.emit es).totSize = s.totSize := rfl
@[simp] theorem State.emit_bytesIn (es : List Output) : (s.emit es).bytesIn = s.bytesIn := rfl
@[simp] theorem State.emit_motion (es : List Output) : (s.emit es).motion = s.motion := rfl
@[simp] theorem State.emit_pendingTick (es : List Output) : (s.emit es).pendingTick = s.pendingTick := rfl
@[simp] theorem State.emit_pendingFrame (es : List Output) : (s.emit es).pendingFrame = s.pendingFrame := rfl
@[simp] theorem State.emit_rxFrame (es : List Output) : (s.emit es).rxFrame = s.rxFrame := rfl
@[simp] theorem State.emit_extEvent (es : List Output) : (s.emit es).extEvent = s.extEvent := rfl
@[simp] theorem State.emit_params (es : List Output) : (s.emit es).params = s.params := rfl
@[simp] theorem State.emit_phase (es : List Output) : (s.emit es).phase = s.phase := rfl
@[simp] theorem State.emit_inputs (es : List Output) : (s.emit es).inputs = s.inputs := rfl
@[simp] theorem State.emit_encoders (es : List Output) : (s.emit es).encoders = s.encoders := rfl
@[simp] theorem State.emit_choices (es : List Output) : (s.emit es).choices = s.choices := rfl
@[simp] theorem State.emit_outputs (es : List Output) : (s.emit es).outputs = s.outputs ++ es := rfl
@[simp] theorem State.emit_lastOutcome (es : List Output) : (s.emit es).lastOutcome = s.lastOutcome := rfl
@[simp] theorem State.emit_reg (es : List Output) (i : RegNum) : (s.emit es).reg i = s.reg i := rfl

/-! ### emitFrame -/

@[simp] theorem State.emitFrame_regs (k : FrameKind) (data : List Byte) : (s.emitFrame k data).regs = s.regs := rfl
@[simp] theorem State.emitFrame_hi (k : FrameKind) (data : List Byte) : (s.emitFrame k data).hi = s.hi := rfl
@[simp] theorem State.emitFrame_lo (k : FrameKind) (data : List Byte) : (s.emitFrame k data).lo = s.lo := rfl
@[simp] theorem State.emitFrame_pc (k : FrameKind) (data : List Byte) : (s.emitFrame k data).pc = s.pc := rfl
@[simp] theorem State.emitFrame_halted (k : FrameKind) (data : List Byte) : (s.emitFrame k data).halted = s.halted := rfl
@[simp] theorem State.emitFrame_suspend (k : FrameKind) (data : List Byte) : (s.emitFrame k data).suspend = s.suspend := rfl
@[simp] theorem State.emitFrame_mem (k : FrameKind) (data : List Byte) : (s.emitFrame k data).mem = s.mem := rfl
@[simp] theorem State.emitFrame_tmState (k : FrameKind) (data : List Byte) : (s.emitFrame k data).tmState = s.tmState := rfl
@[simp] theorem State.emitFrame_totSize (k : FrameKind) (data : List Byte) : (s.emitFrame k data).totSize = s.totSize := rfl
@[simp] theorem State.emitFrame_bytesIn (k : FrameKind) (data : List Byte) : (s.emitFrame k data).bytesIn = s.bytesIn := rfl
@[simp] theorem State.emitFrame_motion (k : FrameKind) (data : List Byte) : (s.emitFrame k data).motion = s.motion := rfl
@[simp] theorem State.emitFrame_pendingTick (k : FrameKind) (data : List Byte) :
    (s.emitFrame k data).pendingTick = s.pendingTick := rfl
@[simp] theorem State.emitFrame_pendingFrame (k : FrameKind) (data : List Byte) :
    (s.emitFrame k data).pendingFrame = s.pendingFrame := rfl
@[simp] theorem State.emitFrame_rxFrame (k : FrameKind) (data : List Byte) : (s.emitFrame k data).rxFrame = s.rxFrame := rfl
@[simp] theorem State.emitFrame_extEvent (k : FrameKind) (data : List Byte) :
    (s.emitFrame k data).extEvent = s.extEvent := rfl
@[simp] theorem State.emitFrame_params (k : FrameKind) (data : List Byte) : (s.emitFrame k data).params = s.params := rfl
@[simp] theorem State.emitFrame_phase (k : FrameKind) (data : List Byte) : (s.emitFrame k data).phase = s.phase := rfl
@[simp] theorem State.emitFrame_inputs (k : FrameKind) (data : List Byte) : (s.emitFrame k data).inputs = s.inputs := rfl
@[simp] theorem State.emitFrame_encoders (k : FrameKind) (data : List Byte) :
    (s.emitFrame k data).encoders = s.encoders := rfl
@[simp] theorem State.emitFrame_choices (k : FrameKind) (data : List Byte) : (s.emitFrame k data).choices = s.choices := rfl
@[simp] theorem State.emitFrame_outputs (k : FrameKind) (data : List Byte) :
    (s.emitFrame k data).outputs = s.outputs ++ [.frame k (buildFrame (tagOf s.params.tags k) data)] := rfl
@[simp] theorem State.emitFrame_lastOutcome (k : FrameKind) (data : List Byte) :
    (s.emitFrame k data).lastOutcome = s.lastOutcome := rfl
@[simp] theorem State.emitFrame_reg (k : FrameKind) (data : List Byte) (i : RegNum) : (s.emitFrame k data).reg i = s.reg i := rfl

/-! ### leaveRun -/

@[simp] theorem State.leaveRun_regs (o : RunOutcome) : (s.leaveRun o).regs = s.regs := rfl
@[simp] theorem State.leaveRun_hi (o : RunOutcome) : (s.leaveRun o).hi = s.hi := rfl
@[simp] theorem State.leaveRun_lo (o : RunOutcome) : (s.leaveRun o).lo = s.lo := rfl
@[simp] theorem State.leaveRun_pc (o : RunOutcome) : (s.leaveRun o).pc = s.pc := rfl
@[simp] theorem State.leaveRun_halted (o : RunOutcome) : (s.leaveRun o).halted = s.halted := rfl
@[simp] theorem State.leaveRun_suspend (o : RunOutcome) : (s.leaveRun o).suspend = s.suspend := rfl
@[simp] theorem State.leaveRun_mem (o : RunOutcome) : (s.leaveRun o).mem = s.mem := rfl
@[simp] theorem State.leaveRun_tmState (o : RunOutcome) : (s.leaveRun o).tmState = s.tmState := rfl
@[simp] theorem State.leaveRun_totSize (o : RunOutcome) : (s.leaveRun o).totSize = s.totSize := rfl
@[simp] theorem State.leaveRun_bytesIn (o : RunOutcome) : (s.leaveRun o).bytesIn = s.bytesIn := rfl
@[simp] theorem State.leaveRun_motion (o : RunOutcome) : (s.leaveRun o).motion = s.motion := rfl
@[simp] theorem State.leaveRun_pendingTick (o : RunOutcome) : (s.leaveRun o).pendingTick = s.pendingTick := rfl
@[simp] theorem State.leaveRun_pendingFrame (o : RunOutcome) : (s.leaveRun o).pendingFrame = s.pendingFrame := rfl
@[simp] theorem State.leaveRun_rxFrame (o : RunOutcome) : (s.leaveRun o).rxFrame = s.rxFrame := rfl
@[simp] theorem State.leaveRun_extEvent (o : RunOutcome) : (s.leaveRun o).extEvent = s.extEvent := rfl
@[simp] theorem State.leaveRun_params (o : RunOutcome) : (s.leaveRun o).params = s.params := rfl
@[simp] theorem State.leaveRun_phase (o : RunOutcome) : (s.leaveRun o).phase = .atLoop := rfl
@[simp] theorem State.leaveRun_inputs (o : RunOutcome) : (s.leaveRun o).inputs = s.inputs := rfl
@[simp] theorem State.leaveRun_encoders (o : RunOutcome) : (s.leaveRun o).encoders = s.encoders := rfl
@[simp] theorem State.leaveRun_choices (o : RunOutcome) : (s.leaveRun o).choices = s.choices := rfl
@[simp] theorem State.leaveRun_outputs (o : RunOutcome) : (s.leaveRun o).outputs = s.outputs := rfl
@[simp] theorem State.leaveRun_lastOutcome (o : RunOutcome) : (s.leaveRun o).lastOutcome = some o := rfl
@[simp] theorem State.leaveRun_reg (o : RunOutcome) (i : RegNum) : (s.leaveRun o).reg i = s.reg i := rfl

/-! ### setTask -/

@[simp] theorem State.setTask_regs (k : TaskState) : (s.setTask k).regs = s.regs := rfl
@[simp] theorem State.setTask_hi (k : TaskState) : (s.setTask k).hi = s.hi := rfl
@[simp] theorem State.setTask_lo (k : TaskState) : (s.setTask k).lo = s.lo := rfl
@[simp] theorem State.setTask_pc (k : TaskState) : (s.setTask k).pc = s.pc := rfl
@[simp] theorem State.setTask_halted (k : TaskState) : (s.setTask k).halted = s.halted := rfl
@[simp] theorem State.setTask_suspend (k : TaskState) : (s.setTask k).suspend = s.suspend := rfl
@[simp] theorem State.setTask_mem (k : TaskState) : (s.setTask k).mem = s.mem := rfl
@[simp] theorem State.setTask_tmState (k : TaskState) : (s.setTask k).tmState = k := rfl
@[simp] theorem State.setTask_totSize (k : TaskState) : (s.setTask k).totSize = s.totSize := rfl
@[simp] theorem State.setTask_bytesIn (k : TaskState) : (s.setTask k).bytesIn = s.bytesIn := rfl
@[simp] theorem State.setTask_motion (k : TaskState) : (s.setTask k).motion = s.motion := rfl
@[simp] theorem State.setTask_pendingTick (k : TaskState) : (s.setTask k).pendingTick = s.pendingTick := rfl
@[simp] theorem State.setTask_pendingFrame (k : TaskState) : (s.setTask k).pendingFrame = s.pendingFrame := rfl
@[simp] theorem State.setTask_rxFrame (k : TaskState) : (s.setTask k).rxFrame = s.rxFrame := rfl
@[simp] theorem State.setTask_extEvent (k : TaskState) : (s.setTask k).extEvent = s.extEvent := rfl
@[simp] theorem State.setTask_params (k : TaskState) : (s.setTask k).params = s.params := rfl
@[simp] theorem State.setTask_phase (k : TaskState) : (s.setTask k).phase = s.phase := rfl
@[simp] theorem State.setTask_inputs (k : TaskState) : (s.setTask k).inputs = s.inputs := rfl
@[simp] theorem State.setTask_encoders (k : TaskState) : (s.setTask k).encoders = s.encoders := rfl
@[simp] theorem State.setTask_choices (k : TaskState) : (s.setTask k).choices = s.choices := rfl
@[simp] theorem State.setTask_outputs (k : TaskState) : (s.setTask k).outputs = s.outputs := rfl
@[simp] theorem State.setTask_lastOutcome (k : TaskState) : (s.setTask k).lastOutcome = s.lastOutcome := rfl
@[simp] theorem State.setTask_reg (k : TaskState) (i : RegNum) : (s.setTask k).reg i = s.reg i := rfl

/-! ### startMotion -/

@[simp] theorem State.startMotion_regs (q : MotionRequest) : (s.startMotion q).regs = s.regs := rfl
@[simp] theorem State.startMotion_hi (q : MotionRequest) : (s.startMotion q).hi = s.hi := rfl
@[simp] theorem State.startMotion_lo (q : MotionRequest) : (s.startMotion q).lo = s.lo := rfl
@[simp] theorem State.startMotion_pc (q : MotionRequest) : (s.startMotion q).pc = s.pc := rfl
@[simp] theorem State.startMotion_halted (q : MotionRequest) : (s.startMotion q).halted = s.halted := rfl
@[simp] theorem State.startMotion_suspend (q : MotionRequest) : (s.startMotion q).suspend = s.suspend := rfl
@[simp] theorem State.startMotion_mem (q : MotionRequest) : (s.startMotion q).mem = s.mem := rfl
@[simp] theorem State.startMotion_tmState (q : MotionRequest) : (s.startMotion q).tmState = .moving := rfl
@[simp] theorem State.startMotion_totSize (q : MotionRequest) : (s.startMotion q).totSize = s.totSize := rfl
@[simp] theorem State.startMotion_bytesIn (q : MotionRequest) : (s.startMotion q).bytesIn = s.bytesIn := rfl
@[simp] theorem State.startMotion_motion (q : MotionRequest) :
    (s.startMotion q).motion = { active := true, driving := true, axes := q.axes, target := q.target, speed := q.speed, debounce := 0 } := rfl
@[simp] theorem State.startMotion_pendingTick (q : MotionRequest) : (s.startMotion q).pendingTick = s.pendingTick := rfl
@[simp] theorem State.startMotion_pendingFrame (q : MotionRequest) : (s.startMotion q).pendingFrame = s.pendingFrame := rfl
@[simp] theorem State.startMotion_rxFrame (q : MotionRequest) : (s.startMotion q).rxFrame = s.rxFrame := rfl
@[simp] theorem State.startMotion_extEvent (q : MotionRequest) : (s.startMotion q).extEvent = s.extEvent := rfl
@[simp] theorem State.startMotion_params (q : MotionRequest) : (s.startMotion q).params = s.params := rfl
@[simp] theorem State.startMotion_phase (q : MotionRequest) : (s.startMotion q).phase = s.phase := rfl
@[simp] theorem State.startMotion_inputs (q : MotionRequest) : (s.startMotion q).inputs = s.inputs := rfl
@[simp] theorem State.startMotion_encoders (q : MotionRequest) : (s.startMotion q).encoders = s.encoders := rfl
@[simp] theorem State.startMotion_choices (q : MotionRequest) : (s.startMotion q).choices = s.choices + 1 := rfl
@[simp] theorem State.startMotion_outputs (q : MotionRequest) :
    (s.startMotion q).outputs = s.outputs ++ (orderAxes s.choices q.axes).flatMap fun a => [.resetEncoder a, .setSpeed a q.speed] := rfl
@[simp] theorem State.startMotion_lastOutcome (q : MotionRequest) : (s.startMotion q).lastOutcome = s.lastOutcome := rfl
@[simp] theorem State.startMotion_reg (q : MotionRequest) (i : RegNum) : (s.startMotion q).reg i = s.reg i := rfl

/-! ### haltProgram -/

@[simp] theorem State.haltProgram_regs : (s.haltProgram).regs = s.regs := rfl
@[simp] theorem State.haltProgram_hi : (s.haltProgram).hi = s.hi := rfl
@[simp] theorem State.haltProgram_lo : (s.haltProgram).lo = s.lo := rfl
@[simp] theorem State.haltProgram_pc : (s.haltProgram).pc = s.pc := rfl
@[simp] theorem State.haltProgram_halted : (s.haltProgram).halted = true := rfl
@[simp] theorem State.haltProgram_suspend : (s.haltProgram).suspend = s.suspend := rfl
@[simp] theorem State.haltProgram_mem : (s.haltProgram).mem = s.mem := rfl
@[simp] theorem State.haltProgram_tmState : (s.haltProgram).tmState = .idle := rfl
@[simp] theorem State.haltProgram_totSize : (s.haltProgram).totSize = s.totSize := rfl
@[simp] theorem State.haltProgram_bytesIn : (s.haltProgram).bytesIn = s.bytesIn := rfl
@[simp] theorem State.haltProgram_motion : (s.haltProgram).motion = s.motion := rfl
@[simp] theorem State.haltProgram_pendingTick : (s.haltProgram).pendingTick = s.pendingTick := rfl
@[simp] theorem State.haltProgram_pendingFrame : (s.haltProgram).pendingFrame = s.pendingFrame := rfl
@[simp] theorem State.haltProgram_rxFrame : (s.haltProgram).rxFrame = s.rxFrame := rfl
@[simp] theorem State.haltProgram_extEvent : (s.haltProgram).extEvent = s.extEvent := rfl
@[simp] theorem State.haltProgram_params : (s.haltProgram).params = s.params := rfl
@[simp] theorem State.haltProgram_phase : (s.haltProgram).phase = .atLoop := rfl
@[simp] theorem State.haltProgram_inputs : (s.haltProgram).inputs = s.inputs := rfl
@[simp] theorem State.haltProgram_encoders : (s.haltProgram).encoders = s.encoders := rfl
@[simp] theorem State.haltProgram_choices : (s.haltProgram).choices = s.choices := rfl
@[simp] theorem State.haltProgram_outputs : (s.haltProgram).outputs = s.outputs := rfl
@[simp] theorem State.haltProgram_lastOutcome : (s.haltProgram).lastOutcome = some .halted := rfl
@[simp] theorem State.haltProgram_reg (i : RegNum) : (s.haltProgram).reg i = s.reg i := rfl

/-! ### takeFault -/

@[simp] theorem State.takeFault_regs (r : FaultReason) : (s.takeFault r).regs = s.regs := rfl
@[simp] theorem State.takeFault_hi (r : FaultReason) : (s.takeFault r).hi = s.hi := rfl
@[simp] theorem State.takeFault_lo (r : FaultReason) : (s.takeFault r).lo = s.lo := rfl
@[simp] theorem State.takeFault_pc (r : FaultReason) : (s.takeFault r).pc = s.pc := rfl
@[simp] theorem State.takeFault_halted (r : FaultReason) : (s.takeFault r).halted = true := rfl
@[simp] theorem State.takeFault_suspend (r : FaultReason) : (s.takeFault r).suspend = s.suspend := rfl
@[simp] theorem State.takeFault_mem (r : FaultReason) : (s.takeFault r).mem = s.mem := rfl
@[simp] theorem State.takeFault_tmState (r : FaultReason) : (s.takeFault r).tmState = .idle := rfl
@[simp] theorem State.takeFault_totSize (r : FaultReason) : (s.takeFault r).totSize = s.totSize := rfl
@[simp] theorem State.takeFault_bytesIn (r : FaultReason) : (s.takeFault r).bytesIn = s.bytesIn := rfl
@[simp] theorem State.takeFault_motion (r : FaultReason) : (s.takeFault r).motion = s.motion := rfl
@[simp] theorem State.takeFault_pendingTick (r : FaultReason) : (s.takeFault r).pendingTick = s.pendingTick := rfl
@[simp] theorem State.takeFault_pendingFrame (r : FaultReason) : (s.takeFault r).pendingFrame = s.pendingFrame := rfl
@[simp] theorem State.takeFault_rxFrame (r : FaultReason) : (s.takeFault r).rxFrame = s.rxFrame := rfl
@[simp] theorem State.takeFault_extEvent (r : FaultReason) : (s.takeFault r).extEvent = s.extEvent := rfl
@[simp] theorem State.takeFault_params (r : FaultReason) : (s.takeFault r).params = s.params := rfl
@[simp] theorem State.takeFault_phase (r : FaultReason) : (s.takeFault r).phase = .atLoop := rfl
@[simp] theorem State.takeFault_inputs (r : FaultReason) : (s.takeFault r).inputs = s.inputs := rfl
@[simp] theorem State.takeFault_encoders (r : FaultReason) : (s.takeFault r).encoders = s.encoders := rfl
@[simp] theorem State.takeFault_choices (r : FaultReason) : (s.takeFault r).choices = s.choices := rfl
@[simp] theorem State.takeFault_outputs (r : FaultReason) :
    (s.takeFault r).outputs = s.outputs ++ [.frame .fault (buildFrame s.params.tags.fault (r.code :: bytesOfWord s.pc))] := rfl
@[simp] theorem State.takeFault_lastOutcome (r : FaultReason) : (s.takeFault r).lastOutcome = some (.faulted r) := rfl
@[simp] theorem State.takeFault_reg (r : FaultReason) (i : RegNum) : (s.takeFault r).reg i = s.reg i := rfl

/-! ### suspendFor -/

@[simp] theorem State.suspendFor_regs (q : MotionRequest) : (s.suspendFor q).regs = s.regs := rfl
@[simp] theorem State.suspendFor_hi (q : MotionRequest) : (s.suspendFor q).hi = s.hi := rfl
@[simp] theorem State.suspendFor_lo (q : MotionRequest) : (s.suspendFor q).lo = s.lo := rfl
@[simp] theorem State.suspendFor_pc (q : MotionRequest) : (s.suspendFor q).pc = s.pc + 4 := rfl
@[simp] theorem State.suspendFor_halted (q : MotionRequest) : (s.suspendFor q).halted = s.halted := rfl
@[simp] theorem State.suspendFor_suspend (q : MotionRequest) : (s.suspendFor q).suspend = .motionPending := rfl
@[simp] theorem State.suspendFor_mem (q : MotionRequest) : (s.suspendFor q).mem = s.mem := rfl
@[simp] theorem State.suspendFor_tmState (q : MotionRequest) : (s.suspendFor q).tmState = .moving := rfl
@[simp] theorem State.suspendFor_totSize (q : MotionRequest) : (s.suspendFor q).totSize = s.totSize := rfl
@[simp] theorem State.suspendFor_bytesIn (q : MotionRequest) : (s.suspendFor q).bytesIn = s.bytesIn := rfl
@[simp] theorem State.suspendFor_motion (q : MotionRequest) :
    (s.suspendFor q).motion = { active := true, driving := true, axes := q.axes, target := q.target, speed := q.speed, debounce := 0 } := rfl
@[simp] theorem State.suspendFor_pendingTick (q : MotionRequest) : (s.suspendFor q).pendingTick = s.pendingTick := rfl
@[simp] theorem State.suspendFor_pendingFrame (q : MotionRequest) : (s.suspendFor q).pendingFrame = s.pendingFrame := rfl
@[simp] theorem State.suspendFor_rxFrame (q : MotionRequest) : (s.suspendFor q).rxFrame = s.rxFrame := rfl
@[simp] theorem State.suspendFor_extEvent (q : MotionRequest) : (s.suspendFor q).extEvent = s.extEvent := rfl
@[simp] theorem State.suspendFor_params (q : MotionRequest) : (s.suspendFor q).params = s.params := rfl
@[simp] theorem State.suspendFor_phase (q : MotionRequest) : (s.suspendFor q).phase = .atLoop := rfl
@[simp] theorem State.suspendFor_inputs (q : MotionRequest) : (s.suspendFor q).inputs = s.inputs := rfl
@[simp] theorem State.suspendFor_encoders (q : MotionRequest) : (s.suspendFor q).encoders = s.encoders := rfl
@[simp] theorem State.suspendFor_choices (q : MotionRequest) : (s.suspendFor q).choices = s.choices + 1 := rfl
@[simp] theorem State.suspendFor_outputs (q : MotionRequest) :
    (s.suspendFor q).outputs = s.outputs ++ (orderAxes s.choices q.axes).flatMap fun a => [.resetEncoder a, .setSpeed a q.speed] := rfl
@[simp] theorem State.suspendFor_lastOutcome (q : MotionRequest) : (s.suspendFor q).lastOutcome = some (.suspended q) := rfl
@[simp] theorem State.suspendFor_reg (q : MotionRequest) (i : RegNum) : (s.suspendFor q).reg i = s.reg i := rfl

/-! ### resume -/

@[simp] theorem State.resume_regs : (s.resume).regs = s.regs := rfl
@[simp] theorem State.resume_hi : (s.resume).hi = s.hi := rfl
@[simp] theorem State.resume_lo : (s.resume).lo = s.lo := rfl
@[simp] theorem State.resume_pc : (s.resume).pc = s.pc := rfl
@[simp] theorem State.resume_halted : (s.resume).halted = s.halted := rfl
@[simp] theorem State.resume_suspend : (s.resume).suspend = .none := rfl
@[simp] theorem State.resume_mem : (s.resume).mem = s.mem := rfl
@[simp] theorem State.resume_tmState : (s.resume).tmState = s.tmState := rfl
@[simp] theorem State.resume_totSize : (s.resume).totSize = s.totSize := rfl
@[simp] theorem State.resume_bytesIn : (s.resume).bytesIn = s.bytesIn := rfl
@[simp] theorem State.resume_motion : (s.resume).motion = s.motion := rfl
@[simp] theorem State.resume_pendingTick : (s.resume).pendingTick = s.pendingTick := rfl
@[simp] theorem State.resume_pendingFrame : (s.resume).pendingFrame = s.pendingFrame := rfl
@[simp] theorem State.resume_rxFrame : (s.resume).rxFrame = s.rxFrame := rfl
@[simp] theorem State.resume_extEvent : (s.resume).extEvent = s.extEvent := rfl
@[simp] theorem State.resume_params : (s.resume).params = s.params := rfl
@[simp] theorem State.resume_phase : (s.resume).phase = s.phase := rfl
@[simp] theorem State.resume_inputs : (s.resume).inputs = s.inputs := rfl
@[simp] theorem State.resume_encoders : (s.resume).encoders = s.encoders := rfl
@[simp] theorem State.resume_choices : (s.resume).choices = s.choices := rfl
@[simp] theorem State.resume_outputs : (s.resume).outputs = s.outputs := rfl
@[simp] theorem State.resume_lastOutcome : (s.resume).lastOutcome = s.lastOutcome := rfl
@[simp] theorem State.resume_reg (i : RegNum) : (s.resume).reg i = s.reg i := rfl

/-! ### setLoad -/

@[simp] theorem State.setLoad_regs (n m : Half) : (s.setLoad n m).regs = s.regs := rfl
@[simp] theorem State.setLoad_hi (n m : Half) : (s.setLoad n m).hi = s.hi := rfl
@[simp] theorem State.setLoad_lo (n m : Half) : (s.setLoad n m).lo = s.lo := rfl
@[simp] theorem State.setLoad_pc (n m : Half) : (s.setLoad n m).pc = s.pc := rfl
@[simp] theorem State.setLoad_halted (n m : Half) : (s.setLoad n m).halted = s.halted := rfl
@[simp] theorem State.setLoad_suspend (n m : Half) : (s.setLoad n m).suspend = s.suspend := rfl
@[simp] theorem State.setLoad_mem (n m : Half) : (s.setLoad n m).mem = s.mem := rfl
@[simp] theorem State.setLoad_tmState (n m : Half) : (s.setLoad n m).tmState = s.tmState := rfl
@[simp] theorem State.setLoad_totSize (n m : Half) : (s.setLoad n m).totSize = n := rfl
@[simp] theorem State.setLoad_bytesIn (n m : Half) : (s.setLoad n m).bytesIn = m := rfl
@[simp] theorem State.setLoad_motion (n m : Half) : (s.setLoad n m).motion = s.motion := rfl
@[simp] theorem State.setLoad_pendingTick (n m : Half) : (s.setLoad n m).pendingTick = s.pendingTick := rfl
@[simp] theorem State.setLoad_pendingFrame (n m : Half) : (s.setLoad n m).pendingFrame = s.pendingFrame := rfl
@[simp] theorem State.setLoad_rxFrame (n m : Half) : (s.setLoad n m).rxFrame = s.rxFrame := rfl
@[simp] theorem State.setLoad_extEvent (n m : Half) : (s.setLoad n m).extEvent = s.extEvent := rfl
@[simp] theorem State.setLoad_params (n m : Half) : (s.setLoad n m).params = s.params := rfl
@[simp] theorem State.setLoad_phase (n m : Half) : (s.setLoad n m).phase = s.phase := rfl
@[simp] theorem State.setLoad_inputs (n m : Half) : (s.setLoad n m).inputs = s.inputs := rfl
@[simp] theorem State.setLoad_encoders (n m : Half) : (s.setLoad n m).encoders = s.encoders := rfl
@[simp] theorem State.setLoad_choices (n m : Half) : (s.setLoad n m).choices = s.choices := rfl
@[simp] theorem State.setLoad_outputs (n m : Half) : (s.setLoad n m).outputs = s.outputs := rfl
@[simp] theorem State.setLoad_lastOutcome (n m : Half) : (s.setLoad n m).lastOutcome = s.lastOutcome := rfl
@[simp] theorem State.setLoad_reg (n m : Half) (i : RegNum) : (s.setLoad n m).reg i = s.reg i := rfl

/-! ### freshInterpreter -/

@[simp] theorem State.freshInterpreter_regs : (s.freshInterpreter).regs = Vector.replicate 32 0 := rfl
@[simp] theorem State.freshInterpreter_hi : (s.freshInterpreter).hi = 0 := rfl
@[simp] theorem State.freshInterpreter_lo : (s.freshInterpreter).lo = 0 := rfl
@[simp] theorem State.freshInterpreter_pc : (s.freshInterpreter).pc = 0 := rfl
@[simp] theorem State.freshInterpreter_halted : (s.freshInterpreter).halted = false := rfl
@[simp] theorem State.freshInterpreter_suspend : (s.freshInterpreter).suspend = .none := rfl
@[simp] theorem State.freshInterpreter_mem : (s.freshInterpreter).mem = s.mem := rfl
@[simp] theorem State.freshInterpreter_tmState : (s.freshInterpreter).tmState = s.tmState := rfl
@[simp] theorem State.freshInterpreter_totSize : (s.freshInterpreter).totSize = s.totSize := rfl
@[simp] theorem State.freshInterpreter_bytesIn : (s.freshInterpreter).bytesIn = s.bytesIn := rfl
@[simp] theorem State.freshInterpreter_motion : (s.freshInterpreter).motion = s.motion := rfl
@[simp] theorem State.freshInterpreter_pendingTick : (s.freshInterpreter).pendingTick = s.pendingTick := rfl
@[simp] theorem State.freshInterpreter_pendingFrame : (s.freshInterpreter).pendingFrame = s.pendingFrame := rfl
@[simp] theorem State.freshInterpreter_rxFrame : (s.freshInterpreter).rxFrame = s.rxFrame := rfl
@[simp] theorem State.freshInterpreter_extEvent : (s.freshInterpreter).extEvent = s.extEvent := rfl
@[simp] theorem State.freshInterpreter_params : (s.freshInterpreter).params = s.params := rfl
@[simp] theorem State.freshInterpreter_phase : (s.freshInterpreter).phase = s.phase := rfl
@[simp] theorem State.freshInterpreter_inputs : (s.freshInterpreter).inputs = s.inputs := rfl
@[simp] theorem State.freshInterpreter_encoders : (s.freshInterpreter).encoders = s.encoders := rfl
@[simp] theorem State.freshInterpreter_choices : (s.freshInterpreter).choices = s.choices := rfl
@[simp] theorem State.freshInterpreter_outputs : (s.freshInterpreter).outputs = s.outputs := rfl
@[simp] theorem State.freshInterpreter_lastOutcome : (s.freshInterpreter).lastOutcome = s.lastOutcome := rfl

/-! ### resettingBody -/

@[simp] theorem State.resettingBody_regs : (s.resettingBody).regs = Vector.replicate 32 0 := rfl
@[simp] theorem State.resettingBody_hi : (s.resettingBody).hi = 0 := rfl
@[simp] theorem State.resettingBody_lo : (s.resettingBody).lo = 0 := rfl
@[simp] theorem State.resettingBody_pc : (s.resettingBody).pc = 0 := rfl
@[simp] theorem State.resettingBody_halted : (s.resettingBody).halted = true := rfl
@[simp] theorem State.resettingBody_suspend : (s.resettingBody).suspend = .none := rfl
@[simp] theorem State.resettingBody_mem : (s.resettingBody).mem = [] := rfl
@[simp] theorem State.resettingBody_tmState : (s.resettingBody).tmState = .idle := rfl
@[simp] theorem State.resettingBody_totSize : (s.resettingBody).totSize = 0 := rfl
@[simp] theorem State.resettingBody_bytesIn : (s.resettingBody).bytesIn = 0 := rfl
@[simp] theorem State.resettingBody_motion :
    (s.resettingBody).motion = { s.motion with active := false, driving := false, debounce := 0 } := rfl
@[simp] theorem State.resettingBody_pendingTick : (s.resettingBody).pendingTick = s.pendingTick := rfl
@[simp] theorem State.resettingBody_pendingFrame : (s.resettingBody).pendingFrame = s.pendingFrame := rfl
@[simp] theorem State.resettingBody_rxFrame : (s.resettingBody).rxFrame = s.rxFrame := rfl
@[simp] theorem State.resettingBody_extEvent : (s.resettingBody).extEvent = false := rfl
@[simp] theorem State.resettingBody_params : (s.resettingBody).params = s.params := rfl
@[simp] theorem State.resettingBody_phase : (s.resettingBody).phase = s.phase := rfl
@[simp] theorem State.resettingBody_inputs : (s.resettingBody).inputs = s.inputs := rfl
@[simp] theorem State.resettingBody_encoders : (s.resettingBody).encoders = s.encoders := rfl
@[simp] theorem State.resettingBody_choices : (s.resettingBody).choices = s.choices := rfl
@[simp] theorem State.resettingBody_outputs : (s.resettingBody).outputs = s.outputs ++ [.driverReinit] := rfl
@[simp] theorem State.resettingBody_lastOutcome : (s.resettingBody).lastOutcome = s.lastOutcome := rfl

/-! ### copyPayload -/

@[simp] theorem State.copyPayload_regs (f : Frame) : (s.copyPayload f).regs = s.regs := rfl
@[simp] theorem State.copyPayload_hi (f : Frame) : (s.copyPayload f).hi = s.hi := rfl
@[simp] theorem State.copyPayload_lo (f : Frame) : (s.copyPayload f).lo = s.lo := rfl
@[simp] theorem State.copyPayload_pc (f : Frame) : (s.copyPayload f).pc = s.pc := rfl
@[simp] theorem State.copyPayload_halted (f : Frame) : (s.copyPayload f).halted = s.halted := rfl
@[simp] theorem State.copyPayload_suspend (f : Frame) : (s.copyPayload f).suspend = s.suspend := rfl
@[simp] theorem State.copyPayload_mem (f : Frame) :
    (s.copyPayload f).mem = Memory.writeBytes s.mem s.bytesIn.toNat ((parseFrame f).payload.take (copyCount s)) := rfl
@[simp] theorem State.copyPayload_tmState (f : Frame) : (s.copyPayload f).tmState = s.tmState := rfl
@[simp] theorem State.copyPayload_totSize (f : Frame) : (s.copyPayload f).totSize = s.totSize := rfl
@[simp] theorem State.copyPayload_bytesIn (f : Frame) :
    (s.copyPayload f).bytesIn = s.bytesIn + BitVec.ofNat 16 (copyCount s) := rfl
@[simp] theorem State.copyPayload_motion (f : Frame) : (s.copyPayload f).motion = s.motion := rfl
@[simp] theorem State.copyPayload_pendingTick (f : Frame) : (s.copyPayload f).pendingTick = s.pendingTick := rfl
@[simp] theorem State.copyPayload_pendingFrame (f : Frame) : (s.copyPayload f).pendingFrame = s.pendingFrame := rfl
@[simp] theorem State.copyPayload_rxFrame (f : Frame) : (s.copyPayload f).rxFrame = s.rxFrame := rfl
@[simp] theorem State.copyPayload_extEvent (f : Frame) : (s.copyPayload f).extEvent = s.extEvent := rfl
@[simp] theorem State.copyPayload_params (f : Frame) : (s.copyPayload f).params = s.params := rfl
@[simp] theorem State.copyPayload_phase (f : Frame) : (s.copyPayload f).phase = s.phase := rfl
@[simp] theorem State.copyPayload_inputs (f : Frame) : (s.copyPayload f).inputs = s.inputs := rfl
@[simp] theorem State.copyPayload_encoders (f : Frame) : (s.copyPayload f).encoders = s.encoders := rfl
@[simp] theorem State.copyPayload_choices (f : Frame) : (s.copyPayload f).choices = s.choices := rfl
@[simp] theorem State.copyPayload_outputs (f : Frame) :
    (s.copyPayload f).outputs = s.outputs ++ [.frame .ackPacket (buildFrame s.params.tags.ackPacket (bytesOfHalf (s.bytesIn + BitVec.ofNat 16 (copyCount s))))] := rfl
@[simp] theorem State.copyPayload_lastOutcome (f : Frame) : (s.copyPayload f).lastOutcome = s.lastOutcome := rfl
@[simp] theorem State.copyPayload_reg (f : Frame) (i : RegNum) : (s.copyPayload f).reg i = s.reg i := rfl

/-! ### stopMotion -/

@[simp] theorem State.stopMotion_regs : (s.stopMotion).regs = s.regs := rfl
@[simp] theorem State.stopMotion_hi : (s.stopMotion).hi = s.hi := rfl
@[simp] theorem State.stopMotion_lo : (s.stopMotion).lo = s.lo := rfl
@[simp] theorem State.stopMotion_pc : (s.stopMotion).pc = s.pc := rfl
@[simp] theorem State.stopMotion_halted : (s.stopMotion).halted = s.halted := rfl
@[simp] theorem State.stopMotion_suspend : (s.stopMotion).suspend = s.suspend := rfl
@[simp] theorem State.stopMotion_mem : (s.stopMotion).mem = s.mem := rfl
@[simp] theorem State.stopMotion_tmState : (s.stopMotion).tmState = .settling := rfl
@[simp] theorem State.stopMotion_totSize : (s.stopMotion).totSize = s.totSize := rfl
@[simp] theorem State.stopMotion_bytesIn : (s.stopMotion).bytesIn = s.bytesIn := rfl
@[simp] theorem State.stopMotion_motion : (s.stopMotion).motion = { s.motion with driving := false } := rfl
@[simp] theorem State.stopMotion_pendingTick : (s.stopMotion).pendingTick = s.pendingTick := rfl
@[simp] theorem State.stopMotion_pendingFrame : (s.stopMotion).pendingFrame = s.pendingFrame := rfl
@[simp] theorem State.stopMotion_rxFrame : (s.stopMotion).rxFrame = s.rxFrame := rfl
@[simp] theorem State.stopMotion_extEvent : (s.stopMotion).extEvent = s.extEvent := rfl
@[simp] theorem State.stopMotion_params : (s.stopMotion).params = s.params := rfl
@[simp] theorem State.stopMotion_phase : (s.stopMotion).phase = s.phase := rfl
@[simp] theorem State.stopMotion_inputs : (s.stopMotion).inputs = s.inputs := rfl
@[simp] theorem State.stopMotion_encoders : (s.stopMotion).encoders = s.encoders := rfl
@[simp] theorem State.stopMotion_choices : (s.stopMotion).choices = s.choices + 1 := rfl
@[simp] theorem State.stopMotion_outputs :
    (s.stopMotion).outputs = s.outputs ++ (orderAxes s.choices s.motion.axes).map fun a => .setSpeed a 0 := rfl
@[simp] theorem State.stopMotion_lastOutcome : (s.stopMotion).lastOutcome = s.lastOutcome := rfl
@[simp] theorem State.stopMotion_reg (i : RegNum) : (s.stopMotion).reg i = s.reg i := rfl

/-! ### Reading a register -/

@[simp] theorem State.reg_zero : s.reg 0#5 = 0#32 := rfl

theorem State.reg_of_ne {i : RegNum} (h : i ≠ 0) : s.reg i = s.regs[i.toNat]'i.isLt := if_neg h

/-- A register read depends on the register file alone. -/
theorem State.reg_congr {s t : State} (h : t.regs = s.regs) (i : RegNum) : t.reg i = s.reg i := by
  unfold State.reg
  rw [h]

theorem toNat_ne_of_ne {i r : RegNum} (h : i ≠ r) : r.toNat ≠ i.toNat := fun e => h (BitVec.eq_of_toNat_eq e.symm)

/-- Reading the register that was written: 0 for register 0, else the value (R11). -/
theorem State.reg_setReg_self (r : RegNum) (v : Word) : (s.setReg r v).reg r = if r = 0 then 0 else v := by
  unfold State.reg
  split
  · rfl
  · next h => simp only [State.setReg_regs, if_neg h, Vector.getElem_set_self]

/-- Reading any other register than the one that was written. -/
theorem State.reg_setReg_other {r i : RegNum} (v : Word) (h : i ≠ r) : (s.setReg r v).reg i = s.reg i := by
  unfold State.reg
  by_cases hr : r = 0
  · simp only [State.setReg_regs, if_pos hr]
  · simp only [State.setReg_regs, if_neg hr, Vector.getElem_set_ne r.isLt i.isLt (toNat_ne_of_ne h)]

/-- A write to register 0 changes nothing (R11). -/
@[simp] theorem State.setReg_zero (v : Word) : s.setReg 0#5 v = s := rfl

/-- Every register reads 0 when RF holds zeros. -/
theorem State.reg_of_regs_zero {s : State} (h : s.regs = Vector.replicate 32 0) (i : RegNum) : s.reg i = 0 := by
  simp [State.reg, h]

/-- The stored RF[0] stays 0 whatever register is written. -/
theorem State.setReg_regs_zero (r : RegNum) (v : Word) (h : s.regs[0] = 0) : (s.setReg r v).regs[0] = 0 := by
  by_cases hr : r = 0
  · simpa only [State.setReg_regs, if_pos hr] using h
  · have hne : r.toNat ≠ 0 := (toNat_ne_of_ne (Ne.symm hr) :)
    simpa only [State.setReg_regs, if_neg hr, Vector.getElem_set_ne r.isLt (by omega) hne] using h

end Sys2Proof.Machine
end

