-- ==== Sys2Proof/Laws/Ops.lean ====
section
/-!
SUPPORT. For each shared operation one lemma that says once everything it does, in the terms of Safety.lean: the instruction
shapes (write a register, write HI and LO, branch, jump and link, load, store), taking a fault, ending a run, suspending; the
order of the axes; the bytes of a frame.
-/
namespace Sys2Proof.Machine

open Sys2Proof

variable (s : State)

/-! ### The instruction shapes -/

/-- A register write that falls through changes the register and pc, and nothing else. -/
theorem wroteRegister (r : RegNum) (v : Word) : WroteRegister r v s (s.setReg r v).advance where
  result := s.reg_setReg_self r v
  others _ h := s.reg_setReg_other v h
  hi := rfl
  lo := rfl
  pc := rfl
  memory _ := rfl
  outputs := rfl
  control := by constructor <;> rfl

/-- What `writeResult` answers: a next state, with exactly the register and pc written. -/
theorem writeResult_wrote (r : RegNum) (v : Word) : ∃ t, writeResult r v s = .next t ∧ WroteRegister r v s t :=
  ⟨_, rfl, wroteRegister s r v⟩

/-- A write of HI and LO that falls through changes HI, LO and pc, and nothing else. -/
theorem wroteHiLo (hi lo : Word) : WroteHiLo hi lo s ((s.setHi hi).setLo lo).advance where
  hi := rfl
  lo := rfl
  registers _ := rfl
  pc := rfl
  memory _ := rfl
  outputs := rfl
  control := by constructor <;> rfl

/-- What `writeHiLo` answers: a next state, with exactly HI, LO and pc written. -/
theorem writeHiLo_wrote (hi lo : Word) : ∃ t, writeHiLo hi lo s = .next t ∧ WroteHiLo hi lo s t :=
  ⟨_, rfl, wroteHiLo s hi lo⟩

/-- A write of pc changes nothing else. -/
theorem transferred (target : Word) : Transferred target s (s.setPc target) where
  pc := rfl
  registers _ := rfl
  hi := rfl
  lo := rfl
  memory _ := rfl
  outputs := rfl
  control := by constructor <;> rfl

/-- What `branchIf` answers: a next state, with exactly pc written. -/
theorem branchIf_transferred (taken : Bool) (imm : Half) :
    ∃ t, branchIf taken imm s = .next t ∧ Transferred (if taken then branchTarget s.pc imm else s.pc + 4) s t :=
  ⟨_, rfl, transferred s _⟩

/-- A jump that links changes the link register and pc, and nothing else. -/
theorem linked (r : RegNum) (target : Word) : Linked r target s ((s.setReg r (s.pc + 4)).setPc target) where
  pc := rfl
  link := s.reg_setReg_self r _
  others _ h := s.reg_setReg_other _ h
  hi := rfl
  lo := rfl
  memory _ := rfl
  outputs := rfl
  control := by constructor <;> rfl

/-- A store that falls through changes the stored bytes and pc, and nothing else. -/
theorem storedBytes (a : Nat) (bs : List Byte) : StoredBytes a bs s (s.storeBytes a bs).advance where
  stored k h := Memory.byte_writeBytes_inside s.mem a bs k h
  elsewhere c h := Memory.byte_writeBytes_outside s.mem a bs c h
  registers _ := rfl
  hi := rfl
  lo := rfl
  pc := rfl
  outputs := rfl
  control := by constructor <;> rfl

/-- What a load answers, both ways: the value in the register when the whole access is in bounds, the fault otherwise. -/
theorem loadFrom_eq (n : Nat) (value : Memory → Nat → Word) (rt rs : RegNum) (imm : Half) :
    loadFrom n value rt rs imm s =
      if s.InBounds (s.effectiveAddress rs imm) n then
        .next (s.setReg rt (value s.mem (s.effectiveAddress rs imm).toNat)).advance
      else .next (s.takeFault (.memoryOutOfBounds (s.effectiveAddress rs imm))) := rfl

/-- What a store answers, both ways: the bytes at the effective address when the whole access is in bounds, the fault
otherwise. -/
theorem storeTo_eq (bs : List Byte) (rs : RegNum) (imm : Half) :
    storeTo bs rs imm s =
      if s.InBounds (s.effectiveAddress rs imm) bs.length then
        .next (s.storeBytes (s.effectiveAddress rs imm).toNat bs).advance
      else .next (s.takeFault (.memoryOutOfBounds (s.effectiveAddress rs imm))) := rfl

/-- A store below a bound keeps the listed addresses below it. -/
theorem memoryBelow_writeBytes {m : Memory} {a bound : Nat} {bs : List Byte} (hm : MemoryBelow bound m)
    (ha : a + bs.length ≤ bound) : MemoryBelow bound (Memory.writeBytes m a bs) := Memory.writeBytes_bounded hm ha

@[simp] theorem memoryBelow_nil (bound : Nat) : MemoryBelow bound [] := fun _ h => absurd h List.not_mem_nil

/-! ### The end of a run -/

/-- A state whose register file, HI, LO, pc and Memory are equal to another's has the same program state. -/
theorem sameProgram_of {s t : State} (hr : t.regs = s.regs) (hh : t.hi = s.hi) (hl : t.lo = s.lo) (hp : t.pc = s.pc)
    (hm : t.mem = s.mem) : SameProgram s t where
  registers i := State.reg_congr hr i
  hi := hh
  lo := hl
  pc := hp
  memory a := by rw [hm]

/-- Taking a fault leaves the program, the interface and the session as they were. -/
theorem takeFault_program (r : FaultReason) : SameProgram s (s.takeFault r) :=
  ⟨fun _ => rfl, rfl, rfl, rfl, fun _ => rfl⟩

theorem takeFault_interface (r : FaultReason) : SameInterface s (s.takeFault r) := by constructor <;> rfl

/-- Ending a program leaves the program, the interface and the session as they were. -/
theorem haltProgram_program : SameProgram s s.haltProgram := ⟨fun _ => rfl, rfl, rfl, rfl, fun _ => rfl⟩

theorem haltProgram_interface : SameInterface s s.haltProgram := by constructor <;> rfl

/-- Suspending leaves the interface as it was. -/
theorem suspendFor_interface (req : MotionRequest) : SameInterface s (s.suspendFor req) := by constructor <;> rfl

/-- A run that yields only returns to the control loop. -/
theorem endRun_yielded : s.endRun .yielded = { s with phase := .atLoop, lastOutcome := some .yielded } := rfl

/-! ### The order of the axes -/

theorem insertAxis_perm (n : Nat) (a : Axis) (l : List Axis) : (insertAxis n a l).Perm (a :: l) := by
  induction l with
  | nil => rfl
  | cons b l ih =>
    unfold insertAxis
    split
    · rfl
    · exact (ih.cons b).trans (List.Perm.swap a b l)

/-- Whatever the free ranks are, the order is a permutation of the axes. -/
theorem orderAxes_perm (n : Nat) (axes : List Axis) : (orderAxes n axes).Perm axes := by
  induction axes with
  | nil => rfl
  | cons a l ih => exact (insertAxis_perm n a _).trans (ih.cons a)

/-! ### Frames -/

/-- Byte k of a built frame. -/
theorem buildFrame_getElem (tag : Byte × Byte) (data : List Byte) (k : Nat) (h : k < 20) :
    (buildFrame tag data)[k] = (tag.1 :: tag.2 :: data).getD k 0 := by simp [buildFrame]

theorem parseFrame_code (f : Frame) : (parseFrame f).code = (f[0], f[1]) := rfl

theorem parseFrame_payload (f : Frame) : (parseFrame f).payload = f.toList.drop 2 := rfl

theorem parseFrame_payload_length (f : Frame) : (parseFrame f).payload.length = 18 := by simp [parseFrame]

/-- Payload byte k is frame byte k + 2. -/
theorem parseFrame_payload_getD (f : Frame) (k : Nat) (h : k < 18) :
    (parseFrame f).payload.getD k 0 = f[k + 2] := by
  have h1 : k + 2 < 20 := by omega
  simp [parseFrame, List.getD, Nat.add_comm 2 k, Vector.getElem?_eq_getElem h1]

theorem commandOf_rd : commandOf (0x52, 0x44) = .rd := rfl

theorem commandOf_pk : commandOf (0x50, 0x4B) = .pk := rfl

theorem commandOf_rs : commandOf (0x52, 0x53) = .rs := rfl

/-- The command of a code, by the code. -/
theorem commandOf_eq_rd_iff (c : Byte × Byte) : commandOf c = .rd ↔ c = (0x52, 0x44) := by
  unfold commandOf
  split_ifs with h1 h2 h3 <;> simp_all

theorem commandOf_eq_pk_iff (c : Byte × Byte) : commandOf c = .pk ↔ c = (0x50, 0x4B) := by
  unfold commandOf
  split_ifs with h1 h2 h3 <;> simp_all

theorem commandOf_eq_rs_iff (c : Byte × Byte) : commandOf c = .rs ↔ c = (0x52, 0x53) := by
  unfold commandOf
  split_ifs with h1 h2 h3 <;> simp_all

theorem commandOf_unknown {c : Byte × Byte} (h1 : c ≠ (0x52, 0x44)) (h2 : c ≠ (0x50, 0x4B)) (h3 : c ≠ (0x52, 0x53)) :
    commandOf c = .unknown := by
  unfold commandOf
  rw [if_neg h1, if_neg h2, if_neg h3]

/-- A declared size fits 16 bits. -/
theorem declaredSize_lt (p : Params) (payload : List Byte) : declaredSize p payload < 2 ^ 16 := by
  unfold declaredSize
  have := (payload.getD p.sizeOffHi 0).isLt
  have := (payload.getD p.sizeOffLo 0).isLt
  omega

/-- The two bytes of a halfword read from Memory are the bytes read. -/
theorem bytesOfHalf_append (a b : Byte) : bytesOfHalf (a ++ b) = [a, b] := by
  have h1 : (a ++ b).extractLsb' 8 8 = a := by
    apply BitVec.eq_of_getLsbD_eq
    intro i hi
    simp only [BitVec.getLsbD_extractLsb', BitVec.getLsbD_append]
    simp [hi]
  have h2 : (a ++ b).extractLsb' 0 8 = b := by
    apply BitVec.eq_of_getLsbD_eq
    intro i hi
    simp only [BitVec.getLsbD_extractLsb', BitVec.getLsbD_append]
    simp [hi]
  rw [bytesOfHalf, h1, h2]

/-- The two bytes of a 16-bit number, by division. -/
theorem bytesOfHalf_ofNat (n : Nat) :
    bytesOfHalf (BitVec.ofNat 16 n) = [BitVec.ofNat 8 (n / 256), BitVec.ofNat 8 n] := by
  unfold bytesOfHalf
  congr 1
  · apply BitVec.eq_of_toNat_eq
    simp [BitVec.extractLsb'_toNat, Nat.shiftRight_eq_div_pow]
    omega
  · congr 1
    apply BitVec.eq_of_toNat_eq
    simp [BitVec.extractLsb'_toNat]

end Sys2Proof.Machine
end

