-- ==== Sys2Proof/Laws/PerInstr.lean ====
section
/-!
SUPPORT. The family Encoding of LAWS.json, one lemma per constructor: the word of the instruction carries the fixed bits of its
row of spec/opcode_table.json (its `mask` and `match`, from 30_encoding.md rules R66 and R67), whatever its operands are.
-/
namespace Sys2Proof.Laws

open Sys2Proof

/-- The fixed bits of a row: the opcode, and in the Register format the function code too. -/
def tableMask : Instr → Word
  | .sll _ _ _ => 0xFC00003F
  | .srl _ _ _ => 0xFC00003F
  | .sra _ _ _ => 0xFC00003F
  | .sllv _ _ _ => 0xFC00003F
  | .srlv _ _ _ => 0xFC00003F
  | .srav _ _ _ => 0xFC00003F
  | .jr _ => 0xFC00003F
  | .jalr _ _ => 0xFC00003F
  | .mfhi _ => 0xFC00003F
  | .mthi _ => 0xFC00003F
  | .mflo _ => 0xFC00003F
  | .mtlo _ => 0xFC00003F
  | .mult _ _ => 0xFC00003F
  | .multu _ _ => 0xFC00003F
  | .div _ _ => 0xFC00003F
  | .divu _ _ => 0xFC00003F
  | .add _ _ _ => 0xFC00003F
  | .addu _ _ _ => 0xFC00003F
  | .sub _ _ _ => 0xFC00003F
  | .subu _ _ _ => 0xFC00003F
  | .and _ _ _ => 0xFC00003F
  | .or _ _ _ => 0xFC00003F
  | .xor _ _ _ => 0xFC00003F
  | .nor _ _ _ => 0xFC00003F
  | .slt _ _ _ => 0xFC00003F
  | .sltu _ _ _ => 0xFC00003F
  | .beq _ _ _ => 0xFC000000
  | .bne _ _ _ => 0xFC000000
  | .blez _ _ => 0xFC000000
  | .bgtz _ _ => 0xFC000000
  | .addi _ _ _ => 0xFC000000
  | .addiu _ _ _ => 0xFC000000
  | .slti _ _ _ => 0xFC000000
  | .sltiu _ _ _ => 0xFC000000
  | .andi _ _ _ => 0xFC000000
  | .ori _ _ _ => 0xFC000000
  | .xori _ _ _ => 0xFC000000
  | .llo _ _ => 0xFC000000
  | .lhi _ _ => 0xFC000000
  | .lb _ _ _ => 0xFC000000
  | .lh _ _ _ => 0xFC000000
  | .lw _ _ _ => 0xFC000000
  | .lbu _ _ _ => 0xFC000000
  | .lhu _ _ _ => 0xFC000000
  | .sb _ _ _ => 0xFC000000
  | .sh _ _ _ => 0xFC000000
  | .sw _ _ _ => 0xFC000000
  | .j _ => 0xFC000000
  | .jal _ => 0xFC000000
  | .trap _ => 0xFC000000

/-- The values of the fixed bits of a row. -/
def tableMatch : Instr → Word
  | .sll _ _ _ => 0x00000000
  | .srl _ _ _ => 0x00000002
  | .sra _ _ _ => 0x00000003
  | .sllv _ _ _ => 0x00000004
  | .srlv _ _ _ => 0x00000006
  | .srav _ _ _ => 0x00000007
  | .jr _ => 0x00000008
  | .jalr _ _ => 0x00000009
  | .mfhi _ => 0x00000010
  | .mthi _ => 0x00000011
  | .mflo _ => 0x00000012
  | .mtlo _ => 0x00000013
  | .mult _ _ => 0x00000018
  | .multu _ _ => 0x00000019
  | .div _ _ => 0x0000001A
  | .divu _ _ => 0x0000001B
  | .add _ _ _ => 0x00000020
  | .addu _ _ _ => 0x00000021
  | .sub _ _ _ => 0x00000022
  | .subu _ _ _ => 0x00000023
  | .and _ _ _ => 0x00000024
  | .or _ _ _ => 0x00000025
  | .xor _ _ _ => 0x00000026
  | .nor _ _ _ => 0x00000027
  | .slt _ _ _ => 0x0000002A
  | .sltu _ _ _ => 0x0000002B
  | .beq _ _ _ => 0x10000000
  | .bne _ _ _ => 0x14000000
  | .blez _ _ => 0x18000000
  | .bgtz _ _ => 0x1C000000
  | .addi _ _ _ => 0x20000000
  | .addiu _ _ _ => 0x24000000
  | .slti _ _ _ => 0x28000000
  | .sltiu _ _ _ => 0x2C000000
  | .andi _ _ _ => 0x30000000
  | .ori _ _ _ => 0x34000000
  | .xori _ _ _ => 0x38000000
  | .llo _ _ => 0x60000000
  | .lhi _ _ => 0x64000000
  | .lb _ _ _ => 0x80000000
  | .lh _ _ _ => 0x84000000
  | .lw _ _ _ => 0x8C000000
  | .lbu _ _ _ => 0x90000000
  | .lhu _ _ _ => 0x94000000
  | .sb _ _ _ => 0xA0000000
  | .sh _ _ _ => 0xA4000000
  | .sw _ _ _ => 0xAC000000
  | .j _ => 0x08000000
  | .jal _ => 0x0C000000
  | .trap _ => 0x68000000

/-- The statement of the family: the fixed bits of the encoded word are those of the row. -/
def Encoding.Statement (i : Instr) : Prop := encode i &&& tableMask i = tableMatch i

theorem registerWord_fixed (rs rt rd : RegNum) (shamt : BitVec 5) (funct : BitVec 6) :
    registerWord rs rt rd shamt funct &&& 0xFC00003F = (0#26 ++ funct : Word) := by
  apply BitVec.eq_of_getLsbD_eq
  intro i hi
  simp only [registerWord, BitVec.getLsbD_and, BitVec.getLsbD_append]
  interval_cases i <;> simp

theorem immediateWord_fixed (opcode : BitVec 6) (rs rt : RegNum) (imm : Half) :
    immediateWord opcode rs rt imm &&& 0xFC000000 = (opcode ++ 0#26 : Word) := by
  apply BitVec.eq_of_getLsbD_eq
  intro i hi
  simp only [immediateWord, BitVec.getLsbD_and, BitVec.getLsbD_append]
  interval_cases i <;> simp

theorem jumpWord_fixed (opcode : BitVec 6) (field26 : BitVec 26) :
    jumpWord opcode field26 &&& 0xFC000000 = (opcode ++ 0#26 : Word) := by
  apply BitVec.eq_of_getLsbD_eq
  intro i hi
  simp only [jumpWord, BitVec.getLsbD_and, BitVec.getLsbD_append]
  interval_cases i <;> simp

theorem Encoding.sll (rd rt : RegNum) (shamt : BitVec 5) : Encoding.Statement (.sll rd rt shamt) :=
  registerWord_fixed _ _ _ _ _

theorem Encoding.srl (rd rt : RegNum) (shamt : BitVec 5) : Encoding.Statement (.srl rd rt shamt) :=
  registerWord_fixed _ _ _ _ _

theorem Encoding.sra (rd rt : RegNum) (shamt : BitVec 5) : Encoding.Statement (.sra rd rt shamt) :=
  registerWord_fixed _ _ _ _ _

theorem Encoding.sllv (rd rt rs : RegNum) : Encoding.Statement (.sllv rd rt rs) :=
  registerWord_fixed _ _ _ _ _

theorem Encoding.srlv (rd rt rs : RegNum) : Encoding.Statement (.srlv rd rt rs) :=
  registerWord_fixed _ _ _ _ _

theorem Encoding.srav (rd rt rs : RegNum) : Encoding.Statement (.srav rd rt rs) :=
  registerWord_fixed _ _ _ _ _

theorem Encoding.jr (rs : RegNum) : Encoding.Statement (.jr rs) :=
  registerWord_fixed _ _ _ _ _

theorem Encoding.jalr (rd rs : RegNum) : Encoding.Statement (.jalr rd rs) :=
  registerWord_fixed _ _ _ _ _

theorem Encoding.mfhi (rd : RegNum) : Encoding.Statement (.mfhi rd) :=
  registerWord_fixed _ _ _ _ _

theorem Encoding.mthi (rs : RegNum) : Encoding.Statement (.mthi rs) :=
  registerWord_fixed _ _ _ _ _

theorem Encoding.mflo (rd : RegNum) : Encoding.Statement (.mflo rd) :=
  registerWord_fixed _ _ _ _ _

theorem Encoding.mtlo (rs : RegNum) : Encoding.Statement (.mtlo rs) :=
  registerWord_fixed _ _ _ _ _

theorem Encoding.mult (rs rt : RegNum) : Encoding.Statement (.mult rs rt) :=
  registerWord_fixed _ _ _ _ _

theorem Encoding.multu (rs rt : RegNum) : Encoding.Statement (.multu rs rt) :=
  registerWord_fixed _ _ _ _ _

theorem Encoding.div (rs rt : RegNum) : Encoding.Statement (.div rs rt) :=
  registerWord_fixed _ _ _ _ _

theorem Encoding.divu (rs rt : RegNum) : Encoding.Statement (.divu rs rt) :=
  registerWord_fixed _ _ _ _ _

theorem Encoding.add (rd rs rt : RegNum) : Encoding.Statement (.add rd rs rt) :=
  registerWord_fixed _ _ _ _ _

theorem Encoding.addu (rd rs rt : RegNum) : Encoding.Statement (.addu rd rs rt) :=
  registerWord_fixed _ _ _ _ _

theorem Encoding.sub (rd rs rt : RegNum) : Encoding.Statement (.sub rd rs rt) :=
  registerWord_fixed _ _ _ _ _

theorem Encoding.subu (rd rs rt : RegNum) : Encoding.Statement (.subu rd rs rt) :=
  registerWord_fixed _ _ _ _ _

theorem Encoding.and (rd rs rt : RegNum) : Encoding.Statement (.and rd rs rt) :=
  registerWord_fixed _ _ _ _ _

theorem Encoding.or (rd rs rt : RegNum) : Encoding.Statement (.or rd rs rt) :=
  registerWord_fixed _ _ _ _ _

theorem Encoding.xor (rd rs rt : RegNum) : Encoding.Statement (.xor rd rs rt) :=
  registerWord_fixed _ _ _ _ _

theorem Encoding.nor (rd rs rt : RegNum) : Encoding.Statement (.nor rd rs rt) :=
  registerWord_fixed _ _ _ _ _

theorem Encoding.slt (rd rs rt : RegNum) : Encoding.Statement (.slt rd rs rt) :=
  registerWord_fixed _ _ _ _ _

theorem Encoding.sltu (rd rs rt : RegNum) : Encoding.Statement (.sltu rd rs rt) :=
  registerWord_fixed _ _ _ _ _

theorem Encoding.beq (rs rt : RegNum) (imm : Half) : Encoding.Statement (.beq rs rt imm) :=
  immediateWord_fixed _ _ _ _

theorem Encoding.bne (rs rt : RegNum) (imm : Half) : Encoding.Statement (.bne rs rt imm) :=
  immediateWord_fixed _ _ _ _

theorem Encoding.blez (rs : RegNum) (imm : Half) : Encoding.Statement (.blez rs imm) :=
  immediateWord_fixed _ _ _ _

theorem Encoding.bgtz (rs : RegNum) (imm : Half) : Encoding.Statement (.bgtz rs imm) :=
  immediateWord_fixed _ _ _ _

theorem Encoding.addi (rt rs : RegNum) (imm : Half) : Encoding.Statement (.addi rt rs imm) :=
  immediateWord_fixed _ _ _ _

theorem Encoding.addiu (rt rs : RegNum) (imm : Half) : Encoding.Statement (.addiu rt rs imm) :=
  immediateWord_fixed _ _ _ _

theorem Encoding.slti (rt rs : RegNum) (imm : Half) : Encoding.Statement (.slti rt rs imm) :=
  immediateWord_fixed _ _ _ _

theorem Encoding.sltiu (rt rs : RegNum) (imm : Half) : Encoding.Statement (.sltiu rt rs imm) :=
  immediateWord_fixed _ _ _ _

theorem Encoding.andi (rt rs : RegNum) (imm : Half) : Encoding.Statement (.andi rt rs imm) :=
  immediateWord_fixed _ _ _ _

theorem Encoding.ori (rt rs : RegNum) (imm : Half) : Encoding.Statement (.ori rt rs imm) :=
  immediateWord_fixed _ _ _ _

theorem Encoding.xori (rt rs : RegNum) (imm : Half) : Encoding.Statement (.xori rt rs imm) :=
  immediateWord_fixed _ _ _ _

theorem Encoding.llo (rt : RegNum) (imm : Half) : Encoding.Statement (.llo rt imm) :=
  immediateWord_fixed _ _ _ _

theorem Encoding.lhi (rt : RegNum) (imm : Half) : Encoding.Statement (.lhi rt imm) :=
  immediateWord_fixed _ _ _ _

theorem Encoding.lb (rt rs : RegNum) (imm : Half) : Encoding.Statement (.lb rt rs imm) :=
  immediateWord_fixed _ _ _ _

theorem Encoding.lh (rt rs : RegNum) (imm : Half) : Encoding.Statement (.lh rt rs imm) :=
  immediateWord_fixed _ _ _ _

theorem Encoding.lw (rt rs : RegNum) (imm : Half) : Encoding.Statement (.lw rt rs imm) :=
  immediateWord_fixed _ _ _ _

theorem Encoding.lbu (rt rs : RegNum) (imm : Half) : Encoding.Statement (.lbu rt rs imm) :=
  immediateWord_fixed _ _ _ _

theorem Encoding.lhu (rt rs : RegNum) (imm : Half) : Encoding.Statement (.lhu rt rs imm) :=
  immediateWord_fixed _ _ _ _

theorem Encoding.sb (rt rs : RegNum) (imm : Half) : Encoding.Statement (.sb rt rs imm) :=
  immediateWord_fixed _ _ _ _

theorem Encoding.sh (rt rs : RegNum) (imm : Half) : Encoding.Statement (.sh rt rs imm) :=
  immediateWord_fixed _ _ _ _

theorem Encoding.sw (rt rs : RegNum) (imm : Half) : Encoding.Statement (.sw rt rs imm) :=
  immediateWord_fixed _ _ _ _

theorem Encoding.j (target : BitVec 26) : Encoding.Statement (.j target) :=
  jumpWord_fixed _ _

theorem Encoding.jal (target : BitVec 26) : Encoding.Statement (.jal target) :=
  jumpWord_fixed _ _

theorem Encoding.trap (code : BitVec 8) : Encoding.Statement (.trap code) :=
  jumpWord_fixed _ _

end Sys2Proof.Laws
end

