-- ==== Sys2Proof/Laws/Step.lean ====
section
/-!
SUPPORT. What a step can do, said once: one inversion lemma for exec and one for each layer of the step. Invariants follow
from these without unfolding the step again.
-/
namespace Sys2Proof.Machine

open Sys2Proof

variable {s t : State}

/-! ### One instruction -/

/-- Everything executing an instruction can do. -/
theorem exec_cases (i : Instr) (s : State) :
    (∃ r v, exec i s = .next (s.setReg r v).advance) ∨
    (∃ hi lo, exec i s = .next ((s.setHi hi).setLo lo).advance) ∨
    (∃ x, exec i s = .next (s.setPc x)) ∨
    (∃ r v x, exec i s = .next ((s.setReg r v).setPc x)) ∨
    (∃ a bs, a + List.length bs ≤ s.params.memCapacity ∧ exec i s = .next (s.storeBytes a bs).advance) ∨
    (∃ code, i = .trap code ∧ s.params.trapClass code = .sync ∧ exec i s = .next (s.emit [.hostEffect code]).advance) ∨
    (∃ code rule, i = .trap code ∧ s.params.trapClass code = .motion rule ∧
      exec i s = .next (s.suspendFor (motionRequest s.params code rule s.regs))) ∨
    (∃ code, i = .trap code ∧ s.params.trapClass code = .halt ∧ exec i s = .next s.haltProgram) ∨
    ∃ r, exec i s = .next (s.takeFault r) := by
  cases i with
  | trap code =>
    simp only [exec, execTrap]
    split
    · exact .inr (.inr (.inr (.inr (.inr (.inr (.inr (.inr ⟨_, rfl⟩)))))))
    · next h => exact .inr (.inr (.inr (.inr (.inr (.inr (.inr (.inl ⟨code, rfl, h, rfl⟩)))))))
    · next h => exact .inr (.inr (.inr (.inr (.inr (.inl ⟨code, rfl, h, rfl⟩)))))
    · next rule h => exact .inr (.inr (.inr (.inr (.inr (.inr (.inl ⟨code, rule, rfl, h, rfl⟩))))))
  | div rs rt =>
    simp only [exec, execDiv]
    split
    · exact .inr (.inr (.inr (.inr (.inr (.inr (.inr (.inr ⟨_, rfl⟩)))))))
    · exact .inr (.inl ⟨_, _, rfl⟩)
  | divu rs rt =>
    simp only [exec, execDivu]
    split
    · exact .inr (.inr (.inr (.inr (.inr (.inr (.inr (.inr ⟨_, rfl⟩)))))))
    · exact .inr (.inl ⟨_, _, rfl⟩)
  | mult | multu => exact .inr (.inl ⟨_, _, rfl⟩)
  | mthi rs => exact .inr (.inl ⟨s.reg rs, s.lo, rfl⟩)
  | mtlo rs => exact .inr (.inl ⟨s.hi, s.reg rs, rfl⟩)
  | beq | bne | blez | bgtz | j | jr => exact .inr (.inr (.inl ⟨_, rfl⟩))
  | jal | jalr => exact .inr (.inr (.inr (.inl ⟨_, _, _, rfl⟩)))
  | lb rt rs imm | lbu rt rs imm | lh rt rs imm | lhu rt rs imm | lw rt rs imm =>
    simp only [exec, execLb, execLbu, execLh, execLhu, execLw, loadFrom_eq]
    split
    · exact .inl ⟨_, _, rfl⟩
    · exact .inr (.inr (.inr (.inr (.inr (.inr (.inr (.inr ⟨_, rfl⟩)))))))
  | sb rt rs imm | sh rt rs imm | sw rt rs imm =>
    simp only [exec, execSb, execSh, execSw, storeTo_eq]
    split
    · next h => exact .inr (.inr (.inr (.inr (.inl ⟨_, _, h, rfl⟩))))
    · exact .inr (.inr (.inr (.inr (.inr (.inr (.inr (.inr ⟨_, rfl⟩)))))))
  | _ => exact .inl ⟨_, _, rfl⟩

/-! ### A run -/

/-- A fetch in bounds gives the word at pc (R44). -/
theorem fetch_inside (h : s.pc.toNat + 4 ≤ s.params.memCapacity) : s.fetch = some (Memory.word s.mem s.pc.toNat) := if_pos h

/-- A fetch out of bounds gives none (R44). -/
theorem fetch_outside (h : s.params.memCapacity < s.pc.toNat + 4) : s.fetch = none := if_neg (Nat.not_le.2 h)

@[simp] theorem fetch_setPhase (p : Phase) : (s.setPhase p).fetch = s.fetch := rfl

/-- An instruction step at or past the program's end (R171). -/
theorem instrStep_past_end (h : s.totSize.toNat ≤ s.pc.toNat) : s.instrStep = .next s.haltProgram := if_pos h

/-- An instruction step whose fetch is out of bounds (R44, R239). -/
theorem instrStep_no_fetch (h : s.pc.toNat < s.totSize.toNat) (hf : s.fetch = none) :
    s.instrStep = .next (s.takeFault (.memoryOutOfBounds s.pc)) := by
  unfold State.instrStep
  rw [if_neg (Nat.not_le.2 h), hf]

/-- An instruction step with a fetched word (R170). -/
theorem instrStep_fetched {w : Word} (h : s.pc.toNat < s.totSize.toNat) (hf : s.fetch = some w) :
    s.instrStep =
      match decodeWord w with
      | .invalidOpcode => .next (s.takeFault (.invalidOpcode w))
      | .invalidFunction => .next (s.takeFault (.invalidFunction w))
      | .instr i => exec i s := by
  refine (if_neg (Nat.not_le.2 h)).trans ?_
  cases hd : decodeWord w <;> simp only [hf, hd]

/-- A turn of the run with the budget used up (R175). -/
theorem runStep_used_up {n : Nat} (h : s.params.stepBudget = some n) : s.runStep n = .next (s.endRun .yielded) := if_pos h

/-- A turn of the run with budget left (R172). -/
theorem runStep_budget_left {n : Nat} (h : s.params.stepBudget ≠ some n) :
    s.runStep n = (s.setPhase (.inRun (n + 1))).instrStep := if_neg h

/-- Everything one turn of run_until_suspend can do (R170 to R175): yield, halt off the program's end, a fault before the
execution, or the execution of a decoded instruction. -/
theorem runStep_cases (n : Nat) (h : s.runStep n = .next t) :
    (s.params.stepBudget = some n ∧ t = s.endRun .yielded) ∨
    (s.params.stepBudget ≠ some n ∧
      ((s.totSize.toNat ≤ s.pc.toNat ∧ t = (s.setPhase (.inRun (n + 1))).haltProgram) ∨
        (s.pc.toNat < s.totSize.toNat ∧ ∃ r, t = (s.setPhase (.inRun (n + 1))).takeFault r) ∨
          (s.pc.toNat < s.totSize.toNat ∧ ∃ i, exec i (s.setPhase (.inRun (n + 1))) = .next t))) := by
  unfold State.runStep at h
  split at h
  · next hb =>
    injection h with h
    exact .inl ⟨hb, h.symm⟩
  · next hb =>
    refine .inr ⟨hb, ?_⟩
    unfold State.instrStep at h
    split at h
    · next hp =>
      injection h with h
      exact .inl ⟨hp, h.symm⟩
    · next hp =>
      have hp' : s.pc.toNat < s.totSize.toNat := by
        simp only [State.setPhase_totSize, State.setPhase_pc] at hp
        omega
      split at h
      · injection h with h
        exact .inr (.inl ⟨hp', _, h.symm⟩)
      · split at h
        · injection h with h
          exact .inr (.inl ⟨hp', _, h.symm⟩)
        · injection h with h
          exact .inr (.inl ⟨hp', _, h.symm⟩)
        · exact .inr (.inr ⟨hp', _, h⟩)

/-! ### The task state machine -/

/-- Everything a frame step can do in a ticked state (R190, R197, R207, R210): echo an unknown code, reset, take a size,
take program bytes. -/
theorem frameStep_cases (s : State)
    (hk : s.tmState = .idle ∨ s.tmState = .executing ∨ s.tmState = .moving ∨ s.tmState = .settling) :
    (commandOf (parseFrame s.rxFrame).code = .unknown ∧
      s.frameStep =
        s.consumeFrame.emitFrame .diag [(parseFrame s.rxFrame).code.1, (parseFrame s.rxFrame).code.2]) ∨
    (commandOf (parseFrame s.rxFrame).code = .rs ∧
      s.frameStep = (s.consumeFrame.setTask .resetting).resettingBody) ∨
    (commandOf (parseFrame s.rxFrame).code = .rd ∧
      s.frameStep =
        ((s.consumeFrame.setLoad s.totSize 0).setTask .receivingSize).receivingSizeBody s.rxFrame) ∨
    (commandOf (parseFrame s.rxFrame).code = .pk ∧
      s.frameStep =
        (s.consumeFrame.setTask .receivingPayload).receivingPayloadBody s.rxFrame) := by
  unfold State.frameStep State.dispatchCommand
  cases hc : commandOf (parseFrame s.rxFrame).code with
  | unknown =>
    refine .inl ⟨rfl, ?_⟩
    simp only [hc]
    unfold State.runTransient
    rcases hk with hk | hk | hk | hk <;> simp [hk]
  | rs =>
    refine .inr (.inl ⟨rfl, ?_⟩)
    simp only [hc]
    rfl
  | rd =>
    refine .inr (.inr (.inl ⟨rfl, ?_⟩))
    simp only [hc]
    rfl
  | pk =>
    refine .inr (.inr (.inr ⟨rfl, ?_⟩))
    simp only [hc]
    rfl

/-- Both ends of the ReceivingSize body (R192, R193). -/
theorem receivingSizeBody_eq (f : Frame) (s : State) :
    s.receivingSizeBody f =
      if s.params.memCapacity < declaredSize s.params (parseFrame f).payload then
        ((s.setLoad 0 0).emitFrame .overflow
          (bytesOfHalf (BitVec.ofNat 16 (declaredSize s.params (parseFrame f).payload)))).setTask .idle
      else
        ((s.setLoad (BitVec.ofNat 16 (declaredSize s.params (parseFrame f).payload)) 0).emitFrame .ackSize
          (bytesOfHalf (BitVec.ofNat 16 (declaredSize s.params (parseFrame f).payload)))).setTask .idle := rfl

/-- Both ends of the ReceivingPayload body (R195). -/
theorem receivingPayloadBody_eq (f : Frame) (s : State) :
    s.receivingPayloadBody f =
      if (s.copyPayload f).bytesIn = s.totSize then ((s.copyPayload f).freshInterpreter).setTask .executing
      else (s.copyPayload f).setTask .idle := rfl

/-- The copy of a "PK" frame advances bytes_in by the number of bytes it copies, without wrapping (R194). -/
theorem copyPayload_bytesIn (f : Frame) (h : s.bytesIn.toNat ≤ s.totSize.toNat) :
    (s.copyPayload f).bytesIn.toNat = s.bytesIn.toNat + copyCount s := by
  have hs := s.totSize.isLt
  have hb : copyCount s ≤ s.totSize.toNat - s.bytesIn.toNat := Nat.min_le_right _ _
  show (s.bytesIn + BitVec.ofNat 16 (copyCount s)).toNat = _
  rw [BitVec.toNat_add, BitVec.toNat_ofNat]
  omega

/-- Everything a tick step can do, by the state it is taken in (R208, R211, R212, R217, R218). `b` is the state after the
tick is consumed and the background polled. -/
theorem tickStep_cases (s : State) :
    let b := s.consumeTick.emit [.backgroundPoll]
    (s.tmState = .idle ∧ s.tickStep = b.idleTick) ∨
    (s.tmState = .executing ∧ s.halted = true ∧ s.tickStep = b.endRun .halted) ∨
    (s.tmState = .executing ∧ s.halted = false ∧ s.tickStep = b.resume.setPhase (.inRun 0)) ∨
    (s.tmState = .moving ∧ s.targetReached = true ∧ s.tickStep = b.stopMotion) ∨
    (s.tmState = .moving ∧ s.targetReached = false ∧ s.tickStep = b) ∨
    (s.tmState = .settling ∧ s.tickStep = b.settlingTick) ∨
    ((s.tmState = .resetting ∨ s.tmState = .receivingSize ∨ s.tmState = .receivingPayload) ∧ s.tickStep = b) := by
  intro b
  have hb : b.targetReached = s.targetReached := rfl
  have hh : b.halted = s.halted := rfl
  have he : s.tickStep =
      match s.tmState with
      | .idle => b.idleTick
      | .executing => b.executingTick
      | .moving => b.movingTick
      | .settling => b.settlingTick
      | .resetting => b
      | .receivingSize => b
      | .receivingPayload => b := rfl
  rw [he]
  unfold State.executingTick State.movingTick
  rw [hb, hh]
  clear_value b
  cases s.tmState
  case executing => cases s.halted <;> simp
  case moving => cases s.targetReached <;> simp
  all_goals simp

theorem tickStep_idle (h : s.tmState = .idle) : s.tickStep = (s.consumeTick.emit [.backgroundPoll]).idleTick := by
  simp [State.tickStep, h]

theorem tickStep_executing (h : s.tmState = .executing) :
    s.tickStep = (s.consumeTick.emit [.backgroundPoll]).executingTick := by simp [State.tickStep, h]

theorem tickStep_moving (h : s.tmState = .moving) : s.tickStep = (s.consumeTick.emit [.backgroundPoll]).movingTick := by
  simp [State.tickStep, h]

theorem tickStep_settling (h : s.tmState = .settling) :
    s.tickStep = (s.consumeTick.emit [.backgroundPoll]).settlingTick := by simp [State.tickStep, h]

/-- Both ends of a Settling tick (R218). -/
theorem settlingTick_eq (s : State) :
    s.settlingTick =
      if settleThreshold < (s.motion.debounce + 1).toNat then
        { s with motion := { s.motion with debounce := 0, active := false }, tmState := .executing, suspend := .none }
      else { s with motion := { s.motion with debounce := s.motion.debounce + 1 } } := rfl

/-- Everything an iteration of the control loop can do (R205). -/
theorem loopIteration_cases (s : State) :
    (s.pendingFrame = false ∧ s.pendingTick = false ∧ s.loopIteration = s) ∨
    (s.pendingFrame = true ∧ s.pendingTick = false ∧ s.loopIteration = s.frameStep) ∨
    (s.pendingFrame = false ∧ s.pendingTick = true ∧ s.loopIteration = s.tickStep) ∨
    (s.pendingFrame = true ∧ s.pendingTick = true ∧
      (s.loopIteration = s.nextChoice.frameStep ∨
        s.loopIteration = s.nextChoice.tickStep)) := by
  unfold State.loopIteration
  cases hf : s.pendingFrame <;> cases ht : s.pendingTick
  · exact .inl ⟨rfl, rfl, rfl⟩
  · exact .inr (.inr (.inl ⟨rfl, rfl, rfl⟩))
  · exact .inr (.inl ⟨rfl, rfl, rfl⟩)
  · refine .inr (.inr (.inr ⟨rfl, rfl, ?_⟩))
    dsimp only
    split
    · exact .inl rfl
    · exact .inr rfl

theorem loopIteration_frame (hf : s.pendingFrame = true) (ht : s.pendingTick = false) : s.loopIteration = s.frameStep := by
  unfold State.loopIteration
  rw [hf, ht]

theorem loopIteration_tick (hf : s.pendingFrame = false) (ht : s.pendingTick = true) : s.loopIteration = s.tickStep := by
  unfold State.loopIteration
  rw [hf, ht]

theorem loopIteration_wait (hf : s.pendingFrame = false) (ht : s.pendingTick = false) : s.loopIteration = s := by
  unfold State.loopIteration
  rw [hf, ht]

/-! ### The step -/

/-- Everything a step of the core can do: a turn of a run, the body of a transient state, or a loop iteration in a ticked
state. -/
theorem coreStep_cases (h : s.coreStep = .next t) :
    (∃ n, s.phase = .inRun n ∧ s.runStep n = .next t) ∨
    (s.phase = .atLoop ∧ (s.tmState = .resetting ∨ s.tmState = .receivingSize ∨ s.tmState = .receivingPayload) ∧
      t = s.runTransient) ∨
    (s.phase = .atLoop ∧ (s.tmState = .idle ∨ s.tmState = .executing ∨ s.tmState = .moving ∨ s.tmState = .settling) ∧
      t = s.loopIteration) := by
  unfold State.coreStep at h
  cases hp : s.phase with
  | inRun n =>
    simp only [hp] at h
    exact .inl ⟨n, rfl, h⟩
  | atLoop =>
    simp only [hp] at h
    cases hk : s.tmState <;> simp only [hk] at h <;> injection h with h <;> simp [h]

/-- In a ticked state with nothing arriving, the step is an iteration of the control loop. -/
theorem step_atLoop (hi : s.inputs = []) (hp : s.phase = .atLoop)
    (hk : s.tmState = .idle ∨ s.tmState = .executing ∨ s.tmState = .moving ∨ s.tmState = .settling) :
    step s = .next s.loopIteration := by
  unfold step State.scheduledStep State.coreStep
  rcases hk with hk | hk | hk | hk <;> simp only [hi, hp, hk]

/-- The same when the schedule says that nothing arrives. -/
theorem step_atLoop_quiet {rest : List Input} (hi : s.inputs = .quiet :: rest) (hp : s.phase = .atLoop)
    (hk : s.tmState = .idle ∨ s.tmState = .executing ∨ s.tmState = .moving ∨ s.tmState = .settling) :
    step s = .next (s.setInputs rest).loopIteration := by
  unfold step State.scheduledStep State.arrive State.coreStep
  rcases hk with hk | hk | hk | hk <;> simp [hi, hp, hk]

/-- A tick arrives. -/
theorem step_tick {rest : List Input} (hi : s.inputs = .tick :: rest) : step s = .next (s.setInputs rest).raiseTick := by
  unfold step State.scheduledStep
  rw [hi]
  rfl

/-- A frame arrives while none is pending. -/
theorem step_frame {f : Frame} {rest : List Input} (hi : s.inputs = .frame f :: rest) (hf : s.pendingFrame = false) :
    step s = .next ((s.setInputs rest).raiseFrame f) := by
  unfold step State.scheduledStep State.arrive
  simp [hi, hf]

/-- With nothing arriving, a step inside a run is a turn of the run. -/
theorem step_inRun {n : Nat} (hi : s.inputs = []) (hp : s.phase = .inRun n) : step s = s.runStep n := by
  unfold step State.scheduledStep State.coreStep
  simp only [hi, hp]

/-- Everything a step can do: an arrival, which sets its flag or value, or a step of the core. -/
theorem step_cases (h : step s = .next t) :
    (∃ rest, s.inputs = .tick :: rest ∧ t = (s.setInputs rest).raiseTick) ∨
    (∃ f rest, s.inputs = .frame f :: rest ∧ s.pendingFrame = false ∧
      t = (s.setInputs rest).raiseFrame f) ∨
    (∃ rest, s.inputs = .external :: rest ∧ t = (s.setInputs rest).raiseExternal) ∨
    (∃ counts rest, s.inputs = .encoders counts :: rest ∧ t = (s.setInputs rest).setEncoders counts) ∨
    ((s.inputs = [] ∨ ∃ rest, s.inputs = .quiet :: rest) ∧ (s.setInputs s.inputs.tail).coreStep = .next t) := by
  unfold step State.scheduledStep at h
  cases hi : s.inputs with
  | nil =>
    simp only [hi] at h
    refine .inr (.inr (.inr (.inr ⟨.inl rfl, ?_⟩)))
    rw [← h, List.tail_nil, ← hi]
    rfl
  | cons e rest =>
    simp only [hi] at h
    cases e with
    | tick =>
      injection h with h
      exact .inl ⟨rest, rfl, h.symm⟩
    | frame f =>
      unfold State.arrive at h
      dsimp only at h
      split at h
      · cases h
      · next hf =>
        injection h with h
        exact .inr (.inl ⟨f, rest, rfl, by simpa using hf, h.symm⟩)
    | external =>
      injection h with h
      exact .inr (.inr (.inl ⟨rest, rfl, h.symm⟩))
    | encoders counts =>
      injection h with h
      exact .inr (.inr (.inr (.inl ⟨counts, rest, rfl, h.symm⟩)))
    | quiet => exact .inr (.inr (.inr (.inr ⟨.inr ⟨rest, rfl⟩, h⟩)))

/-! ### Several steps -/

@[simp] theorem runSteps_zero (s : State) : runSteps 0 s = .next s := rfl

/-- The first of several steps. -/
theorem runSteps_succ (k : Nat) (h : step s = .next t) : runSteps (k + 1) s = runSteps k t := by
  rw [runSteps, h]

/-- Several steps one after the other. -/
theorem runSteps_add (j k : Nat) (h : runSteps j s = .next t) : runSteps (j + k) s = runSteps k t := by
  induction j generalizing s with
  | zero =>
    injection h with h
    rw [h, Nat.zero_add]
  | succ j ih =>
    rw [runSteps] at h
    split at h
    · next u hu => rw [Nat.add_right_comm, runSteps_succ _ hu, ih h]
    · cases h
    · cases h

end Sys2Proof.Machine
end

