-- ==== Sys2Proof/Tests/Slice0.lean ====
section
/-!
SUPPORT. The model's own tests: ill-formed parameters, the decoding of every instruction from a word written out by hand, one or
two steps of each instruction against the spec's vectors, and for every statement with hypotheses a state that meets them.
-/
namespace Sys2Proof.Tests

open Sys2Proof Sys2Proof.Machine

/-! ### Helpers -/

/-- The state of 95_test_vectors.md's single-instruction tests: the word stands at pc, Memory has 4096 bytes, tot_size is 4096,
and the interpreter is inside a run. -/
def start (pc w : Word) (regs : List (RegNum × Word)) (hi lo : Word) (bytes : List (Nat × Byte)) : State :=
  let s : State :=
    { State.reset with
      pc := pc
      hi := hi
      lo := lo
      halted := false
      tmState := .executing
      totSize := 4096
      phase := .inRun 0
      mem := bytes.foldl (fun m b => Memory.writeByte m b.1 b.2) (Memory.writeBytes [] pc.toNat (bytesOfWord w)) }
  regs.foldl (fun s r => s.setReg r.1 r.2) s

/-- One step gives a next state with these registers, HI, LO, bytes and pc, and the interpreter runs on. -/
def gives (s : State) (regs : List (RegNum × Word)) (hi lo : Word) (bytes : List (Nat × Byte)) (pc : Word) : Bool :=
  match step s with
  | .next t =>
    regs.all (fun r => t.reg r.1 == r.2) && t.hi == hi && t.lo == lo &&
      bytes.all (fun b => Memory.byte t.mem b.1 == b.2) && t.pc == pc && t.phase == .inRun 1 && t.reg 0 == 0
  | .fault _ => false
  | .refused _ => false

/-- One step takes the fault and leaves the registers, HI, LO, pc and Memory as they were. -/
def faults (s : State) (r : FaultReason) : Bool :=
  match step s with
  | .next t =>
    t.lastOutcome == some (.faulted r) && t.regs == s.regs && t.hi == s.hi && t.lo == s.lo && t.pc == s.pc &&
      t.mem == s.mem && t.halted && t.tmState == .idle
  | .fault _ => false
  | .refused _ => false

/-! ### Well-formedness: a record that each check refuses -/

theorem test_default_params_wf : Params.default.wf = true := by decide

/-- MEM_CAPACITY below 4 (R5). -/
theorem test_wf_refuses_small_capacity : Params.capacityOk { Params.default with memCapacity := 3 } = false := by decide

/-- MEM_CAPACITY above 2^32 - 1 (R5). -/
theorem test_wf_refuses_large_capacity : Params.capacityOk { Params.default with memCapacity := 2 ^ 32 } = false := by decide

/-- STEP_BUDGET 0 (R5). -/
theorem test_wf_refuses_zero_budget : Params.budgetOk { Params.default with stepBudget := some 0 } = false := by decide

/-- No axis (R5). -/
theorem test_wf_refuses_no_axes : Params.axesOk { Params.default with axes := [] } = false := by decide

/-- An axis named twice. -/
theorem test_wf_refuses_double_axis : Params.axesOk { Params.default with axes := [1, 1] } = false := by decide

/-- Equal size offsets (92_eei_decisions.md D28). -/
theorem test_wf_refuses_equal_offsets : Params.offsetsOk { Params.default with sizeOffLo := 0 } = false := by decide

/-- A request for an axis outside AXES (R166). -/
theorem test_wf_refuses_foreign_axis :
    Params.classOk Params.default (.motion (.fixed { axes := [2], target := 0, speed := 0 })) = false := by decide

/-- A request for no axis (R166). -/
theorem test_wf_refuses_empty_request : Params.requestOk Params.default { axes := [], target := 0, speed := 0 } = false := by
  decide

/-- A TRAP_TABLE with no Halt code (R166). -/
theorem test_wf_refuses_no_halt_code :
    Params.tableOk { Params.default with trapTable := [(0x10, .motion .computed)] } = false := by decide

/-- A TRAP_TABLE with no Motion code (R166). -/
theorem test_wf_refuses_no_motion_code : Params.tableOk { Params.default with trapTable := [(0, .halt)] } = false := by decide

/-- The whole check refuses what one of its parts refuses. -/
theorem test_wf_refuses_ill_formed : Params.wf { Params.default with memCapacity := 3 } = false := by decide

/-! ### Decoding: each word written out field by field from its encoding in 30_encoding.md -/

/-! ### Register arithmetic and logic (40_register_alu.md) -/

/-- `add $3,$1,$2` is 0x00221820 (vector A1). -/
theorem test_decode_add : decodeWord 0b000000_00001_00010_00011_00000_100000 = .instr (.add 3 1 2) := by decide

/-- `addu $3,$1,$2` is 0x00221821 (vector A7). -/
theorem test_decode_addu : decodeWord 0b000000_00001_00010_00011_00000_100001 = .instr (.addu 3 1 2) := by decide

/-- `sub $3,$1,$2` is 0x00221822 (vector A9). -/
theorem test_decode_sub : decodeWord 0b000000_00001_00010_00011_00000_100010 = .instr (.sub 3 1 2) := by decide

/-- `subu $3,$1,$2` is 0x00221823 (vector A12). -/
theorem test_decode_subu : decodeWord 0b000000_00001_00010_00011_00000_100011 = .instr (.subu 3 1 2) := by decide

/-- `and $3,$1,$2` is 0x00221824 (vector A13). -/
theorem test_decode_and : decodeWord 0b000000_00001_00010_00011_00000_100100 = .instr (.and 3 1 2) := by decide

/-- `or $3,$1,$2` is 0x00221825 (vector A14). -/
theorem test_decode_or : decodeWord 0b000000_00001_00010_00011_00000_100101 = .instr (.or 3 1 2) := by decide

/-- `xor $3,$1,$2` is 0x00221826 (vector A15). -/
theorem test_decode_xor : decodeWord 0b000000_00001_00010_00011_00000_100110 = .instr (.xor 3 1 2) := by decide

/-- `nor $3,$1,$2` is 0x00221827 (vector A16). -/
theorem test_decode_nor : decodeWord 0b000000_00001_00010_00011_00000_100111 = .instr (.nor 3 1 2) := by decide

/-- `slt $3,$1,$2` is 0x0022182A (vector A18). -/
theorem test_decode_slt : decodeWord 0b000000_00001_00010_00011_00000_101010 = .instr (.slt 3 1 2) := by decide

/-- `sltu $3,$1,$2` is 0x0022182B (vector A22). -/
theorem test_decode_sltu : decodeWord 0b000000_00001_00010_00011_00000_101011 = .instr (.sltu 3 1 2) := by decide


/-! ### Shifts (41_shifts.md) -/

/-- `sll $3,$2,4` is 0x00021900 (vector H1). -/
theorem test_decode_sll : decodeWord 0b000000_00000_00010_00011_00100_000000 = .instr (.sll 3 2 4) := by decide

/-- `srl $3,$2,4` is 0x00021902 (vector H5). -/
theorem test_decode_srl : decodeWord 0b000000_00000_00010_00011_00100_000010 = .instr (.srl 3 2 4) := by decide

/-- `sra $3,$2,4` is 0x00021903 (vector H7). -/
theorem test_decode_sra : decodeWord 0b000000_00000_00010_00011_00100_000011 = .instr (.sra 3 2 4) := by decide

/-- `sllv $3,$2,$1` is 0x00221804 (vector H11). -/
theorem test_decode_sllv : decodeWord 0b000000_00001_00010_00011_00000_000100 = .instr (.sllv 3 2 1) := by decide

/-- `srlv $3,$2,$1` is 0x00221806 (vector H14). -/
theorem test_decode_srlv : decodeWord 0b000000_00001_00010_00011_00000_000110 = .instr (.srlv 3 2 1) := by decide

/-- `srav $3,$2,$1` is 0x00221807 (vector H16). -/
theorem test_decode_srav : decodeWord 0b000000_00001_00010_00011_00000_000111 = .instr (.srav 3 2 1) := by decide


/-! ### Multiply, divide, HI and LO (42_muldiv_hilo.md) -/

/-- `mult $1,$2` is 0x00220018 (vector M1). -/
theorem test_decode_mult : decodeWord 0b000000_00001_00010_00000_00000_011000 = .instr (.mult 1 2) := by decide

/-- `multu $1,$2` is 0x00220019 (vector M6). -/
theorem test_decode_multu : decodeWord 0b000000_00001_00010_00000_00000_011001 = .instr (.multu 1 2) := by decide

/-- `div $1,$2` is 0x0022001A (vector M8). -/
theorem test_decode_div : decodeWord 0b000000_00001_00010_00000_00000_011010 = .instr (.div 1 2) := by decide

/-- `divu $1,$2` is 0x0022001B (vector M17). -/
theorem test_decode_divu : decodeWord 0b000000_00001_00010_00000_00000_011011 = .instr (.divu 1 2) := by decide

/-- `mfhi $3` is 0x00001810 (vector M20). -/
theorem test_decode_mfhi : decodeWord 0b000000_00000_00000_00011_00000_010000 = .instr (.mfhi 3) := by decide

/-- `mflo $3` is 0x00001812 (vector M21). -/
theorem test_decode_mflo : decodeWord 0b000000_00000_00000_00011_00000_010010 = .instr (.mflo 3) := by decide

/-- `mthi $1` is 0x00200011 (vector M23). -/
theorem test_decode_mthi : decodeWord 0b000000_00001_00000_00000_00000_010001 = .instr (.mthi 1) := by decide

/-- `mtlo $1` is 0x00200013 (vector M24). -/
theorem test_decode_mtlo : decodeWord 0b000000_00001_00000_00000_00000_010011 = .instr (.mtlo 1) := by decide


/-! ### Immediates (43_immediate_alu.md) -/

/-- `addi $2,$1,-1` is 0x2022FFFF (vector I1). -/
theorem test_decode_addi : decodeWord 0b001000_00001_00010_1111111111111111 = .instr (.addi 2 1 0xffff) := by decide

/-- `addiu $2,$1,-1` is 0x2422FFFF (vector I7). -/
theorem test_decode_addiu : decodeWord 0b001001_00001_00010_1111111111111111 = .instr (.addiu 2 1 0xffff) := by decide

/-- `andi $2,$1,0xFF00` is 0x3022FF00 (vector I9). -/
theorem test_decode_andi : decodeWord 0b001100_00001_00010_1111111100000000 = .instr (.andi 2 1 0xff00) := by decide

/-- `ori $2,$1,0xFF00` is 0x3422FF00 (vector I11). -/
theorem test_decode_ori : decodeWord 0b001101_00001_00010_1111111100000000 = .instr (.ori 2 1 0xff00) := by decide

/-- `xori $2,$1,0xFFFF` is 0x3822FFFF (vector I13). -/
theorem test_decode_xori : decodeWord 0b001110_00001_00010_1111111111111111 = .instr (.xori 2 1 0xffff) := by decide

/-- `lhi $2,0x1234` is 0x64021234 (vector I14). -/
theorem test_decode_lhi : decodeWord 0b011001_00000_00010_0001001000110100 = .instr (.lhi 2 0x1234) := by decide

/-- `llo $2,0x5678` is 0x60025678 (vector I17). -/
theorem test_decode_llo : decodeWord 0b011000_00000_00010_0101011001111000 = .instr (.llo 2 0x5678) := by decide

/-- `slti $2,$1,-1` is 0x2822FFFF (vector I19). -/
theorem test_decode_slti : decodeWord 0b001010_00001_00010_1111111111111111 = .instr (.slti 2 1 0xffff) := by decide

/-- `sltiu $2,$1,-1` is 0x2C22FFFF (vector I22). -/
theorem test_decode_sltiu : decodeWord 0b001011_00001_00010_1111111111111111 = .instr (.sltiu 2 1 0xffff) := by decide


/-! ### Control transfer (44_control_transfer.md) -/

/-- `beq $1,$2,0x20` is 0x10220003 (vector B1). -/
theorem test_decode_beq : decodeWord 0b000100_00001_00010_0000000000000011 = .instr (.beq 1 2 0x3) := by decide

/-- `bne $1,$2,0x0C` is 0x1422FFFE (vector B6). -/
theorem test_decode_bne : decodeWord 0b000101_00001_00010_1111111111111110 = .instr (.bne 1 2 0xfffe) := by decide

/-- `blez $1,0x18` is 0x18200001 (vector B8). -/
theorem test_decode_blez : decodeWord 0b000110_00001_00000_0000000000000001 = .instr (.blez 1 0x1) := by decide

/-- `bgtz $1,0x10` is 0x1C20FFFF (vector B11). -/
theorem test_decode_bgtz : decodeWord 0b000111_00001_00000_1111111111111111 = .instr (.bgtz 1 0xffff) := by decide

/-- `j 0x40` is 0x08000010 (vector B15). -/
theorem test_decode_j : decodeWord 0b000010_00000000000000000000010000 = .instr (.j 0x10) := by decide

/-- `jal 0x40` is 0x0C000010 (vector B17). -/
theorem test_decode_jal : decodeWord 0b000011_00000000000000000000010000 = .instr (.jal 0x10) := by decide

/-- `jr $31` is 0x03E00008 (vector B18). -/
theorem test_decode_jr : decodeWord 0b000000_11111_00000_00000_00000_001000 = .instr (.jr 31) := by decide

/-- `jalr $31,$4` is 0x0080F809 (vector B21). -/
theorem test_decode_jalr : decodeWord 0b000000_00100_00000_11111_00000_001001 = .instr (.jalr 31 4) := by decide


/-! ### Loads and stores (45_load_store.md) -/

/-- `lb $2,3($1)` is 0x80220003 (vector L1). -/
theorem test_decode_lb : decodeWord 0b100000_00001_00010_0000000000000011 = .instr (.lb 2 1 0x3) := by decide

/-- `lbu $2,3($1)` is 0x90220003 (vector L4). -/
theorem test_decode_lbu : decodeWord 0b100100_00001_00010_0000000000000011 = .instr (.lbu 2 1 0x3) := by decide

/-- `lh $2,2($1)` is 0x84220002 (vector L5). -/
theorem test_decode_lh : decodeWord 0b100001_00001_00010_0000000000000010 = .instr (.lh 2 1 0x2) := by decide

/-- `lhu $2,2($1)` is 0x94220002 (vector L7). -/
theorem test_decode_lhu : decodeWord 0b100101_00001_00010_0000000000000010 = .instr (.lhu 2 1 0x2) := by decide

/-- `lw $2,-4($1)` is 0x8C22FFFC (vector L8). -/
theorem test_decode_lw : decodeWord 0b100011_00001_00010_1111111111111100 = .instr (.lw 2 1 0xfffc) := by decide

/-- `sb $2,0($1)` is 0xA0220000 (vector L13). -/
theorem test_decode_sb : decodeWord 0b101000_00001_00010_0000000000000000 = .instr (.sb 2 1 0x0) := by decide

/-- `sh $2,2($1)` is 0xA4220002 (vector L14). -/
theorem test_decode_sh : decodeWord 0b101001_00001_00010_0000000000000010 = .instr (.sh 2 1 0x2) := by decide

/-- `sw $2,8($1)` is 0xAC220008 (vector L16). -/
theorem test_decode_sw : decodeWord 0b101011_00001_00010_0000000000001000 = .instr (.sw 2 1 0x8) := by decide


/-! ### trap (46_trap_dispatch.md) -/

/-- `trap 16` is 0x68000010 (vector T3). -/
theorem test_decode_trap : decodeWord 0b011010_00000000000000000000010000 = .instr (.trap 0x10) := by decide

/-! ### One step of each instruction, against the vectors of 95_test_vectors.md -/

/-- Vector A2: `add $3,$1,$2` (rule R81). -/
theorem test_step_add_A2 :
    gives (start 0x100 0x00221820 [(1, 0x7FFFFFFF), (2, 1)] 0 0 []) [(3, 0x80000000)] 0 0 [] 0x104 = true := by decide

/-- Vector A4: `add $2,$2,$2` (rule R81). -/
theorem test_step_add_A4 :
    gives (start 0x100 0x00421020 [(2, 0x40000001)] 0 0 []) [(2, 0x80000002)] 0 0 [] 0x104 = true := by decide

/-- Vector A7: `addu $3,$1,$2` (rule R82). -/
theorem test_step_addu_A7 :
    gives (start 0x100 0x00221821 [(1, 0xFFFFFFFF), (2, 1), (3, 9)] 0 0 []) [(3, 0)] 0 0 [] 0x104 = true := by decide

/-- Vector A8: `addu $3,$1,$2` (rule R82). -/
theorem test_step_addu_A8 :
    gives (start 0x100 0x00221821 [(1, 0x80000000), (2, 0x80000000), (3, 9)] 0 0 []) [(3, 0)] 0 0 [] 0x104 = true := by decide

/-- Vector A9: `sub $3,$1,$2` (rule R83). -/
theorem test_step_sub_A9 :
    gives (start 0x100 0x00221822 [(1, 5), (2, 7)] 0 0 []) [(3, 0xFFFFFFFE)] 0 0 [] 0x104 = true := by decide

/-- Vector A10: `sub $3,$1,$2` (rule R83). -/
theorem test_step_sub_A10 :
    gives (start 0x100 0x00221822 [(1, 0x80000000), (2, 1)] 0 0 []) [(3, 0x7FFFFFFF)] 0 0 [] 0x104 = true := by decide

/-- Vector A12: `subu $3,$1,$2` (rule R84). -/
theorem test_step_subu_A12 :
    gives (start 0x100 0x00221823 [(1, 0), (2, 1)] 0 0 []) [(3, 0xFFFFFFFF)] 0 0 [] 0x104 = true := by decide

/-- Vector A13: `and $3,$1,$2` (rule R85). -/
theorem test_step_and_A13 :
    gives (start 0x100 0x00221824 [(1, 0xF0F0FF00), (2, 0xFF0F0F0)] 0 0 []) [(3, 0xF0F000)] 0 0 [] 0x104 = true := by decide

/-- Vector A14: `or $3,$1,$2` (rule R86). -/
theorem test_step_or_A14 :
    gives (start 0x100 0x00221825 [(1, 0xF0F0FF00), (2, 0xFF0F0F0)] 0 0 []) [(3, 0xFFF0FFF0)] 0 0 [] 0x104 = true := by decide

/-- Vector A15: `xor $3,$1,$2` (rule R87). -/
theorem test_step_xor_A15 :
    gives (start 0x100 0x00221826 [(1, 0xF0F0FF00), (2, 0xFF0F0F0)] 0 0 []) [(3, 0xFF000FF0)] 0 0 [] 0x104 = true := by decide

/-- Vector A16: `nor $3,$1,$2` (rule R88). -/
theorem test_step_nor_A16 :
    gives (start 0x100 0x00221827 [(1, 0xF0F0FF00), (2, 0xFF0F0F0)] 0 0 []) [(3, 0xF000F)] 0 0 [] 0x104 = true := by decide

/-- Vector A17: `nor $3,$0,$0` (rule R88). -/
theorem test_step_nor_A17 :
    gives (start 0x100 0x00001827 [] 0 0 []) [(3, 0xFFFFFFFF)] 0 0 [] 0x104 = true := by decide

/-- Vector A19: `slt $3,$1,$2` (rule R89). -/
theorem test_step_slt_A19 :
    gives (start 0x100 0x0022182A [(1, 0x80000000), (2, 0x7FFFFFFF)] 0 0 []) [(3, 1)] 0 0 [] 0x104 = true := by decide

/-- Vector A20: `slt $3,$1,$2` (rule R89). -/
theorem test_step_slt_A20 :
    gives (start 0x100 0x0022182A [(1, 0x7FFFFFFF), (2, 0x80000000), (3, 7)] 0 0 []) [(3, 0)] 0 0 [] 0x104 = true := by decide

/-- Vector A22: `sltu $3,$1,$2` (rule R90). -/
theorem test_step_sltu_A22 :
    gives (start 0x100 0x0022182B [(1, 0xFFFFFFFF), (2, 1), (3, 7)] 0 0 []) [(3, 0)] 0 0 [] 0x104 = true := by decide

/-- Vector A23: `sltu $3,$1,$2` (rule R90). -/
theorem test_step_sltu_A23 :
    gives (start 0x100 0x0022182B [(1, 0x7FFFFFFF), (2, 0x80000000)] 0 0 []) [(3, 1)] 0 0 [] 0x104 = true := by decide

/-- Vector H1: `sll $3,$2,4` (rule R96). -/
theorem test_step_sll_H1 :
    gives (start 0x100 0x00021900 [(2, 0x12345678)] 0 0 []) [(3, 0x23456780)] 0 0 [] 0x104 = true := by decide

/-- Vector H3: `sll $3,$2,31` (rule R96). -/
theorem test_step_sll_H3 :
    gives (start 0x100 0x00021FC0 [(2, 3)] 0 0 []) [(3, 0x80000000)] 0 0 [] 0x104 = true := by decide

/-- Vector H5: `srl $3,$2,4` (rule R97). -/
theorem test_step_srl_H5 :
    gives (start 0x100 0x00021902 [(2, 0x87654321)] 0 0 []) [(3, 0x8765432)] 0 0 [] 0x104 = true := by decide

/-- Vector H6: `srl $3,$2,31` (rule R97). -/
theorem test_step_srl_H6 :
    gives (start 0x100 0x00021FC2 [(2, 0x80000000)] 0 0 []) [(3, 1)] 0 0 [] 0x104 = true := by decide

/-- Vector H7: `sra $3,$2,4` (rule R98). -/
theorem test_step_sra_H7 :
    gives (start 0x100 0x00021903 [(2, 0x87654321)] 0 0 []) [(3, 0xF8765432)] 0 0 [] 0x104 = true := by decide

/-- Vector H8: `sra $3,$2,31` (rule R98). -/
theorem test_step_sra_H8 :
    gives (start 0x100 0x00021FC3 [(2, 0x80000000)] 0 0 []) [(3, 0xFFFFFFFF)] 0 0 [] 0x104 = true := by decide

/-- Vector H11: `sllv $3,$2,$1` (rules R99, R95). -/
theorem test_step_sllv_H11 :
    gives (start 0x100 0x00221804 [(1, 0x24), (2, 0x12345678)] 0 0 []) [(3, 0x23456780)] 0 0 [] 0x104 = true := by decide

/-- Vector H12: `sllv $3,$2,$1` (rules R99, R95). -/
theorem test_step_sllv_H12 :
    gives (start 0x100 0x00221804 [(1, 0x20), (2, 0x12345678)] 0 0 []) [(3, 0x12345678)] 0 0 [] 0x104 = true := by decide

/-- Vector H14: `srlv $3,$2,$1` (rule R100). -/
theorem test_step_srlv_H14 :
    gives (start 0x100 0x00221806 [(1, 4), (2, 0x87654321)] 0 0 []) [(3, 0x8765432)] 0 0 [] 0x104 = true := by decide

/-- Vector H15: `srlv $3,$2,$1` (rules R100, R95). -/
theorem test_step_srlv_H15 :
    gives (start 0x100 0x00221806 [(1, 0x21), (2, 0x87654321)] 0 0 []) [(3, 0x43B2A190)] 0 0 [] 0x104 = true := by decide

/-- Vector H16: `srav $3,$2,$1` (rule R101). -/
theorem test_step_srav_H16 :
    gives (start 0x100 0x00221807 [(1, 4), (2, 0x87654321)] 0 0 []) [(3, 0xF8765432)] 0 0 [] 0x104 = true := by decide

/-- Vector H18: `srav $2,$2,$2` (rules R101, R95). -/
theorem test_step_srav_H18 :
    gives (start 0x100 0x00421007 [(2, 0x80000008)] 0 0 []) [(2, 0xFF800000)] 0 0 [] 0x104 = true := by decide

/-- Vector M1: `mult $1,$2` (rule R106). -/
theorem test_step_mult_M1 :
    gives (start 0x100 0x00220018 [(1, 0xFFFFFFFE), (2, 3)] 0 0 []) [] 0xFFFFFFFF 0xFFFFFFFA [] 0x104 = true := by decide

/-- Vector M2: `mult $1,$2` (rule R106). -/
theorem test_step_mult_M2 :
    gives (start 0x100 0x00220018 [(1, 0x80000000), (2, 0x80000000)] 1 1 []) [] 0x40000000 0 [] 0x104 = true := by decide

/-- Vector M6: `multu $1,$2` (rule R107). -/
theorem test_step_multu_M6 :
    gives (start 0x100 0x00220019 [(1, 0xFFFFFFFE), (2, 3)] 0 0 []) [] 2 0xFFFFFFFA [] 0x104 = true := by decide

/-- Vector M7: `multu $1,$2` (rule R107). -/
theorem test_step_multu_M7 :
    gives (start 0x100 0x00220019 [(1, 0xFFFFFFFF), (2, 0xFFFFFFFF)] 0 0 []) [] 0xFFFFFFFE 1 [] 0x104 = true := by decide

/-- Vector M9: `div $1,$2` (rule R108). -/
theorem test_step_div_M9 :
    gives (start 0x100 0x0022001A [(1, 0xFFFFFFF9), (2, 2)] 0 0 []) [] 0xFFFFFFFF 0xFFFFFFFD [] 0x104 = true := by decide

/-- Vector M15: `div $1,$2` (rules R108, R238). -/
theorem test_step_div_M15 :
    faults (start 0x100 0x0022001A [(1, 7), (2, 0)] 0x11 0x22 []) .divideByZero = true := by decide

/-- Vector M17: `divu $1,$2` (rule R109). -/
theorem test_step_divu_M17 :
    gives (start 0x100 0x0022001B [(1, 0xFFFFFFF9), (2, 2)] 0 0 []) [] 1 0x7FFFFFFC [] 0x104 = true := by decide

/-- Vector M19: `divu $1,$2` (rule R109). -/
theorem test_step_divu_M19 :
    faults (start 0x100 0x0022001B [(1, 7), (2, 0)] 0x11 0x22 []) .divideByZero = true := by decide

/-- Vector M20: `mfhi $3` (rule R110). -/
theorem test_step_mfhi_M20 :
    gives (start 0x100 0x00001810 [] 0xFFFFFFFF 5 []) [(3, 0xFFFFFFFF)] 0xFFFFFFFF 5 [] 0x104 = true := by decide

/-- Vector M21: `mflo $3` (rule R111). -/
theorem test_step_mflo_M21 :
    gives (start 0x100 0x00001812 [] 1 0xFFFFFFFA []) [(3, 0xFFFFFFFA)] 1 0xFFFFFFFA [] 0x104 = true := by decide

/-- Vector M23: `mthi $1` (rule R112). -/
theorem test_step_mthi_M23 :
    gives (start 0x100 0x00200011 [(1, 0x12345678)] 0 5 []) [] 0x12345678 5 [] 0x104 = true := by decide

/-- Vector M24: `mtlo $1` (rule R113). -/
theorem test_step_mtlo_M24 :
    gives (start 0x100 0x00200013 [(1, 0x12345678)] 5 0 []) [] 5 0x12345678 [] 0x104 = true := by decide

/-- Vector I1: `addi $2,$1,-1` (rule R121). -/
theorem test_step_addi_I1 :
    gives (start 0x100 0x2022FFFF [(1, 0)] 0 0 []) [(2, 0xFFFFFFFF)] 0 0 [] 0x104 = true := by decide

/-- Vector I2: `addi $2,$1,1` (rule R121). -/
theorem test_step_addi_I2 :
    gives (start 0x100 0x20220001 [(1, 0x7FFFFFFF)] 0 0 []) [(2, 0x80000000)] 0 0 [] 0x104 = true := by decide

/-- Vector I7: `addiu $2,$1,-1` (rule R122). -/
theorem test_step_addiu_I7 :
    gives (start 0x100 0x2422FFFF [(1, 0x10)] 0 0 []) [(2, 0xF)] 0 0 [] 0x104 = true := by decide

/-- Vector I8: `addiu $2,$1,0x7FFF` (rule R122). -/
theorem test_step_addiu_I8 :
    gives (start 0x100 0x24227FFF [(1, 0xFFFFFFFF)] 0 0 []) [(2, 0x7FFE)] 0 0 [] 0x104 = true := by decide

/-- Vector I10: `andi $2,$1,0xFFFF` (rule R123). -/
theorem test_step_andi_I10 :
    gives (start 0x100 0x3022FFFF [(1, 0xFFFFFFFF)] 0 0 []) [(2, 0xFFFF)] 0 0 [] 0x104 = true := by decide

/-- Vector I11: `ori $2,$1,0xFF00` (rule R124). -/
theorem test_step_ori_I11 :
    gives (start 0x100 0x3422FF00 [(1, 0x12345678)] 0 0 []) [(2, 0x1234FF78)] 0 0 [] 0x104 = true := by decide

/-- Vector I13: `xori $2,$1,0xFFFF` (rule R125). -/
theorem test_step_xori_I13 :
    gives (start 0x100 0x3822FFFF [(1, 0x12345678)] 0 0 []) [(2, 0x1234A987)] 0 0 [] 0x104 = true := by decide

/-- Vector I14: `lhi $2,0x1234` (rule R126). -/
theorem test_step_lhi_I14 :
    gives (start 0x100 0x64021234 [(2, 0xAAAABBBB)] 0 0 []) [(2, 0x1234BBBB)] 0 0 [] 0x104 = true := by decide

/-- Vector I17: `llo $2,0x5678` (rule R127). -/
theorem test_step_llo_I17 :
    gives (start 0x100 0x60025678 [(2, 0x1234BBBB)] 0 0 []) [(2, 0x12345678)] 0 0 [] 0x104 = true := by decide

/-- Vector I19: `slti $2,$1,-1` (rule R128). -/
theorem test_step_slti_I19 :
    gives (start 0x100 0x2822FFFF [(1, 0xFFFFFFFE)] 0 0 []) [(2, 1)] 0 0 [] 0x104 = true := by decide

/-- Vector I20: `slti $2,$1,-1` (rule R128). -/
theorem test_step_slti_I20 :
    gives (start 0x100 0x2822FFFF [(1, 0), (2, 9)] 0 0 []) [(2, 0)] 0 0 [] 0x104 = true := by decide

/-- Vector I22: `sltiu $2,$1,-1` (rule R129). -/
theorem test_step_sltiu_I22 :
    gives (start 0x100 0x2C22FFFF [(1, 5)] 0 0 []) [(2, 1)] 0 0 [] 0x104 = true := by decide

/-- Vector I23: `sltiu $2,$1,-1` (rule R129). -/
theorem test_step_sltiu_I23 :
    gives (start 0x100 0x2C22FFFF [(1, 0xFFFFFFFF), (2, 9)] 0 0 []) [(2, 0)] 0 0 [] 0x104 = true := by decide

/-- Vector B1: `beq $1,$2,0x20` (rule R136). -/
theorem test_step_beq_B1 :
    gives (start 0x10 0x10220003 [(1, 7), (2, 7)] 0 0 []) [] 0 0 [] 0x20 = true := by decide

/-- Vector B2: `beq $1,$2,0x20` (rule R136). -/
theorem test_step_beq_B2 :
    gives (start 0x10 0x10220003 [(1, 7), (2, 8)] 0 0 []) [] 0 0 [] 0x14 = true := by decide

/-- Vector B6: `bne $1,$2,0x0C` (rule R137). -/
theorem test_step_bne_B6 :
    gives (start 0x10 0x1422FFFE [(1, 7), (2, 8)] 0 0 []) [] 0 0 [] 0xC = true := by decide

/-- Vector B7: `bne $1,$2,0x0C` (rule R137). -/
theorem test_step_bne_B7 :
    gives (start 0x10 0x1422FFFE [(1, 7), (2, 7)] 0 0 []) [] 0 0 [] 0x14 = true := by decide

/-- Vector B8: `blez $1,0x18` (rule R138). -/
theorem test_step_blez_B8 :
    gives (start 0x10 0x18200001 [(1, 0)] 0 0 []) [] 0 0 [] 0x18 = true := by decide

/-- Vector B9: `blez $1,0x18` (rule R138). -/
theorem test_step_blez_B9 :
    gives (start 0x10 0x18200001 [(1, 1)] 0 0 []) [] 0 0 [] 0x14 = true := by decide

/-- Vector B11: `bgtz $1,0x10` (rule R139). -/
theorem test_step_bgtz_B11 :
    gives (start 0x10 0x1C20FFFF [(1, 5)] 0 0 []) [] 0 0 [] 0x10 = true := by decide

/-- Vector B13: `bgtz $1,0x10` (rule R139). -/
theorem test_step_bgtz_B13 :
    gives (start 0x10 0x1C20FFFF [(1, 0x80000000)] 0 0 []) [] 0 0 [] 0x14 = true := by decide

/-- Vector B15: `j 0x40` (rule R140). -/
theorem test_step_j_B15 :
    gives (start 0x10 0x08000010 [] 0 0 []) [] 0 0 [] 0x40 = true := by decide

/-- Vector B17: `jal 0x40` (rule R141). -/
theorem test_step_jal_B17 :
    gives (start 8 0x0C000010 [(31, 0x55)] 0 0 []) [(31, 0xC)] 0 0 [] 0x40 = true := by decide

/-- Vector B18: `jr $31` (rule R142). -/
theorem test_step_jr_B18 :
    gives (start 0x40 0x03E00008 [(31, 0xC)] 0 0 []) [] 0 0 [] 0xC = true := by decide

/-- Vector B19: `jr $1` (rules R142, R16). -/
theorem test_step_jr_B19 :
    gives (start 0x40 0x00200008 [(1, 0xFF3)] 0 0 []) [] 0 0 [] 0xFF3 = true := by decide

/-- Vector B21: `jalr $31,$4` (rule R143). -/
theorem test_step_jalr_B21 :
    gives (start 0x20 0x0080F809 [(4, 0x100)] 0 0 []) [(31, 0x24)] 0 0 [] 0x100 = true := by decide

/-- Vector B22: `jalr $4,$4` (rule R143). -/
theorem test_step_jalr_B22 :
    gives (start 0x20 0x00802009 [(4, 0x100)] 0 0 []) [(4, 0x24)] 0 0 [] 0x100 = true := by decide

/-- Vector L1: `lb $2,3($1)` (rule R151). -/
theorem test_step_lb_L1 :
    gives (start 0 0x80220003 [(1, 0x100)] 0 0 [(259, 0xFE)]) [(2, 0xFFFFFFFE)] 0 0 [] 4 = true := by decide

/-- Vector L4: `lbu $2,3($1)` (rule R152). -/
theorem test_step_lbu_L4 :
    gives (start 0 0x90220003 [(1, 0x100)] 0 0 [(259, 0xFE)]) [(2, 0xFE)] 0 0 [] 4 = true := by decide

/-- Vector L5: `lh $2,2($1)` (rule R153). -/
theorem test_step_lh_L5 :
    gives (start 0 0x84220002 [(1, 0x100)] 0 0 [(258, 0x80), (259, 1)]) [(2, 0xFFFF8001)] 0 0 [] 4 = true := by decide

/-- Vector L6: `lh $2,1($1)` (rules R153, R46). -/
theorem test_step_lh_L6 :
    gives (start 0 0x84220001 [(1, 0x100)] 0 0 [(257, 0x12), (258, 0x34)]) [(2, 0x1234)] 0 0 [] 4 = true := by decide

/-- Vector L7: `lhu $2,2($1)` (rule R154). -/
theorem test_step_lhu_L7 :
    gives (start 0 0x94220002 [(1, 0x100)] 0 0 [(258, 0x80), (259, 1)]) [(2, 0x8001)] 0 0 [] 4 = true := by decide

/-- Vector L9: `lw $2,1($1)` (rules R155, R46). -/
theorem test_step_lw_L9 :
    gives (start 0 0x8C220001 [(1, 0x100)] 0 0 [(256, 0x11), (257, 0x22), (258, 0x33), (259, 0x44), (260, 0x55)]) [(2, 0x22334455)] 0 0 [] 4 = true := by decide

/-- Vector L19: `lw $2,0($1)` (rules R155, R42). -/
theorem test_step_lw_L19 :
    faults (start 0 0x8C220000 [(1, 0xFFD), (2, 9)] 0 0 []) (.memoryOutOfBounds 0xFFD) = true := by decide

/-- Vector L13: `sb $2,0($1)` (rule R156). -/
theorem test_step_sb_L13 :
    gives (start 0 0xA0220000 [(1, 0x100), (2, 0x12345678)] 0 0 []) [] 0 0 [(256, 0x78)] 4 = true := by decide

/-- Vector L28: `sb $2,1($1)` (rules R156, R47). -/
theorem test_step_sb_L28 :
    gives (start 8 0xA0220001 [(1, 0xFFFFFFFF), (2, 0x12345678)] 0 0 []) [] 0 0 [(0, 0x78)] 0xC = true := by decide

/-- Vector L14: `sh $2,2($1)` (rule R157). -/
theorem test_step_sh_L14 :
    gives (start 0 0xA4220002 [(1, 0x100), (2, 0x12345678)] 0 0 []) [] 0 0 [(258, 0x56), (259, 0x78)] 4 = true := by decide

/-- Vector L16: `sw $2,8($1)` (rule R158). -/
theorem test_step_sw_L16 :
    gives (start 0 0xAC220008 [(1, 0x100), (2, 0x12345678)] 0 0 []) [] 0 0 [(264, 0x12), (265, 0x34), (266, 0x56), (267, 0x78)] 4 = true := by decide

/-- Vector L25: `sw $2,0($1)` (rules R158, R43). -/
theorem test_step_sw_L25 :
    faults (start 0 0xAC220000 [(1, 0xFFD), (2, 0x12345678)] 0 0 []) (.memoryOutOfBounds 0xFFD) = true := by decide
/-- `trap 1` emits HostEffect(1) and falls through (vector T2). -/
theorem test_step_trap_T2 :
    (match step (start 0x20 0x68000001 [(4, 7)] 0 0 []) with
      | .next t => t.pc == 0x24 && t.outputs == [.hostEffect 1] && t.reg 4 == 7 && t.phase == .inRun 1
      | .fault _ => false
      | .refused _ => false) = true := by decide

/-- `trap 16` with the ignored bits 25:8 all ones suspends (vectors T3 and T7). -/
theorem test_step_trap_T7 :
    (match step (start 0x20 0x6BFFFF10 [] 0 0 []) with
      | .next t =>
        t.pc == 0x24 && t.suspend == .motionPending && t.tmState == .moving && t.motion.axes == [0, 1] &&
          t.motion.target == 60 && t.motion.speed == 1 && !t.halted
      | .fault _ => false
      | .refused _ => false) = true := by decide

/-! ### Reset, the host's two functions, frames -/

theorem test_reset_memory_wf : Memory.wf State.reset.mem = true := by decide

/-- The first step from reset is the Resetting body (R210, R265). -/
theorem test_power_on :
    (match step State.reset with
      | .next t => t.tmState == .idle && t.outputs == [.driverReinit] && t.halted
      | .fault _ => false
      | .refused _ => false) = true := by decide

/-- The table word of `add $3,$1,$2`, and a word of no row. -/
theorem test_table_word : decodeTableWord 32 0x00221820 = some (.add 3 1 2) ∧ decodeTableWord 32 0xFC000000 = none := by decide

/-- A word put where the machine fetches is the first instruction to run: `addi $2,$0,32767` (vector I4). -/
theorem test_fetch_word :
    (match step (State.reset.withFetchWord 32 0x20027FFF) with
      | .next t => t.reg 2 == 0x7FFF && t.pc == 4
      | .fault _ => false
      | .refused _ => false) = true := by decide

/-- A frame whose command is unknown is echoed as a Diag frame (R197, R188). -/
theorem test_unknown_frame :
    (match step { State.reset with tmState := .idle, pendingFrame := true, rxFrame := buildFrame (0x58, 0x59) [] } with
      | .next t => t.outputs == [.frame .diag (buildFrame (0, 0) [0x58, 0x59])]
      | .fault _ => false
      | .refused _ => false) = true := by decide

/-! ### For every statement with hypotheses, a state and operands that meet them, at the bounds where a clause has some -/

/-- The last word of a 4096-byte Memory that is all program: both bounds of a fetch are met with no room to spare. -/
def lastWord (w : Word) : State := start 0xFFC w [(1, 0xFFC), (2, 0xDEADBEEF), (4, 0xFFF)] 0 0 []

/-- Whether an answer is a next state. -/
def isNext : Result → Bool
  | .next _ => true
  | .fault _ => false
  | .refused _ => false

/-- The next state of an answer that has one. -/
def after : Result → State
  | .next t => t
  | .fault _ => State.reset
  | .refused _ => State.reset

theorem eq_next_after {r : Result} (h : isNext r = true) : r = .next (after r) := by
  cases r with
  | next t => rfl
  | fault e => cases h
  | refused e => cases h

/-- Between two steps in a TM state, with a frame pending. -/
def framed (k : TaskState) (f : Frame) : State :=
  { State.reset with tmState := k, pendingFrame := true, rxFrame := f, totSize := 20, bytesIn := 18 }

/-- Between two steps in a TM state, with a tick pending and a session on axis 0 whose target is 60. -/
def ticked (k : TaskState) (count : Word) (debounce : BitVec 8) : State :=
  { State.reset with
    tmState := k
    pendingTick := true
    halted := false
    suspend := .motionPending
    encoders := [(0, count)]
    motion :=
      { active := true, driving := k == .moving, axes := [0], target := 60, speed := 1, debounce := debounce } }

theorem witness_DecodeEncodeRoundTrip : (Instr.add 3 1 2).wf = true := rfl

theorem witness_DecodingIgnoresExactlyUnusedFields :
    decodeWord 0x6BFFFF10 = .instr (.trap 0x10) ∧
      (0x68000010 : Word) &&& usedBits (.trap 0x10) = 0x6BFFFF10 &&& usedBits (.trap 0x10) := by decide

theorem witness_IllegalWordsAreExactlyTheUnlisted :
    decodeWord 0xFC000000 = .invalidOpcode ∧ decodeWord 0x0000003F = .invalidFunction ∧
      decodeWord 0 = .instr (.sll 0 0 0) := by decide

theorem atInstruction_lastWord (w : Word) : AtInstruction 0 (lastWord w) where
  inputs := rfl
  phase := rfl
  budget := by simp [lastWord, start, State.reset, Params.default, State.setReg]
  loaded := by simp [lastWord, start, State.reset, State.setReg]

theorem witness_StepRunsTheDecodedInstruction :
    AtInstruction 0 (lastWord 0x00221820) ∧ (lastWord 0x00221820).pc.toNat + 4 = (lastWord 0x00221820).params.memCapacity ∧
      (Instr.add 3 1 2).wf = true ∧
        decodeWord
            (Memory.byte (lastWord 0x00221820).mem 0xFFC ++ Memory.byte (lastWord 0x00221820).mem 0xFFD ++
              Memory.byte (lastWord 0x00221820).mem 0xFFE ++ Memory.byte (lastWord 0x00221820).mem 0xFFF) =
          .instr (.add 3 1 2) :=
  ⟨atInstruction_lastWord _, by decide, rfl, by decide⟩

theorem witness_IllegalWordFaultsAtDecode_opcode :
    AtInstruction 0 (lastWord 0xFC000000) ∧ (lastWord 0xFC000000).pc.toNat + 4 ≤ (lastWord 0xFC000000).params.memCapacity ∧
      decodeWord (Memory.word (lastWord 0xFC000000).mem 0xFFC) = .invalidOpcode :=
  ⟨atInstruction_lastWord _, by decide, by decide⟩

theorem witness_IllegalWordFaultsAtDecode_funct :
    AtInstruction 0 (lastWord 0x0000003F) ∧ (lastWord 0x0000003F).pc.toNat + 4 ≤ (lastWord 0x0000003F).params.memCapacity ∧
      decodeWord (Memory.word (lastWord 0x0000003F).mem 0xFFC) = .invalidFunction :=
  ⟨atInstruction_lastWord _, by decide, by decide⟩

/-- At tot_size exactly, and at the top of the address space. -/
theorem witness_RunningOffTheProgramHalts :
    (∀ pc ∈ [(0x1000 : Word), 0xFFFFFFFC], ∃ s : State,
      s.inputs = [] ∧ s.phase = .inRun 0 ∧ s.params.stepBudget ≠ some 0 ∧ s.pc = pc ∧ s.totSize.toNat ≤ s.pc.toNat) := by
  intro pc h
  refine ⟨(lastWord 0).setPc pc, rfl, rfl, nofun, rfl, ?_⟩
  simp only [List.mem_cons, List.not_mem_nil, or_false] at h
  rcases h with rfl | rfl <;> decide

/-- A 6-byte Memory that is all program, pc 3: the last byte of the word is outside. -/
theorem witness_FetchOutOfBoundsFaults :
    let s : State :=
      { State.reset with params := { Params.default with memCapacity := 6 }, totSize := 6, pc := 3, phase := .inRun 0 }
    AtInstruction 0 s ∧ s.params.memCapacity < s.pc.toNat + 4 :=
  ⟨⟨rfl, rfl, by decide, by decide⟩, by decide⟩

theorem witness_UsedUpBudgetYields :
    let s : State := { State.reset with params := { Params.default with stepBudget := some 3 }, phase := .inRun 3 }
    s.inputs = [] ∧ s.phase = .inRun 3 ∧ s.params.stepBudget = some 3 := ⟨rfl, rfl, rfl⟩

/-- The divisors 1 and -1, the last with the dividend -2^31 too. -/
theorem witness_DivideGivesQuotientAndRemainder :
    let s := start 0 0 [(1, 0x80000000), (2, 0xFFFFFFFF), (3, 1)] 0 0 []
    s.reg 2 ≠ 0 ∧ s.reg 3 ≠ 0 ∧ s.reg 1 = 0x80000000#32 ∧ s.reg 2 = 0xFFFFFFFF#32 := by decide

theorem witness_DivideUnsignedGivesQuotientAndRemainder :
    (start 0 0 [(1, 7), (2, 0xFFFFFFFF)] 0 0 []).reg 2 ≠ 0 := by decide

theorem witness_DivisionByZeroFaults : (start 0 0 [(1, 7)] 0 0 []).reg 2 = 0 := by decide

/-- Register 4 holds the last address of Memory: displacement 0 is in bounds for one byte, 1 is not. -/
theorem witness_LoadByteExtends :
    ((lastWord 0).effectiveAddress 4 0).toNat < (lastWord 0).params.memCapacity ∧
      (lastWord 0).params.memCapacity ≤ ((lastWord 0).effectiveAddress 4 1).toNat := by decide

theorem witness_LoadHalfwordExtends :
    ((lastWord 0).effectiveAddress 4 0xFFFF).toNat + 2 ≤ (lastWord 0).params.memCapacity ∧
      (lastWord 0).params.memCapacity < ((lastWord 0).effectiveAddress 4 0).toNat + 2 := by decide

theorem witness_LoadWordAssemblesBigEndian :
    ((lastWord 0).effectiveAddress 1 0).toNat + 4 ≤ (lastWord 0).params.memCapacity ∧
      (lastWord 0).params.memCapacity < ((lastWord 0).effectiveAddress 1 1).toNat + 4 := by decide

theorem witness_StoreByteAndWordBytes :
    (((lastWord 0).effectiveAddress 4 0).toNat < (lastWord 0).params.memCapacity ∧
        (lastWord 0).params.memCapacity ≤ ((lastWord 0).effectiveAddress 4 1).toNat) ∧
      ((lastWord 0).effectiveAddress 1 0).toNat + 4 ≤ (lastWord 0).params.memCapacity ∧
        (lastWord 0).params.memCapacity < ((lastWord 0).effectiveAddress 1 1).toNat + 4 := by decide

theorem witness_StoreHalfwordBytes :
    ((lastWord 0).effectiveAddress 4 0xFFFF).toNat + 2 ≤ (lastWord 0).params.memCapacity ∧
      (lastWord 0).params.memCapacity < ((lastWord 0).effectiveAddress 4 0).toNat + 2 := by decide

theorem witness_StoreThenLoadGivesTheValueBack_word :
    let s := lastWord 0
    ∃ t u, (3 : RegNum) ≠ 0 ∧ (s.effectiveAddress 1 0).toNat + 4 ≤ s.params.memCapacity ∧ exec (.sw 2 1 0) s = .next t ∧
      t.effectiveAddress 1 0 = s.effectiveAddress 1 0 ∧ exec (.lw 3 1 0) t = .next u := by
  exact ⟨after (exec (.sw 2 1 0) (lastWord 0)), after (exec (.lw 3 1 0) (after (exec (.sw 2 1 0) (lastWord 0)))), by decide,
    by decide, eq_next_after (by decide), by decide, eq_next_after (by decide)⟩

theorem witness_StoreThenLoadGivesTheValueBack_byte :
    let s := lastWord 0
    ∃ t t' u u', (s.effectiveAddress 4 0).toNat < s.params.memCapacity ∧ exec (.lb 3 4 0) s = .next t ∧
      exec (.lbu 3 4 0) s = .next t' ∧ (t.effectiveAddress 4 0xFFFF).toNat < s.params.memCapacity ∧
        exec (.sb 3 4 0xFFFF) t = .next u ∧ exec (.sb 3 4 0xFFFF) t' = .next u' := by
  let t := after (exec (.lb 3 4 0) (lastWord 0))
  let t' := after (exec (.lbu 3 4 0) (lastWord 0))
  exact ⟨t, t', after (exec (.sb 3 4 0xFFFF) t), after (exec (.sb 3 4 0xFFFF) t'), by decide, eq_next_after (by decide),
    eq_next_after (by decide), by decide, eq_next_after (by decide), eq_next_after (by decide)⟩

theorem witness_StoreThenLoadGivesTheValueBack_half :
    let s := lastWord 0
    ∃ t t' u u', (s.effectiveAddress 1 2).toNat + 2 ≤ s.params.memCapacity ∧ exec (.lh 3 1 2) s = .next t ∧
      exec (.lhu 3 1 2) s = .next t' ∧ (t.effectiveAddress 1 0).toNat + 2 ≤ s.params.memCapacity ∧
        exec (.sh 3 1 0) t = .next u ∧ exec (.sh 3 1 0) t' = .next u' := by
  let t := after (exec (.lh 3 1 2) (lastWord 0))
  let t' := after (exec (.lhu 3 1 2) (lastWord 0))
  exact ⟨t, t', after (exec (.sh 3 1 0) t), after (exec (.sh 3 1 0) t'), by decide, eq_next_after (by decide),
    eq_next_after (by decide), by decide, eq_next_after (by decide), eq_next_after (by decide)⟩

theorem witness_HaltTrapEndsTheProgram : State.reset.params.trapClass 0x00 = .halt := by decide

theorem witness_SyncTrapOnlyEmitsItsEvent : State.reset.params.trapClass 0x01 = .sync := by decide

/-- A constant row, and a register-dependent row of another table over the same two axes. -/
theorem witness_MotionTrapSuspendsAndStartsTheSession :
    State.reset.params.axes ≠ [] ∧ State.reset.params.trapClass 0x10 = .motion (.fixed { axes := [0, 1], target := 60, speed := 1 }) ∧
      Params.trapClass { Params.default with trapTable := [(0, .halt), (0xFF, .motion .computed)] } 0xFF =
        .motion .computed := by decide

/-- The codes next to the listed ones, and the last code. -/
theorem witness_UnassignedTrapFaults :
    State.reset.params.trapClass 0x02 = .unassigned ∧ State.reset.params.trapClass 0x0F = .unassigned ∧
      State.reset.params.trapClass 0x11 = .unassigned ∧ State.reset.params.trapClass 0xFF = .unassigned := by decide

theorem witness_DefaultTrapTableClasses : (0x02 : BitVec 8) ≠ 0x00 ∧ (0x02 : BitVec 8) ≠ 0x01 ∧ (0x02 : BitVec 8) ≠ 0x10 := by
  decide

theorem witness_OnlyTheListedInstructionsEndARun :
    let s := lastWord 0
    (∃ t, exec (.div 1 0) s = .next t ∧ ¬ SameControl s t) ∧ (∃ t, exec (.sw 2 1 1) s = .next t ∧ ¬ SameControl s t) ∧
      ∃ t, exec (.trap 0) s = .next t ∧ ¬ SameControl s t := by
  exact ⟨⟨after (exec (.div 1 0) (lastWord 0)), eq_next_after (by decide), fun h => absurd h.halted (by decide)⟩,
    ⟨after (exec (.sw 2 1 1) (lastWord 0)), eq_next_after (by decide), fun h => absurd h.halted (by decide)⟩,
    ⟨after (exec (.trap 0) (lastWord 0)), eq_next_after (by decide), fun h => absurd h.halted (by decide)⟩⟩

theorem witness_ResetFrameClearsTheCore :
    let s := framed .moving (buildFrame (0x52, 0x53) [])
    s.inputs = [] ∧ s.phase = .atLoop ∧ s.tmState = .moving ∧ s.pendingTick = false ∧ s.pendingFrame = true ∧
      (parseFrame s.rxFrame).code = (0x52, 0x53) := by decide

/-- A declared size equal to MEM_CAPACITY (4096), and one byte more. -/
theorem witness_SizeFrameIsAcceptedOrRejected :
    ∀ d ∈ [([0x10, 0x00] : List Byte), [0x10, 0x01]],
      let s := framed .idle (buildFrame (0x52, 0x44) d)
      s.inputs = [] ∧ s.phase = .atLoop ∧ s.tmState = .idle ∧ s.pendingTick = false ∧ s.pendingFrame = true ∧
        (parseFrame s.rxFrame).code = (0x52, 0x44) ∧
          (d = [0x10, 0x00] → declaredSize s.params (parseFrame s.rxFrame).payload = s.params.memCapacity) ∧
            (d = [0x10, 0x01] → declaredSize s.params (parseFrame s.rxFrame).payload = s.params.memCapacity + 1) := by decide

/-- HI changes by `mthi`, LO by `mtlo`, a divisor of 1, and an instruction other than `mfhi` and `mflo`. -/
theorem witness_HiLoAreTouchedByTheirInstructionsOnly :
    let s := start 0 0 [(1, 1)] 0 0 []
    (∃ t, exec (.mthi 1) s = .next t ∧ t.hi ≠ s.hi) ∧ (∃ t, exec (.mtlo 1) s = .next t ∧ t.lo ≠ s.lo) ∧ s.reg 1 ≠ 0 ∧
      ∀ r, Instr.add 3 1 2 ≠ .mfhi r ∧ Instr.add 3 1 2 ≠ .mflo r :=
  ⟨⟨_, rfl, by decide⟩, ⟨_, rfl, by decide⟩, by decide, fun _ => ⟨nofun, nofun⟩⟩

/-- The frame that completes a program of 20 bytes, and a first frame that does not. -/
theorem witness_ProgramFrameCopiesAndStarts :
    let s := framed .executing (buildFrame (0x50, 0x4B) [1, 2])
    let s' := { s with bytesIn := 0 }
    s.inputs = [] ∧ s.phase = .atLoop ∧ s.tmState = .executing ∧ s.pendingTick = false ∧ s.pendingFrame = true ∧
      (parseFrame s.rxFrame).code = (0x50, 0x4B) ∧ s.bytesIn.toNat + copyCount s = s.totSize.toNat ∧
        s'.bytesIn.toNat ≤ s'.totSize.toNat ∧ s'.bytesIn.toNat + copyCount s' < s'.totSize.toNat := by decide

/-- A code that differs from "RD" in its second byte only. -/
theorem witness_UnknownCommandIsEchoedOnly :
    let s := framed .settling (buildFrame (0x52, 0x45) [])
    s.inputs = [] ∧ s.phase = .atLoop ∧ s.tmState = .settling ∧ s.pendingTick = false ∧ s.pendingFrame = true ∧
      (parseFrame s.rxFrame).code ≠ (0x52, 0x44) ∧ (parseFrame s.rxFrame).code ≠ (0x50, 0x4B) ∧
        (parseFrame s.rxFrame).code ≠ (0x52, 0x53) := by decide

theorem witness_BuildPadsAndParseSplits : ([] : List Byte).length ≤ 18 ∧ (List.replicate 18 (0xFF : Byte)).length ≤ 18 := by
  decide

theorem witness_IdleTickTakesTheExternalEvent :
    let s := ticked .idle 0 0
    s.inputs = [] ∧ s.phase = .atLoop ∧ s.pendingTick = true ∧ s.pendingFrame = false ∧ s.tmState = .idle ∧
      s.extEvent = false ∧ s.raiseExternal.extEvent = true := by decide

/-- A loaded program, and an interpreter that has halted. -/
theorem witness_ExecutingTickRunsOrReturnsHalted :
    let s := ticked .executing 0 0
    let s' := { s with halted := true }
    (s.inputs = [] ∧ s.phase = .atLoop ∧ s.pendingTick = true ∧ s.pendingFrame = false ∧ s.tmState = .executing ∧
        s.halted = false) ∧
      s'.inputs = [] ∧ s'.phase = .atLoop ∧ s'.pendingTick = true ∧ s'.pendingFrame = false ∧ s'.tmState = .executing ∧
        s'.halted = true := by decide

/-- A count at the target, and one below it. -/
theorem witness_MovingTickStopsOnlyAtTheTarget :
    let s := ticked .moving 60 0
    let s' := ticked .moving 59 0
    s.inputs = [] ∧ s.phase = .atLoop ∧ s.pendingTick = true ∧ s.pendingFrame = false ∧ s.tmState = .moving ∧
      (∀ a ∈ s.motion.axes, s.motion.target.toNat ≤ (s.encoderCount a).toNat) ∧ s'.tmState = .moving ∧
        ∃ a ∈ s'.motion.axes, (s'.encoderCount a).toNat < s'.motion.target.toNat := by decide

theorem witness_FiveSettlingTicksResume :
    let s := (ticked .settling 60 0).consumeTick
    s.phase = .atLoop ∧ s.pendingTick = false ∧ s.pendingFrame = false ∧ s.tmState = .settling ∧ s.motion.debounce = 0 := by
  decide

theorem witness_ArrivalsOnlySetTheirFlag :
    State.reset.pendingFrame = false ∧ (framed .idle (buildFrame (0, 0) [])).pendingFrame = true := by decide

theorem witness_BothPendingTakesOneAndKeepsTheOther :
    let s := (framed .idle (buildFrame (0, 0) [])).raiseTick
    let s' := (ticked .idle 0 0).consumeTick
    (s.inputs = [] ∧ s.phase = .atLoop ∧ s.tmState = .idle ∧ s.pendingTick = true ∧ s.pendingFrame = true) ∧
      s'.inputs = [] ∧ s'.phase = .atLoop ∧ s'.tmState = .idle ∧ s'.pendingTick = false ∧ s'.pendingFrame = false := by decide

/-- The last Settling tick with no frame pending, and a tick that arrives in Moving while an "RS" frame is pending. -/
theorem witness_ProgramIsFrozenWhileMoving :
    let s := ticked .settling 60 4
    let s' := { framed .moving (buildFrame (0x52, 0x53) []) with inputs := [.tick] }
    (∃ t, s.phase = .atLoop ∧ s.tmState = .settling ∧ s.pendingFrame = false ∧ step s = .next t) ∧
      ∃ t, s'.phase = .atLoop ∧ s'.tmState = .moving ∧ s'.pendingFrame = true ∧
        (parseFrame s'.rxFrame).code = (0x52, 0x53) ∧ step s' = .next t ∧ t.pendingFrame = true :=
  ⟨⟨_, rfl, rfl, rfl, rfl⟩, _, rfl, rfl, rfl, by decide, rfl, rfl⟩

theorem inv_ticked_settling : Inv (ticked .settling 60 4) where
  params_ok := by decide
  mem_wf := by decide
  mem_in_capacity := memoryBelow_nil _
  reg_zero := by decide
  loaded := by decide
  declared := by decide
  no_transient := by decide
  run_state n h := by cases h
  motion_states := by decide
  moving_drives := by decide
  settling_stopped := by decide
  debounce_bound := by decide
  session_axes _ := ⟨by decide, by decide⟩

/-- The last Settling tick. -/
theorem witness_StepKeepsTheInvariant : ∃ s t, Inv s ∧ s.tmState = .settling ∧ step s = .next t :=
  ⟨ticked .settling 60 4, _, inv_ticked_settling, rfl, rfl⟩

theorem witness_RunAndMotionStayExclusive :
    ∃ s t, Inv s ∧ RunMotionExclusive s ∧ HostKeepsH1 s ∧ s.tmState = .settling ∧ step s = .next t :=
  ⟨ticked .settling 60 4, _, inv_ticked_settling, ⟨by decide, by decide⟩, fun h => absurd h.1 (by decide), rfl, rfl⟩

/-- One byte, and more than one frame. -/
theorem witness_LoadProtocolPlacesTheImage :
    ∀ n ∈ [1, 19],
      let s := (ticked .idle 0 0).consumeTick
      let image : List Byte := List.replicate n 0xAB
      s.phase = .atLoop ∧ s.tmState = .idle ∧ s.pendingTick = false ∧ s.pendingFrame = false ∧
        s.params.sizeOffHi ≠ s.params.sizeOffLo ∧ 1 ≤ image.length ∧ image.length ≤ 65535 ∧
          image.length ≤ s.params.memCapacity := by decide

end Sys2Proof.Tests
end

section
/-!
PROOFS. Which instructions write HI and LO and which read them (10_state.md R17): for every outcome an instruction can have,
whether it keeps HI and LO, and whether it depends on them.
-/
namespace Sys2Proof.Machine

open Sys2Proof

/-! ### Instructions that keep HI and LO -/

/-- The result is a next state with HI and LO as in `s`. -/
def KeepsHiLo (s : State) (x : Result) : Prop := ∃ t, x = .next t ∧ t.hi = s.hi ∧ t.lo = s.lo

theorem KeepsHiLo.ite {s : State} {c : Prop} [Decidable c] {x y : Result} (hx : KeepsHiLo s x) (hy : KeepsHiLo s y) :
    KeepsHiLo s (if c then x else y) := by
  split
  · exact hx
  · exact hy

theorem keepsHiLo_loadFrom (n : Nat) (value : Memory → Nat → Word) (rt rs : RegNum) (imm : Half) (s : State) :
    KeepsHiLo s (loadFrom n value rt rs imm s) := .ite ⟨_, rfl, rfl, rfl⟩ ⟨_, rfl, rfl, rfl⟩

theorem keepsHiLo_storeTo (bs : List Byte) (rs : RegNum) (imm : Half) (s : State) :
    KeepsHiLo s (storeTo bs rs imm s) := .ite ⟨_, rfl, rfl, rfl⟩ ⟨_, rfl, rfl, rfl⟩

theorem keepsHiLo_execTrap (code : BitVec 8) (s : State) : KeepsHiLo s (execTrap code s) := by
  unfold execTrap
  cases s.params.trapClass code with
  | unassigned | halt | sync | motion => exact ⟨_, rfl, rfl, rfl⟩

/-- The instructions that write both HI and LO. -/
def IsMulDiv (i : Instr) : Prop := ∃ rs rt, i = .mult rs rt ∨ i = .multu rs rt ∨ i = .div rs rt ∨ i = .divu rs rt

/-- An instruction either is one of the six writers of R17 or keeps HI and LO. -/
theorem exec_writer_or_keepsHiLo (i : Instr) (s : State) :
    IsMulDiv i ∨ (∃ rs, i = .mthi rs) ∨ (∃ rs, i = .mtlo rs) ∨ KeepsHiLo s (exec i s) := by
  cases i with
  | mult rs rt => exact .inl ⟨rs, rt, .inl rfl⟩
  | multu rs rt => exact .inl ⟨rs, rt, .inr (.inl rfl)⟩
  | div rs rt => exact .inl ⟨rs, rt, .inr (.inr (.inl rfl))⟩
  | divu rs rt => exact .inl ⟨rs, rt, .inr (.inr (.inr rfl))⟩
  | mthi rs => exact .inr (.inl ⟨rs, rfl⟩)
  | mtlo rs => exact .inr (.inr (.inl ⟨rs, rfl⟩))
  | lb rt rs imm | lh rt rs imm | lw rt rs imm | lbu rt rs imm | lhu rt rs imm =>
    simp only [exec, execLb, execLbu, execLh, execLhu, execLw]
    exact .inr (.inr (.inr (keepsHiLo_loadFrom _ _ rt rs imm s)))
  | sb | sh | sw => exact .inr (.inr (.inr (keepsHiLo_storeTo ..)))
  | trap code => exact .inr (.inr (.inr (keepsHiLo_execTrap code s)))
  | _ => exact .inr (.inr (.inr ⟨_, rfl, rfl, rfl⟩))

/-- HI changes by a multiplication, a division or `mthi` only, LO by a multiplication, a division or `mtlo` only. -/
theorem exec_hi_lo_changed {i : Instr} {s t : State} (h : exec i s = .next t) :
    (t.hi ≠ s.hi → IsMulDiv i ∨ ∃ rs, i = .mthi rs) ∧ (t.lo ≠ s.lo → IsMulDiv i ∨ ∃ rs, i = .mtlo rs) := by
  obtain hmd | ⟨rs, rfl⟩ | ⟨rs, rfl⟩ | ⟨u, hu, hhi, hlo⟩ := exec_writer_or_keepsHiLo i s
  · exact ⟨fun _ => .inl hmd, fun _ => .inl hmd⟩
  · cases h
    exact ⟨fun _ => .inr ⟨rs, rfl⟩, fun hne => absurd rfl hne⟩
  · cases h
    exact ⟨fun hne => absurd rfl hne, fun _ => .inr ⟨rs, rfl⟩⟩
  · cases hu.symm.trans h
    exact ⟨fun hne => absurd hhi hne, fun hne => absurd hlo hne⟩

/-! ### Both registers are overwritten -/

/-- A completing multiplication or division gives one and the same next state whatever HI and LO held. -/
theorem exec_mulDiv_forgets_hi_lo {rs rt : RegNum} (hi lo : Word) {s : State} {i : Instr}
    (h : i = .mult rs rt ∨ i = .multu rs rt ∨ (i = .div rs rt ∨ i = .divu rs rt) ∧ s.reg rt ≠ 0) :
    ∃ t, exec i s = .next t ∧ exec i { s with hi := hi, lo := lo } = .next t := by
  obtain rfl | rfl | ⟨rfl | rfl, hd⟩ := h
  · exact ⟨_, rfl, rfl⟩
  · exact ⟨_, rfl, rfl⟩
  · exact ⟨_, if_neg hd, if_neg hd⟩
  · exact ⟨_, if_neg hd, if_neg hd⟩

/-! ### Instructions that do not read HI and LO -/

/-- Two results are next states that differ in HI and LO at most. -/
def SameButHiLo (x y : Result) : Prop :=
  ∃ t u, x = .next t ∧ y = .next u ∧ { u with hi := t.hi, lo := t.lo } = t

theorem SameButHiLo.ite {c : Prop} [Decidable c] {x x' y y' : Result} (hx : SameButHiLo x x') (hy : SameButHiLo y y') :
    SameButHiLo (if c then x else y) (if c then x' else y') := by
  split
  · exact hx
  · exact hy

section
variable (hi lo : Word) (s : State)

theorem sameButHiLo_loadFrom (n : Nat) (value : Memory → Nat → Word) (rt rs : RegNum) (imm : Half) :
    SameButHiLo (loadFrom n value rt rs imm s) (loadFrom n value rt rs imm { s with hi := hi, lo := lo }) :=
  .ite ⟨_, _, rfl, rfl, rfl⟩ ⟨_, _, rfl, rfl, rfl⟩

theorem sameButHiLo_storeTo (bs : List Byte) (rs : RegNum) (imm : Half) :
    SameButHiLo (storeTo bs rs imm s) (storeTo bs rs imm { s with hi := hi, lo := lo }) :=
  .ite ⟨_, _, rfl, rfl, rfl⟩ ⟨_, _, rfl, rfl, rfl⟩

theorem sameButHiLo_execDiv (rs rt : RegNum) :
    SameButHiLo (execDiv rs rt s) (execDiv rs rt { s with hi := hi, lo := lo }) :=
  .ite ⟨_, _, rfl, rfl, rfl⟩ ⟨_, _, rfl, rfl, rfl⟩

theorem sameButHiLo_execDivu (rs rt : RegNum) :
    SameButHiLo (execDivu rs rt s) (execDivu rs rt { s with hi := hi, lo := lo }) :=
  .ite ⟨_, _, rfl, rfl, rfl⟩ ⟨_, _, rfl, rfl, rfl⟩

theorem sameButHiLo_execTrap (code : BitVec 8) :
    SameButHiLo (execTrap code s) (execTrap code { s with hi := hi, lo := lo }) := by
  unfold execTrap
  dsimp only
  cases s.params.trapClass code with
  | unassigned | halt | sync | motion => exact ⟨_, _, rfl, rfl, rfl⟩

/-- An instruction other than `mfhi` and `mflo` does the same whatever HI and LO hold. -/
theorem exec_sameButHiLo (i : Instr) (h : ∀ r, i ≠ .mfhi r ∧ i ≠ .mflo r) :
    SameButHiLo (exec i s) (exec i { s with hi := hi, lo := lo }) := by
  cases i with
  | mfhi rd => exact absurd rfl (h rd).1
  | mflo rd => exact absurd rfl (h rd).2
  | div rs rt => exact sameButHiLo_execDiv hi lo s rs rt
  | divu rs rt => exact sameButHiLo_execDivu hi lo s rs rt
  | lb rt rs imm | lh rt rs imm | lw rt rs imm | lbu rt rs imm | lhu rt rs imm =>
    simp only [exec, execLb, execLbu, execLh, execLhu, execLw]
    exact sameButHiLo_loadFrom hi lo s _ _ rt rs imm
  | sb | sh | sw => exact sameButHiLo_storeTo hi lo s ..
  | trap code => exact sameButHiLo_execTrap hi lo s code
  | _ => exact ⟨_, _, rfl, rfl, rfl⟩

end

/-! ### The four instructions that move HI and LO -/

/-- `mthi` and `mtlo` write the register they name (R112, R113), `mfhi` and `mflo` read it (R110, R111). -/
theorem exec_moves_hi_lo (r : RegNum) (s : State) :
    (∃ t, exec (.mthi r) s = .next t ∧ t.hi = s.reg r) ∧ (∃ t, exec (.mtlo r) s = .next t ∧ t.lo = s.reg r) ∧
      (∃ t, exec (.mfhi r) s = .next t ∧ t.reg r = if r = 0 then 0 else s.hi) ∧
        ∃ t, exec (.mflo r) s = .next t ∧ t.reg r = if r = 0 then 0 else s.lo :=
  ⟨⟨_, rfl, rfl⟩, ⟨_, rfl, rfl⟩, (writeResult_wrote s r s.hi).imp fun _ ⟨h, w⟩ => ⟨h, w.result⟩,
    (writeResult_wrote s r s.lo).imp fun _ ⟨h, w⟩ => ⟨h, w.result⟩⟩

/-- Settles O59: the writers by the inversion `exec_writer_or_keepsHiLo`, the readers by comparing the two runs of each
instruction. -/
theorem hiLoAreTouchedByTheirInstructionsOnly : Obligations.HiLoAreTouchedByTheirInstructionsOnly :=
  ⟨fun _ _ _ h => exec_hi_lo_changed h, fun _ _ hi lo _ _ h => exec_mulDiv_forgets_hi_lo hi lo h, exec_moves_hi_lo,
    fun i hi lo s h => exec_sameButHiLo hi lo s i h⟩

end Sys2Proof.Machine
end

section
/-!
PROOFS. The arithmetic of the Register-format ALU instructions (40_register_alu.md R81): the wrapped sum, its encoding and its
frame.
-/
namespace Sys2Proof.Machine

open Sys2Proof

/-- The opcode and the function code of every encoded `add` are the ones that select its row of R66 and R67. -/
theorem encode_add_opcode_funct (rd rs rt : RegNum) :
    opcodeOf (encode (.add rd rs rt)) = 0 ∧ functOf (encode (.add rd rs rt)) = 0b100000#6 :=
  ⟨opcodeOf_registerWord rs rt rd 0 0x20#6, functOf_registerWord rs rt rd 0 0x20#6⟩

/-- The word printed in R81 is the encoding of `add $3,$1,$2`. -/
theorem decodeWord_add_example : decodeWord 0x00221820 = .instr (.add 3 1 2) := by decide

/-- `add` is a register write of the sum modulo 2^32, so it completes on every pair of operands, overflow included (R81). -/
theorem exec_add_wrote (rd rs rt : RegNum) (s : State) :
    ∃ t, exec (.add rd rs rt) s = .next t ∧
      WroteRegister rd (BitVec.ofNat 32 ((s.reg rs).toNat + (s.reg rt).toNat)) s t := by
  have hexec : exec (.add rd rs rt) s = writeResult rd (s.reg rs + s.reg rt) s := rfl
  rw [hexec, BitVec.add_def]
  exact writeResult_wrote s rd _

/-- Settles O10: the fields of the encoded word, the example word, and the write of the wrapped sum. -/
theorem addWrapsModulo32Bits : Obligations.AddWrapsModulo32Bits := by
  intro rd rs rt s
  obtain ⟨hopcode, hfunct⟩ := encode_add_opcode_funct rd rs rt
  exact ⟨hopcode, hfunct, decodeWord_add_example, exec_add_wrote rd rs rt s⟩

end Sys2Proof.Machine
end

section
/-!
PROOFS. The layout of a frame (47_frame_commands.md R186, R187): parse only splits the 20 bytes, so what it gives of a built
frame is read off from the list of bytes that build lays out.
-/
namespace Sys2Proof.Machine

open Sys2Proof

/-- A frame is its command code followed by its payload: parse loses no byte (R186). -/
theorem frame_toList_eq_code_payload (f : Frame) :
    f.toList = (parseFrame f).code.1 :: (parseFrame f).code.2 :: (parseFrame f).payload := by
  have hlen : f.toList.length = 20 := f.length_toList
  calc f.toList
      = f.toList[0] :: f.toList.drop 1 := (List.getElem_cons_drop (as := f.toList) (i := 0) (by omega)).symm
    _ = f.toList[0] :: f.toList[1] :: f.toList.drop 2 := by rw [← List.getElem_cons_drop (i := 1)]
    _ = (parseFrame f).code.1 :: (parseFrame f).code.2 :: (parseFrame f).payload := by
      simp only [parseFrame_code, parseFrame_payload, Vector.getElem_toList]

/-- The bytes of a frame determine what parse gives. -/
theorem parseFrame_eq_of_toList {f : Frame} {tag : Byte × Byte} {payload : List Byte}
    (h : f.toList = tag.1 :: tag.2 :: payload) : parseFrame f = { code := tag, payload := payload } := by
  rw [frame_toList_eq_code_payload f] at h
  obtain ⟨hfst, hrest⟩ := List.cons.inj h
  obtain ⟨hsnd, hpayload⟩ := List.cons.inj hrest
  exact congrArg₂ ParsedFrame.mk (Prod.ext hfst hsnd) hpayload

/-- Where the data ends short of 18 bytes, the built frame goes on with zeros (R187). -/
theorem buildFrame_toList (tag : Byte × Byte) (data : List Byte) (hdata : data.length ≤ 18) :
    (buildFrame tag data).toList = tag.1 :: tag.2 :: (data ++ List.replicate (18 - data.length) 0) := by
  have hlen : (data ++ List.replicate (18 - data.length) (0 : Byte)).length = 18 := by
    rw [List.length_append, List.length_replicate, Nat.add_sub_cancel' hdata]
  refine List.ext_getElem (by simp only [Vector.length_toList, List.length_cons, hlen]) fun k hk _ => ?_
  rw [Vector.getElem_toList, buildFrame_getElem tag data k (by simpa using hk)]
  match k with
  | 0 => rfl
  | 1 => rfl
  | k + 2 =>
    by_cases hin : k < data.length
    · simp [List.getElem_append_left hin, hin]
    · simp [List.getElem_append_right (Nat.le_of_not_lt hin), Nat.le_of_not_lt hin]

/-- Settles O46: the bytes of a built frame, what parse makes of them, and the split of any frame. -/
theorem buildPadsAndParseSplits : Obligations.BuildPadsAndParseSplits := by
  refine ⟨fun tag data hdata => ?_, fun f => ⟨frame_toList_eq_code_payload f, parseFrame_payload_length f⟩⟩
  have hbuilt := buildFrame_toList tag data hdata
  exact ⟨hbuilt, parseFrame_eq_of_toList hbuilt⟩

end Sys2Proof.Machine
end

section
/-!
PROOFS. Decode and encode (30_encoding.md): the round trip, the bits an instruction uses, the words that are illegal. A word is
determined by its fields, so each statement about a word is read off field by field.
-/
namespace Sys2Proof

/-! ### A word is its fields -/

theorem eq_registerWord_iff (w : Word) (rs rt rd : RegNum) (shamt : BitVec 5) (funct : BitVec 6) :
    w = registerWord rs rt rd shamt funct ↔
      opcodeOf w = 0#6 ∧ rsOf w = rs ∧ rtOf w = rt ∧ rdOf w = rd ∧ shamtOf w = shamt ∧ functOf w = funct := by
  constructor
  · rintro rfl
    simp
  · rintro ⟨hop, rfl, rfl, rfl, rfl, rfl⟩
    rw [registerWord, ← hop]
    apply BitVec.eq_of_getLsbD_eq
    intro i hi
    simp only [opcodeOf, rsOf, rtOf, rdOf, shamtOf, functOf, BitVec.getLsbD_append, BitVec.getLsbD_extractLsb']
    interval_cases i <;> simp

theorem eq_immediateWord_iff (w : Word) (opcode : BitVec 6) (rs rt : RegNum) (imm : Half) :
    w = immediateWord opcode rs rt imm ↔ opcodeOf w = opcode ∧ rsOf w = rs ∧ rtOf w = rt ∧ immOf w = imm := by
  constructor
  · rintro rfl
    simp
  · rintro ⟨rfl, rfl, rfl, rfl⟩
    apply BitVec.eq_of_getLsbD_eq
    intro i hi
    simp only [immediateWord, opcodeOf, rsOf, rtOf, immOf, BitVec.getLsbD_append, BitVec.getLsbD_extractLsb']
    interval_cases i <;> simp

theorem eq_jumpWord_iff (w : Word) (opcode : BitVec 6) (target : BitVec 26) :
    w = jumpWord opcode target ↔ opcodeOf w = opcode ∧ targetOf w = target := by
  constructor
  · rintro rfl
    simp
  · rintro ⟨rfl, rfl⟩
    apply BitVec.eq_of_getLsbD_eq
    intro i hi
    simp only [jumpWord, opcodeOf, targetOf, BitVec.getLsbD_append, BitVec.getLsbD_extractLsb']
    interval_cases i <;> simp

/-! ### The fields of a masked word -/

section Masked

variable (w m : Word)

theorem opcodeOf_and : opcodeOf (w &&& m) = opcodeOf w &&& m.extractLsb' 26 6 := BitVec.extractLsb'_and
theorem rsOf_and : rsOf (w &&& m) = rsOf w &&& m.extractLsb' 21 5 := BitVec.extractLsb'_and
theorem rtOf_and : rtOf (w &&& m) = rtOf w &&& m.extractLsb' 16 5 := BitVec.extractLsb'_and
theorem rdOf_and : rdOf (w &&& m) = rdOf w &&& m.extractLsb' 11 5 := BitVec.extractLsb'_and
theorem shamtOf_and : shamtOf (w &&& m) = shamtOf w &&& m.extractLsb' 6 5 := BitVec.extractLsb'_and
theorem functOf_and : functOf (w &&& m) = functOf w &&& m.extractLsb' 0 6 := BitVec.extractLsb'_and
theorem immOf_and : immOf (w &&& m) = immOf w &&& m.extractLsb' 0 16 := BitVec.extractLsb'_and
theorem targetOf_and : targetOf (w &&& m) = targetOf w &&& m.extractLsb' 0 26 := BitVec.extractLsb'_and

end Masked

theorem and_allOnes5 (x : BitVec 5) : x &&& 31#5 = x := BitVec.and_allOnes
theorem and_allOnes6 (x : BitVec 6) : x &&& 63#6 = x := BitVec.and_allOnes
theorem and_allOnes16 (x : BitVec 16) : x &&& 65535#16 = x := BitVec.and_allOnes
theorem and_allOnes26 (x : BitVec 26) : x &&& 67108863#26 = x := BitVec.and_allOnes


/-- The low eight bits of the jump field are the trap code (R71). -/
theorem targetOf_and_trapMask_eq_iff (w : Word) (code : BitVec 8) :
    targetOf w &&& 255#26 = 0#18 ++ code ↔ trapCodeOf w = code := by
  have hlow : targetOf w &&& 255#26 = 0#18 ++ trapCodeOf w := by
    apply BitVec.eq_of_getLsbD_eq
    intro i hi
    simp only [targetOf, trapCodeOf, BitVec.getLsbD_and, BitVec.getLsbD_append, BitVec.getLsbD_extractLsb']
    interval_cases i <;> simp
  rw [hlow]
  constructor
  · intro h
    exact (BitVec.append_right_inj 0#18).1 h
  · rintro rfl
    rfl

/-! ### The words of an instruction -/

/-- A word that decodes to an instruction carries its encoding in the used bits. -/
theorem and_usedBits_of_decodeWord {w : Word} {i : Instr} (h : decodeWord w = .instr i) :
    w &&& Machine.usedBits i = encode i := by
  unfold decodeWord at h
  split at h
  case h_1 hop =>
    unfold decodeRegister at h
    split at h <;> cases h <;> rename_i hf <;>
      simp [Machine.usedBits, encode, eq_registerWord_iff, opcodeOf_and, rsOf_and, rtOf_and, rdOf_and, shamtOf_and,
        functOf_and, hop, hf, and_allOnes5]
  all_goals cases h
  all_goals
    rename_i hop
    simp [Machine.usedBits, encode, eq_immediateWord_iff, eq_jumpWord_iff, opcodeOf_and, rsOf_and, rtOf_and, immOf_and,
      targetOf_and, targetOf_and_trapMask_eq_iff, hop, and_allOnes5, and_allOnes16, and_allOnes26]

/-- A word that carries an instruction's encoding in the used bits decodes to it, whatever its other bits hold. -/
theorem decodeWord_of_and_usedBits {w : Word} {i : Instr} (h : w &&& Machine.usedBits i = encode i) :
    decodeWord w = .instr i := by
  cases i with
  | beq | bne | blez | bgtz | addi | addiu | slti | sltiu | andi | ori | xori | llo | lhi | lb | lh | lw | lbu | lhu | sb | sh
  | sw =>
    simp [Machine.usedBits, encode, eq_immediateWord_iff, opcodeOf_and, rsOf_and, rtOf_and, immOf_and, and_allOnes5,
      and_allOnes6, and_allOnes16] at h
    simp [decodeWord, h]
  | j | jal | trap =>
    simp [Machine.usedBits, encode, eq_jumpWord_iff, opcodeOf_and, targetOf_and, targetOf_and_trapMask_eq_iff, and_allOnes6,
      and_allOnes26] at h
    simp [decodeWord, h]
  | _ =>
    simp [Machine.usedBits, encode, eq_registerWord_iff, opcodeOf_and, rsOf_and, rtOf_and, rdOf_and, shamtOf_and,
        functOf_and, and_allOnes5, and_allOnes6] at h
    simp [decodeWord, decodeRegister, h]

/-- Decoding is a match of the used bits. -/
theorem decodeWord_eq_instr_iff (w : Word) (i : Instr) : decodeWord w = .instr i ↔ w &&& Machine.usedBits i = encode i :=
  ⟨and_usedBits_of_decodeWord, decodeWord_of_and_usedBits⟩

/-- Settles O2: both halves are the match of the used bits. -/
theorem decodingIgnoresExactlyUnusedFields : Obligations.DecodingIgnoresExactlyUnusedFields := fun w i h =>
  ⟨(decodeWord_eq_instr_iff w i).1 h, fun w' hw' =>
    (decodeWord_eq_instr_iff w' i).2 (hw'.trans ((decodeWord_eq_instr_iff w i).1 h))⟩

/-! ### The round trip -/

/-- Decoding the word of an instruction selects its row by the opcode, in the Register format by the function code too, and
reads its operands back from their fields. -/
theorem decodeWord_encode (i : Instr) : decodeWord (encode i) = .instr i := by
  cases i with
  | beq | bne | blez | bgtz | addi | addiu | slti | sltiu | andi | ori | xori | llo | lhi | lb | lh | lw | lbu | lhu | sb | sh
  | sw => simp [encode, decodeWord]
  | j | jal | trap => simp [encode, decodeWord]
  | _ => simp [encode, decodeWord, decodeRegister]

/-- Settles O1: the bytes of the word put together again are the word. -/
theorem decodeEncodeRoundTrip : Obligations.DecodeEncodeRoundTrip := by
  intro i rest _
  refine ⟨decodeWord_encode i, decodeBytes_cons _ _ _ _ rest i ?_⟩
  rw [wordOfBytes_bytesOfWord, decodeWord_encode]

/-! ### Legal and illegal words -/

/-- The nonzero opcodes of the map (R66). -/
def listedOpcodes : List (BitVec 6) :=
  [0x02, 0x03, 0x04, 0x05, 0x06, 0x07, 0x08, 0x09, 0x0A, 0x0B, 0x0C, 0x0D, 0x0E, 0x18, 0x19, 0x1A, 0x20, 0x21, 0x23, 0x24,
    0x25, 0x28, 0x29, 0x2B]

/-- The function codes of the Register format (R67). -/
def listedFuncts : List (BitVec 6) :=
  [0x00, 0x02, 0x03, 0x04, 0x06, 0x07, 0x08, 0x09, 0x10, 0x11, 0x12, 0x13, 0x18, 0x19, 0x1A, 0x1B, 0x20, 0x21, 0x22, 0x23,
    0x24, 0x25, 0x26, 0x27, 0x2A, 0x2B]

/-- The Register format gives an instruction for a listed function code, InvalidFunction for any other. -/
theorem decodeRegister_cases (w : Word) :
    (functOf w ∈ listedFuncts ∧ ∃ i, decodeRegister w = .instr i) ∨
      (functOf w ∉ listedFuncts ∧ decodeRegister w = .invalidFunction) := by
  unfold decodeRegister
  split
  case h_27 => exact .inr ⟨by simp_all [listedFuncts], rfl⟩
  all_goals
    rename_i hf
    exact .inl ⟨by rw [hf]; decide, _, rfl⟩

/-- The decoder gives an instruction for a listed opcode, leaves opcode 0 to the Register format, and gives InvalidOpcode
for any other. -/
theorem decodeWord_cases (w : Word) :
    (opcodeOf w ∈ listedOpcodes ∧ ∃ i, decodeWord w = .instr i) ∨
      (opcodeOf w = 0#6 ∧ decodeWord w = decodeRegister w) ∨
        (opcodeOf w ∉ 0#6 :: listedOpcodes ∧ decodeWord w = .invalidOpcode) := by
  unfold decodeWord
  split
  case h_1 hop => exact .inr (.inl ⟨hop, rfl⟩)
  case h_26 => exact .inr (.inr ⟨by simp_all [listedOpcodes], rfl⟩)
  all_goals
    rename_i hop
    exact .inl ⟨by rw [hop]; decide, _, rfl⟩

theorem zero_not_mem_listedOpcodes : 0#6 ∉ listedOpcodes := by decide

/-- Settles O3: the three ends of the decoder, each with the opcodes and function codes that lead to it. -/
theorem illegalWordsAreExactlyTheUnlisted : Obligations.IllegalWordsAreExactlyTheUnlisted := by
  intro w
  change (decodeWord w = .invalidOpcode ↔ opcodeOf w ∉ 0#6 :: listedOpcodes) ∧
    (decodeWord w = .invalidFunction ↔ opcodeOf w = 0#6 ∧ functOf w ∉ listedFuncts) ∧
      ((∃ i, decodeWord w = .instr i) ↔ opcodeOf w ∈ listedOpcodes ∨ opcodeOf w = 0#6 ∧ functOf w ∈ listedFuncts)
  have h0 := zero_not_mem_listedOpcodes
  obtain ⟨hop, i, hi⟩ | ⟨hop, hreg⟩ | ⟨hop, hbad⟩ := decodeWord_cases w
  · have hne : opcodeOf w ≠ 0#6 := fun h => h0 (h ▸ hop)
    simp [hi, hop, hne]
  · obtain ⟨hf, i, hi⟩ | ⟨hf, hbad⟩ := decodeRegister_cases w
    · simp [hreg, hi, hop, hf]
    · simp [hreg, hbad, hop, hf, h0]
  · obtain ⟨hne, hnot⟩ := not_or.1 (mt List.mem_cons.2 hop)
    simp [hbad, hne, hnot]

/-! ### The words printed in the spec -/

/-- Settles O4: each word is a closed one, so the decoder is run on it. -/
theorem specWordsDecodeAsListed : Obligations.SpecWordsDecodeAsListed := by
  unfold Obligations.SpecWordsDecodeAsListed
  decide

end Sys2Proof
end

section
/-!
PROOFS. The invariant of the reachable states (10_state.md R29, 48_task_state_machine.md): its part about data, which every
operation keeps, and its part about control, which says where a run and a session may be.
-/
namespace Sys2Proof.Machine

open Sys2Proof

/-! ### The two parts of the invariant -/

/-- The part of `Inv` about parameters, Memory, registers, the load session and the session's data. -/
structure InvData (s : State) : Prop where
  params_ok : s.params.wf = true
  mem_wf : Memory.wf s.mem = true
  mem_in_capacity : MemoryBelow s.params.memCapacity s.mem
  reg_zero : s.regs[0] = 0
  loaded : s.bytesIn.toNat ≤ s.totSize.toNat
  declared : s.totSize.toNat ≤ s.params.memCapacity
  debounce_bound : s.motion.debounce.toNat ≤ settleThreshold
  session_axes : s.motion.active = true → LegalAxes s.params s.motion.axes

/-- The part of `Inv` about the TM state, the run and the suspension. -/
structure InvControl (s : State) : Prop where
  no_transient : s.tmState ≠ .receivingSize ∧ s.tmState ≠ .receivingPayload
  run_state :
    ∀ n, s.phase = .inRun n →
      s.tmState = .executing ∧ s.halted = false ∧ s.suspend = .none ∧ ∀ b, s.params.stepBudget = some b → n ≤ b
  motion_states :
    s.tmState = .moving ∨ s.tmState = .settling →
      s.motion.active = true ∧ s.suspend = .motionPending ∧ s.halted = false
  moving_drives : s.tmState = .moving → s.motion.driving = true ∧ s.motion.debounce = 0
  settling_stopped : s.tmState = .settling → s.motion.driving = false

theorem inv_iff (s : State) : Inv s ↔ InvData s ∧ InvControl s :=
  ⟨fun ⟨h1, h2, h3, h4, h5, h6, h7, h8, h9, h10, h11, h12, h13⟩ =>
      ⟨⟨h1, h2, h3, h4, h5, h6, h12, h13⟩, ⟨h7, h8, h9, h10, h11⟩⟩,
    fun ⟨⟨h1, h2, h3, h4, h5, h6, h12, h13⟩, ⟨h7, h8, h9, h10, h11⟩⟩ =>
      ⟨h1, h2, h3, h4, h5, h6, h7, h8, h9, h10, h11, h12, h13⟩⟩

section
variable {s t : State}

/-- Between two steps in Idle or Executing the control part asks for nothing. -/
theorem invControl_atLoop (hph : t.phase = .atLoop) (hk : t.tmState = .idle ∨ t.tmState = .executing) : InvControl t where
  no_transient := by rcases hk with hk | hk <;> simp [hk]
  run_state n hn := by simp [hph] at hn
  motion_states hm := by rcases hk with hk | hk <;> simp [hk] at hm
  moving_drives hm := by rcases hk with hk | hk <;> simp [hk] at hm
  settling_stopped hm := by rcases hk with hk | hk <;> simp [hk] at hm

/-! ### Operations that keep the data part -/

theorem InvData.setReg (h : InvData s) (r : RegNum) (v : Word) : InvData (s.setReg r v) :=
  { h with reg_zero := State.setReg_regs_zero s r v h.reg_zero }

/-- A write that stays below MEM_CAPACITY keeps the canonical form and the bound of Memory. -/
theorem InvData.storeBytes (h : InvData s) (a : Nat) (bs : List Byte) (ha : a + bs.length ≤ s.params.memCapacity) :
    InvData (s.storeBytes a bs) :=
  { h with
    mem_wf := Memory.wf_writeBytes a bs h.mem_wf
    mem_in_capacity := memoryBelow_writeBytes h.mem_in_capacity ha }

theorem InvData.setLoad (h : InvData s) (tot bytes : Half) (hb : bytes.toNat ≤ tot.toNat)
    (ht : tot.toNat ≤ s.params.memCapacity) : InvData (s.setLoad tot bytes) :=
  { h with loaded := hb, declared := ht }

theorem InvData.resettingBody (h : InvData s) : InvData s.resettingBody where
  params_ok := h.params_ok
  mem_wf := Memory.wf_nil
  mem_in_capacity := memoryBelow_nil _
  reg_zero := rfl
  loaded := Nat.le_refl _
  declared := Nat.zero_le _
  debounce_bound := Nat.zero_le _
  session_axes ha := by simp at ha

/-! ### One instruction -/

/-- A class other than Unassigned stands in a row of TRAP_TABLE. -/
theorem mem_trapTable_of_trapClass {p : Params} {code : BitVec 8} {c : TrapClass} (hc : p.trapClass code = c)
    (hne : c ≠ .unassigned) : (code, c) ∈ p.trapTable := by
  unfold Params.trapClass at hc
  cases hl : p.trapTable.lookup code with
  | none => exact absurd (by simpa [hl] using hc.symm) hne
  | some d =>
    obtain rfl : d = c := by simpa [hl] using hc
    obtain ⟨l₁, l₂, htable, -⟩ := List.lookup_eq_some_iff.1 hl
    simp [htable]

/-- The checks of the parameters that a request rests on (R5, R166). -/
theorem params_wf_axes_and_rows {p : Params} (hp : p.wf = true) :
    p.axes ≠ [] ∧ ∀ row ∈ p.trapTable, p.classOk row.2 = true := by
  simp only [Params.wf, Params.axesOk, Params.tableOk, Bool.and_eq_true, List.all_eq_true, bne_iff_ne] at hp
  obtain ⟨⟨⟨⟨-, -⟩, haxes, -⟩, -⟩, -, hrows⟩ := hp
  exact ⟨haxes, hrows⟩

/-- The axes a register-dependent row names are legal: they are filtered from AXES, or all of it (R166). -/
theorem legalAxes_computedAxes {p : Params} (haxes : p.axes ≠ []) (code : BitVec 8) (regs : RegFile) :
    LegalAxes p (computedAxes p code regs) := by
  unfold computedAxes
  dsimp only
  split
  · exact ⟨haxes, fun _ ha => ha⟩
  · next hne => exact ⟨hne, fun _ ha => (List.mem_filter.1 ha).1⟩

/-- The axes of a request that TRAP_TABLE makes are legal: those of a constant row by the check of the table. -/
theorem legalAxes_motionRequest {p : Params} (hp : p.wf = true) {code : BitVec 8} {rule : MotionRule}
    (hc : p.trapClass code = .motion rule) (regs : RegFile) : LegalAxes p (motionRequest p code rule regs).axes := by
  obtain ⟨haxes, hrows⟩ := params_wf_axes_and_rows hp
  cases rule with
  | computed => exact legalAxes_computedAxes haxes code regs
  | fixed req =>
    have hreq : p.requestOk req = true := hrows _ (mem_trapTable_of_trapClass hc (by simp))
    simp only [Params.requestOk, Bool.and_eq_true, bne_iff_ne, List.all_eq_true, List.contains_iff_mem] at hreq
    obtain ⟨⟨hne, -⟩, hmem⟩ := hreq
    exact ⟨hne, hmem⟩

/-- Ending a run in Idle leaves nothing to check but the data. -/
theorem inv_haltProgram (h : InvData s) : Inv s.haltProgram :=
  (inv_iff _).2 ⟨{ h with }, invControl_atLoop rfl (.inl rfl)⟩

theorem inv_takeFault (h : InvData s) (r : FaultReason) : Inv (s.takeFault r) :=
  (inv_iff _).2 ⟨{ h with }, invControl_atLoop rfl (.inl rfl)⟩

/-- Suspending a running interpreter starts a session: what Moving asks for is what R169 and R214 write. -/
theorem inv_suspendFor (h : InvData s) (hh : s.halted = false) {req : MotionRequest} (hreq : LegalAxes s.params req.axes) :
    Inv (s.suspendFor req) :=
  (inv_iff _).2
    ⟨{ h with debounce_bound := Nat.zero_le _, session_axes := fun _ => hreq },
      { no_transient := by simp
        run_state := by simp
        motion_states := by simp [hh]
        moving_drives := by simp
        settling_stopped := by simp }⟩

/-- An instruction of a run keeps the invariant. -/
theorem Inv.exec {n : Nat} {i : Instr} (h : Inv s) (hph : s.phase = .inRun n) (he : exec i s = .next t) : Inv t := by
  obtain ⟨hd, hc⟩ := (inv_iff s).1 h
  obtain ⟨r, v, hx⟩ | ⟨hi, lo, hx⟩ | ⟨x, hx⟩ | ⟨r, v, x, hx⟩ | ⟨a, bs, ha, hx⟩ | ⟨code, -, -, hx⟩ |
    ⟨code, rule, -, hrule, hx⟩ | ⟨code, -, -, hx⟩ | ⟨r, hx⟩ := exec_cases i s <;>
    cases hx.symm.trans he
  · exact (inv_iff _).2 ⟨{ hd.setReg r v with }, { hc with }⟩
  · exact (inv_iff _).2 ⟨{ hd with }, { hc with }⟩
  · exact (inv_iff _).2 ⟨{ hd with }, { hc with }⟩
  · exact (inv_iff _).2 ⟨{ hd.setReg r v with }, { hc with }⟩
  · exact (inv_iff _).2 ⟨{ hd.storeBytes a bs ha with }, { hc with }⟩
  · exact (inv_iff _).2 ⟨{ hd with }, { hc with }⟩
  · obtain ⟨-, hh, -, -⟩ := hc.run_state n hph
    exact inv_suspendFor hd hh (legalAxes_motionRequest hd.params_ok hrule s.regs)
  · exact inv_haltProgram hd
  · exact inv_takeFault hd r

/-- One more instruction step within the budget keeps the invariant (R172, R175). -/
theorem Inv.setPhase_succ {n : Nat} (h : Inv s) (hph : s.phase = .inRun n) (hb : s.params.stepBudget ≠ some n) :
    Inv (s.setPhase (.inRun (n + 1))) := by
  obtain ⟨hd, hc⟩ := (inv_iff s).1 h
  obtain ⟨hk, hh, hs, hle⟩ := hc.run_state n hph
  refine (inv_iff _).2 ⟨{ hd with }, { hc with run_state := fun m hm => ?_ }⟩
  obtain rfl : n + 1 = m := by simpa using hm
  refine ⟨hk, hh, hs, fun b hbm => ?_⟩
  have hlt : n ≠ b := fun hnb => hb (hnb ▸ hbm)
  have hnb : n ≤ b := hle b hbm
  omega

/-- A turn of a run keeps the invariant. -/
theorem Inv.runStep {n : Nat} (h : Inv s) (hph : s.phase = .inRun n) (hr : s.runStep n = .next t) : Inv t := by
  obtain ⟨hd, hc⟩ := (inv_iff s).1 h
  obtain ⟨-, rfl⟩ | ⟨hb, hrun⟩ := runStep_cases n hr
  · exact (inv_iff _).2 ⟨{ hd with }, invControl_atLoop rfl (.inr (hc.run_state n hph).1)⟩
  · have hu := h.setPhase_succ hph hb
    have hud := ((inv_iff _).1 hu).1
    obtain ⟨-, rfl⟩ | ⟨-, r, rfl⟩ | ⟨-, i, he⟩ := hrun
    · exact inv_haltProgram hud
    · exact inv_takeFault hud r
    · exact hu.exec rfl he

/-! ### A frame step -/

theorem inv_resettingBody (h : InvData s) (hph : s.phase = .atLoop) : Inv s.resettingBody :=
  (inv_iff _).2 ⟨h.resettingBody, invControl_atLoop hph (.inl rfl)⟩

/-- A declared size is stored unchanged, and only when it is at most MEM_CAPACITY (R192, R193). -/
theorem inv_receivingSizeBody (h : InvData s) (hph : s.phase = .atLoop) (f : Frame) : Inv (s.receivingSizeBody f) := by
  rw [receivingSizeBody_eq]
  split
  · exact (inv_iff _).2 ⟨{ h.setLoad 0 0 le_rfl (Nat.zero_le _) with }, invControl_atLoop hph (.inl rfl)⟩
  · next hcap =>
    have hlt := declaredSize_lt s.params (parseFrame f).payload
    have hsize : (BitVec.ofNat 16 (declaredSize s.params (parseFrame f).payload)).toNat ≤ s.params.memCapacity := by
      rw [BitVec.toNat_ofNat, Nat.mod_eq_of_lt hlt]
      omega
    exact (inv_iff _).2 ⟨{ h.setLoad _ 0 (Nat.zero_le _) hsize with }, invControl_atLoop hph (.inl rfl)⟩

/-- The bytes a "PK" frame copies end at or below tot_size (R194). -/
theorem InvData.copyPayload (h : InvData s) (f : Frame) : InvData (s.copyPayload f) := by
  have hb := h.loaded
  have ht := h.declared
  have hcount : copyCount s ≤ s.totSize.toNat - s.bytesIn.toNat := Nat.min_le_right _ _
  have hlen : ((parseFrame f).payload.take (copyCount s)).length ≤ copyCount s := List.length_take_le _ _
  have hstore := h.storeBytes s.bytesIn.toNat ((parseFrame f).payload.take (copyCount s)) (by omega)
  refine { hstore with loaded := ?_ }
  rw [copyPayload_bytesIn f hb, State.copyPayload_totSize]
  omega

theorem inv_receivingPayloadBody (h : InvData s) (hph : s.phase = .atLoop) (f : Frame) :
    Inv (s.receivingPayloadBody f) := by
  rw [receivingPayloadBody_eq]
  split
  · exact (inv_iff _).2 ⟨{ h.copyPayload f with reg_zero := rfl }, invControl_atLoop hph (.inr rfl)⟩
  · exact (inv_iff _).2 ⟨{ h.copyPayload f with }, invControl_atLoop hph (.inl rfl)⟩

/-- The four states between two steps in which a tick or a frame is taken (R206). -/
def Ticked (s : State) : Prop :=
  s.tmState = .idle ∨ s.tmState = .executing ∨ s.tmState = .moving ∨ s.tmState = .settling

theorem Inv.frameStep (h : Inv s) (hph : s.phase = .atLoop) (hk : Ticked s) : Inv s.frameStep := by
  obtain ⟨hd, hc⟩ := (inv_iff s).1 h
  obtain ⟨-, hx⟩ | ⟨-, hx⟩ | ⟨-, hx⟩ | ⟨-, hx⟩ := frameStep_cases s hk <;> rw [hx]
  · exact (inv_iff _).2 ⟨{ hd with }, { hc with }⟩
  · exact inv_resettingBody (s := s.consumeFrame.setTask .resetting) { hd with } hph
  · have hload := hd.setLoad s.totSize 0 (Nat.zero_le _) hd.declared
    exact inv_receivingSizeBody (s := (s.consumeFrame.setLoad s.totSize 0).setTask .receivingSize) { hload with } hph _
  · exact inv_receivingPayloadBody (s := s.consumeFrame.setTask .receivingPayload) { hd with } hph _

/-! ### A tick step -/

/-- Both ends of a Settling tick: the counter stays at or below the threshold, or the session is destroyed (R218). -/
theorem Inv.settlingTick (h : Inv s) (hph : s.phase = .atLoop) (hk : s.tmState = .settling) : Inv s.settlingTick := by
  obtain ⟨hd, hc⟩ := (inv_iff s).1 h
  rw [settlingTick_eq]
  split
  · exact (inv_iff _).2
      ⟨{ hd with debounce_bound := Nat.zero_le _, session_axes := nofun }, invControl_atLoop hph (.inr rfl)⟩
  · next hle =>
    exact (inv_iff _).2
      ⟨{ hd with debounce_bound := Nat.le_of_not_lt hle },
        { hc with moving_drives := fun hm => absurd (hk.symm.trans hm) (by simp) }⟩

theorem Inv.stopMotion (h : Inv s) (hph : s.phase = .atLoop) (hk : s.tmState = .moving) : Inv s.stopMotion := by
  obtain ⟨hd, hc⟩ := (inv_iff s).1 h
  exact (inv_iff _).2
    ⟨{ hd with },
      { no_transient := by simp
        run_state := by simp [hph]
        motion_states := fun _ => hc.motion_states (.inl hk)
        moving_drives := by simp
        settling_stopped := by simp }⟩

/-- A run begins with no instruction step made, no suspension and a budget to spend (R172, R173). -/
theorem inv_startRun (h : InvData s) (hk : s.tmState = .executing) (hh : s.halted = false) :
    Inv (s.resume.setPhase (.inRun 0)) :=
  (inv_iff _).2
    ⟨{ h with },
      { no_transient := by simp [hk]
        run_state := by
          intro n hn
          obtain rfl : 0 = n := by simpa using hn
          exact ⟨hk, hh, rfl, fun _ _ => Nat.zero_le _⟩
        motion_states := by simp [hk]
        moving_drives := by simp [hk]
        settling_stopped := by simp [hk] }⟩

theorem Inv.idleTick (h : Inv s) (hph : s.phase = .atLoop) : Inv s.idleTick := by
  unfold State.idleTick
  split
  · exact (inv_iff _).2 ⟨{ ((inv_iff s).1 h).1 with }, invControl_atLoop hph (.inr rfl)⟩
  · exact h

theorem Inv.tickStep (h : Inv s) (hph : s.phase = .atLoop) : Inv s.tickStep := by
  have hb : Inv (s.consumeTick.emit [.backgroundPoll]) := { h with }
  obtain ⟨-, hx⟩ | ⟨-, -, hx⟩ | ⟨hk, hh, hx⟩ | ⟨hk, -, hx⟩ | ⟨-, -, hx⟩ | ⟨hk, hx⟩ | ⟨-, hx⟩ := tickStep_cases s <;> rw [hx]
  · exact hb.idleTick hph
  · exact (inv_iff _).2 ⟨{ ((inv_iff _).1 hb).1 with }, invControl_atLoop rfl (.inl rfl)⟩
  · exact inv_startRun ((inv_iff _).1 hb).1 hk hh
  · exact hb.stopMotion hph hk
  · exact hb
  · exact hb.settlingTick hph hk
  · exact hb

/-! ### The step -/

theorem Inv.loopIteration (h : Inv s) (hph : s.phase = .atLoop) (hk : Ticked s) : Inv s.loopIteration := by
  obtain ⟨-, -, hx⟩ | ⟨-, -, hx⟩ | ⟨-, -, hx⟩ | ⟨-, -, hx | hx⟩ := loopIteration_cases s <;> rw [hx]
  · exact h
  · exact h.frameStep hph hk
  · exact h.tickStep hph
  · exact Inv.frameStep (s := s.nextChoice) { h with } hph hk
  · exact Inv.tickStep (s := s.nextChoice) { h with } hph

theorem runTransient_resetting (hk : s.tmState = .resetting) : s.runTransient = s.resettingBody := by
  simp only [State.runTransient, hk]

/-- The one transient state found between two steps is Resetting, at power-on (R265). -/
theorem Inv.coreStep (h : Inv s) (hx : s.coreStep = .next t) : Inv t := by
  obtain ⟨n, hph, hr⟩ | ⟨hph, hk | hk | hk, rfl⟩ | ⟨hph, hk, rfl⟩ := coreStep_cases hx
  · exact h.runStep hph hr
  · rw [runTransient_resetting hk]
    exact inv_resettingBody ((inv_iff s).1 h).1 hph
  · exact absurd hk h.no_transient.1
  · exact absurd hk h.no_transient.2
  · exact h.loopIteration hph hk

end

/-- Settles O54: an arrival touches no field of the invariant, a step of the core keeps it. -/
theorem stepKeepsTheInvariant : Obligations.StepKeepsTheInvariant := by
  intro s t h hstep
  obtain ⟨rest, -, rfl⟩ | ⟨f, rest, -, -, rfl⟩ | ⟨rest, -, rfl⟩ | ⟨counts, rest, -, rfl⟩ | ⟨-, hcore⟩ := step_cases hstep
  · exact { h with }
  · exact { h with }
  · exact { h with }
  · exact { h with }
  · exact Inv.coreStep (s := s.setInputs s.inputs.tail) { h with } hcore

/-- Settles O55: each clause is a closed fact about the power-on state. -/
theorem resetMeetsTheInvariant : Obligations.ResetMeetsTheInvariant where
  params_ok := by decide
  mem_wf := Memory.wf_nil
  mem_in_capacity := memoryBelow_nil _
  reg_zero := by decide
  loaded := le_rfl
  declared := Nat.zero_le _
  no_transient := by decide
  run_state := nofun
  motion_states := by decide
  moving_drives := by decide
  settling_stopped := by decide
  debounce_bound := Nat.zero_le _
  session_axes := nofun

end Sys2Proof.Machine
end

section
/-!
PROOFS. Run and suspend are mutually exclusive under host duty H1 (48_task_state_machine.md R222). Three fields decide it: the TM
state, whether a session is active, and the suspension. A step either keeps all three or leaves them in one of two shapes.
-/
namespace Sys2Proof.Machine

open Sys2Proof

section
variable {s t : State}

/-! ### The two shapes -/

/-- No session and no suspension, outside Moving and Settling. -/
structure NoMotion (s : State) : Prop where
  task : s.tmState ≠ .moving ∧ s.tmState ≠ .settling
  active : s.motion.active = false
  suspend : s.suspend = .none

/-- An active session and a suspended interpreter, in Moving or Settling. -/
structure InMotion (s : State) : Prop where
  task : s.tmState = .moving ∨ s.tmState = .settling
  active : s.motion.active = true
  suspend : s.suspend = .motionPending

theorem runMotionExclusive_iff (s : State) : RunMotionExclusive s ↔ NoMotion s ∨ InMotion s := by
  constructor
  · intro h
    by_cases hk : s.tmState = .moving ∨ s.tmState = .settling
    · exact .inr ⟨hk, h.active_iff.2 hk, h.suspend_iff.2 hk⟩
    · have hact : s.motion.active = false := by simpa using mt h.active_iff.1 hk
      have hsus : s.suspend ≠ .motionPending := mt h.suspend_iff.1 hk
      exact .inl ⟨not_or.1 hk, hact, by cases hs : s.suspend with
        | none => rfl
        | motionPending => exact absurd hs hsus⟩
  · rintro (h | h)
    · obtain ⟨⟨hm, hs⟩, hact, hsus⟩ := h
      exact ⟨by simp [hm, hs, hact], by simp [hm, hs, hsus]⟩
    · exact ⟨by simp [h.task, h.active], by simp [h.task, h.suspend]⟩

theorem NoMotion.exclusive (h : NoMotion s) : RunMotionExclusive s := (runMotionExclusive_iff s).2 (.inl h)

theorem InMotion.exclusive (h : InMotion s) : RunMotionExclusive s := (runMotionExclusive_iff s).2 (.inr h)

/-- Outside Moving and Settling the exclusive shape is the one without motion. -/
theorem RunMotionExclusive.noMotion (h : RunMotionExclusive s) (hk : s.tmState = .idle ∨ s.tmState = .executing) :
    NoMotion s := by
  obtain h | h := (runMotionExclusive_iff s).1 h
  · exact h
  · obtain ⟨hm | hm, -, -⟩ := h <;> rcases hk with hk | hk <;> simp [hk] at hm

/-- In Moving and Settling it is the one in motion. -/
theorem RunMotionExclusive.inMotion (h : RunMotionExclusive s) (hk : s.tmState = .moving ∨ s.tmState = .settling) :
    InMotion s := ⟨hk, h.active_iff.2 hk, h.suspend_iff.2 hk⟩

/-! ### A run -/

/-- An instruction in Executing keeps the shape, ends the program in Idle, or starts a session in Moving. -/
theorem exec_exclusive {i : Instr} (h : NoMotion s) (he : exec i s = .next t) : RunMotionExclusive t := by
  obtain ⟨r, v, hx⟩ | ⟨hi, lo, hx⟩ | ⟨x, hx⟩ | ⟨r, v, x, hx⟩ | ⟨a, bs, -, hx⟩ | ⟨code, -, -, hx⟩ |
    ⟨code, rule, -, -, hx⟩ | ⟨code, -, -, hx⟩ | ⟨r, hx⟩ := exec_cases i s <;>
    cases hx.symm.trans he
  iterate 6 exact NoMotion.exclusive { h with }
  · exact InMotion.exclusive ⟨.inl rfl, rfl, rfl⟩
  · exact NoMotion.exclusive ⟨by simp, h.active, h.suspend⟩
  · exact NoMotion.exclusive ⟨by simp, h.active, h.suspend⟩

theorem runStep_exclusive {n : Nat} (h : NoMotion s) (hr : s.runStep n = .next t) : RunMotionExclusive t := by
  obtain ⟨-, rfl⟩ | ⟨-, ⟨-, rfl⟩ | ⟨-, r, rfl⟩ | ⟨-, i, he⟩⟩ := runStep_cases n hr
  · exact NoMotion.exclusive { h with }
  · exact NoMotion.exclusive ⟨by simp, h.active, h.suspend⟩
  · exact NoMotion.exclusive ⟨by simp, h.active, h.suspend⟩
  · exact exec_exclusive (s := s.setPhase (.inRun (n + 1))) { h with } he

/-! ### The control loop -/

theorem resettingBody_noMotion (s : State) : NoMotion s.resettingBody := ⟨by simp, rfl, rfl⟩

/-- H1 leaves a load frame to Idle alone. -/
theorem HostKeepsH1.idle (h : HostKeepsH1 s) (hk : Ticked s) (hf : LoadFramePending s) : s.tmState = .idle := by
  obtain ⟨he, hm, hs⟩ := h hf
  obtain hk | hk | hk | hk := hk
  · exact hk
  · exact absurd hk he
  · exact absurd hk hm
  · exact absurd hk hs

/-- Both ends of the ReceivingSize body leave the session and the suspension alone. -/
theorem receivingSizeBody_noMotion (hact : s.motion.active = false) (hsus : s.suspend = .none) (f : Frame) :
    NoMotion (s.receivingSizeBody f) := by
  rw [receivingSizeBody_eq]
  split <;> exact ⟨by simp, hact, hsus⟩

theorem receivingPayloadBody_noMotion (hact : s.motion.active = false) (hsus : s.suspend = .none) (f : Frame) :
    NoMotion (s.receivingPayloadBody f) := by
  rw [receivingPayloadBody_eq]
  split
  · exact ⟨by simp, hact, rfl⟩
  · exact ⟨by simp, hact, hsus⟩

/-- H1 is used here: a load frame in Moving would leave the session active in Idle. -/
theorem frameStep_exclusive (h : RunMotionExclusive s) (h1 : HostKeepsH1 s) (hp : s.pendingFrame = true) (hk : Ticked s) :
    RunMotionExclusive s.frameStep := by
  have hload (hc : commandOf (parseFrame s.rxFrame).code = .rd ∨ commandOf (parseFrame s.rxFrame).code = .pk) :
      NoMotion s := h.noMotion (.inl (h1.idle hk ⟨hp, hc⟩))
  obtain ⟨-, hx⟩ | ⟨-, hx⟩ | ⟨hc, hx⟩ | ⟨hc, hx⟩ := frameStep_cases s hk <;> rw [hx]
  · exact { h with }
  · exact (resettingBody_noMotion _).exclusive
  · obtain ⟨-, hact, hsus⟩ := hload (.inl hc)
    exact (receivingSizeBody_noMotion (s := (s.consumeFrame.setLoad s.totSize 0).setTask .receivingSize) hact hsus _).exclusive
  · obtain ⟨-, hact, hsus⟩ := hload (.inr hc)
    exact (receivingPayloadBody_noMotion (s := s.consumeFrame.setTask .receivingPayload) hact hsus _).exclusive

theorem idleTick_exclusive (h : NoMotion s) : RunMotionExclusive s.idleTick := by
  unfold State.idleTick
  split
  · exact NoMotion.exclusive ⟨by simp, h.active, h.suspend⟩
  · exact h.exclusive

theorem settlingTick_exclusive (h : InMotion s) (hk : s.tmState = .settling) : RunMotionExclusive s.settlingTick := by
  rw [settlingTick_eq]
  split
  · exact NoMotion.exclusive ⟨by simp, rfl, rfl⟩
  · exact InMotion.exclusive ⟨.inr hk, h.active, h.suspend⟩

theorem tickStep_exclusive (h : RunMotionExclusive s) : RunMotionExclusive s.tickStep := by
  have hb : RunMotionExclusive (s.consumeTick.emit [.backgroundPoll]) := { h with }
  obtain ⟨hk, hx⟩ | ⟨hk, -, hx⟩ | ⟨hk, -, hx⟩ | ⟨hk, -, hx⟩ | ⟨-, -, hx⟩ | ⟨hk, hx⟩ | ⟨-, hx⟩ := tickStep_cases s <;> rw [hx]
  · exact idleTick_exclusive (hb.noMotion (.inl hk))
  · obtain ⟨-, hact, hsus⟩ := hb.noMotion (.inr hk)
    exact NoMotion.exclusive ⟨by simp [State.endRun], hact, hsus⟩
  · obtain ⟨htask, hact, -⟩ := hb.noMotion (.inr hk)
    exact NoMotion.exclusive ⟨htask, hact, rfl⟩
  · obtain ⟨-, hact, hsus⟩ := hb.inMotion (.inl hk)
    exact InMotion.exclusive ⟨.inr rfl, hact, hsus⟩
  · exact hb
  · exact settlingTick_exclusive (hb.inMotion (.inr hk)) hk
  · exact hb

theorem loopIteration_exclusive (h : RunMotionExclusive s) (h1 : HostKeepsH1 s) (hk : Ticked s) :
    RunMotionExclusive s.loopIteration := by
  obtain ⟨-, -, hx⟩ | ⟨hp, -, hx⟩ | ⟨-, -, hx⟩ | ⟨hp, -, hx | hx⟩ := loopIteration_cases s <;> rw [hx]
  · exact h
  · exact frameStep_exclusive h h1 hp hk
  · exact tickStep_exclusive h
  · exact frameStep_exclusive (s := s.nextChoice) { h with } h1 hp hk
  · exact tickStep_exclusive (s := s.nextChoice) { h with }

theorem coreStep_exclusive (hi : Inv s) (h : RunMotionExclusive s) (h1 : HostKeepsH1 s) (hx : s.coreStep = .next t) :
    RunMotionExclusive t := by
  obtain ⟨n, hph, hr⟩ | ⟨-, hk | hk | hk, rfl⟩ | ⟨-, hk, rfl⟩ := coreStep_cases hx
  · obtain ⟨hk, -, -, -⟩ := hi.run_state n hph
    exact runStep_exclusive (h.noMotion (.inr hk)) hr
  · rw [runTransient_resetting hk]
    exact (resettingBody_noMotion s).exclusive
  · exact absurd hk hi.no_transient.1
  · exact absurd hk hi.no_transient.2
  · exact loopIteration_exclusive h h1 hk

theorem step_exclusive (hi : Inv s) (h : RunMotionExclusive s) (h1 : HostKeepsH1 s) (hstep : step s = .next t) :
    RunMotionExclusive t := by
  obtain ⟨rest, -, rfl⟩ | ⟨f, rest, -, -, rfl⟩ | ⟨rest, -, rfl⟩ | ⟨counts, rest, -, rfl⟩ | ⟨-, hcore⟩ := step_cases hstep
  · exact { h with }
  · exact { h with }
  · exact { h with }
  · exact { h with }
  · exact coreStep_exclusive (s := s.setInputs s.inputs.tail) { hi with } { h with } h1 hcore

end

/-- Settles O56: the step keeps the exclusion, and a run is in Executing by the invariant, so it is without motion. -/
theorem runAndMotionStayExclusive : Obligations.RunAndMotionStayExclusive := by
  intro s t hi h h1 hstep
  have ht := step_exclusive hi h h1 hstep
  refine ⟨ht, fun n hph => ?_⟩
  obtain ⟨hk, -, hsus, -⟩ := (stepKeepsTheInvariant s t hi hstep).run_state n hph
  exact ⟨(ht.noMotion (.inr hk)).active, hsus⟩

/-- Settles O57: the power-on state has no motion, and no frame is pending in it. -/
theorem resetIsRunMotionExclusive : Obligations.ResetIsRunMotionExclusive :=
  ⟨NoMotion.exclusive ⟨by decide, rfl, rfl⟩, fun hf => absurd hf.1 (by decide)⟩

end Sys2Proof.Machine
end

section
/-!
PROOFS. How a run ends (46_trap_dispatch.md R171 to R175, 60_exceptions.md): what taking a fault and ending a program do, once, and
the instruction step that leads to them before an instruction is executed.
-/
namespace Sys2Proof.Machine

open Sys2Proof

/-! ### A fault and a halt -/

/-- Everything taking a fault does, the Fault frame with its code and pc included (R215, R235, R238). -/
theorem tookFault (s : State) (r : FaultReason) : TookFault r r.code s (s.takeFault r) where
  program := takeFault_program s r
  interface := takeFault_interface s r
  halted := rfl
  suspend := rfl
  tmState := rfl
  motion := rfl
  choices := rfl
  phase := rfl
  outcome := rfl
  report := by
    have hlen : (r.code :: bytesOfWord s.pc).length ≤ 18 := by simp [bytesOfWord_length]
    have hparse := parseFrame_eq_of_toList (buildFrame_toList s.params.tags.fault _ hlen)
    exact ⟨_, s.takeFault_outputs r, by rw [hparse], by rw [hparse]; rfl⟩

/-- Everything ending a program does (R171, R213). -/
theorem endedHalted (s : State) : EndedHalted s s.haltProgram where
  program := haltProgram_program s
  interface := haltProgram_interface s
  halted := rfl
  suspend := rfl
  tmState := rfl
  motion := rfl
  choices := rfl
  phase := rfl
  outcome := rfl
  outputs := rfl

/-! ### The instruction step -/

section
variable {s : State} {n : Nat}

/-- With the checks before the fetch passed, the step is an instruction step that counts one more (R170, R172). -/
theorem AtInstruction.step_eq (h : AtInstruction n s) : step s = (s.setPhase (.inRun (n + 1))).instrStep :=
  (step_inRun h.inputs h.phase).trans (runStep_budget_left h.budget)

section
variable (h : AtInstruction n s) (hb : s.pc.toNat + 4 ≤ s.params.memCapacity)
include h hb

/-- With the word at pc in bounds too, the step executes the instruction it decodes to. -/
theorem AtInstruction.step_instr {i : Instr} (hw : decodeWord (Memory.word s.mem s.pc.toNat) = .instr i) :
    step s = exec i (s.setPhase (.inRun (n + 1))) := by
  rw [h.step_eq, instrStep_fetched (s := s.setPhase (.inRun (n + 1))) h.loaded (fetch_inside hb)]
  simp only [State.setPhase_mem, State.setPhase_pc, hw]

theorem AtInstruction.step_invalidOpcode (hw : decodeWord (Memory.word s.mem s.pc.toNat) = .invalidOpcode) :
    step s = .next ((s.setPhase (.inRun (n + 1))).takeFault (.invalidOpcode (Memory.word s.mem s.pc.toNat))) := by
  rw [h.step_eq, instrStep_fetched (s := s.setPhase (.inRun (n + 1))) h.loaded (fetch_inside hb)]
  simp only [State.setPhase_mem, State.setPhase_pc, hw]

theorem AtInstruction.step_invalidFunction (hw : decodeWord (Memory.word s.mem s.pc.toNat) = .invalidFunction) :
    step s = .next ((s.setPhase (.inRun (n + 1))).takeFault (.invalidFunction (Memory.word s.mem s.pc.toNat))) := by
  rw [h.step_eq, instrStep_fetched (s := s.setPhase (.inRun (n + 1))) h.loaded (fetch_inside hb)]
  simp only [State.setPhase_mem, State.setPhase_pc, hw]

end

/-- A fault of an instruction step is a fault of the state before it: the count of steps ends with the run. -/
theorem tookFault_setPhase (p : Phase) (r : FaultReason) : TookFault r r.code s ((s.setPhase p).takeFault r) :=
  { tookFault s r with }

theorem endedHalted_setPhase (p : Phase) : EndedHalted s (s.setPhase p).haltProgram := { endedHalted s with }

end

/-- Settles O5: the fetched word is the four bytes at pc, big-endian. -/
theorem stepRunsTheDecodedInstruction : Obligations.StepRunsTheDecodedInstruction := by
  intro s n i h hb _ hdecode
  have hword : decodeWord (Memory.word s.mem s.pc.toNat) = .instr i := hdecode
  exact h.step_instr hb hword

/-- Settles O6: both rejections of the decoder, before any execution. -/
theorem illegalWordFaultsAtDecode : Obligations.IllegalWordFaultsAtDecode := by
  intro s n h hb w
  exact ⟨fun hw => ⟨_, h.step_invalidOpcode hb hw, tookFault_setPhase _ (.invalidOpcode w)⟩,
    fun hw => ⟨_, h.step_invalidFunction hb hw, tookFault_setPhase _ (.invalidFunction w)⟩⟩

/-- Settles O7: the halt check comes before the fetch (R239). -/
theorem runningOffTheProgramHalts : Obligations.RunningOffTheProgramHalts := by
  intro s n hi hph hb hpc
  have hstep := (step_inRun hi hph).trans (runStep_budget_left hb)
  exact ⟨_, hstep.trans (instrStep_past_end (s := s.setPhase _) hpc), endedHalted_setPhase _⟩

/-- Settles O8: the fetch's bounds check comes before the decode. -/
theorem fetchOutOfBoundsFaults : Obligations.FetchOutOfBoundsFaults := by
  intro s n h hb
  have hstep := h.step_eq.trans (instrStep_no_fetch (s := s.setPhase _) h.loaded (fetch_outside hb))
  exact ⟨_, hstep, tookFault_setPhase _ (.memoryOutOfBounds s.pc)⟩

/-- Settles O9: the budget is checked before the instruction step. -/
theorem usedUpBudgetYields : Obligations.UsedUpBudgetYields := by
  intro s n hi hph hb
  rw [step_inRun hi hph, runStep_used_up hb, endRun_yielded]

end Sys2Proof.Machine
end

section
/-!
PROOFS. The arithmetic, logic and shift instructions (40_register_alu.md, 41_shifts.md, 43_immediate_alu.md). Each is one
register write whose frame is `writeResult_wrote`; what is left is the arithmetic of the written value.
-/
namespace Sys2Proof.Machine

open Sys2Proof

/-! ### The written value -/

/-- A register write leaves exactly the value it is given, however that value is described. -/
theorem writeResult_wrote_eq (s : State) (r : RegNum) {v v' : Word} (hv : v = v') :
    ∃ t, writeResult r v s = .next t ∧ WroteRegister r v' s t := hv ▸ writeResult_wrote s r v

/-- The same for a value described by its bits. -/
theorem writeResult_wrote_bits (s : State) (r : RegNum) {v : Word} {bit : Nat → Bool}
    (hv : ∀ k, k < 32 → v.getLsbD k = bit k) :
    ∃ v' t, writeResult r v s = .next t ∧ WroteRegister r v' s t ∧ ∀ k, k < 32 → v'.getLsbD k = bit k :=
  have ⟨t, ht, hw⟩ := writeResult_wrote s r v
  ⟨v, t, ht, hw, hv⟩

theorem sub_eq_ofInt (a b : Word) : a - b = BitVec.ofInt 32 ((a.toNat : Int) - (b.toNat : Int)) := by
  rw [Int.sub_eq_add_neg, BitVec.ofInt_add, BitVec.ofInt_neg, BitVec.ofInt_natCast, BitVec.ofInt_natCast, BitVec.ofNat_toNat,
    BitVec.ofNat_toNat, BitVec.setWidth_eq, BitVec.setWidth_eq, BitVec.sub_eq_add_neg]

theorem boolWord_decide (p : Prop) [Decidable p] : boolWord (decide p) = if p then 1 else 0 := by
  simp [boolWord]

theorem shiftLeft_eq_ofNat (a : Word) (n : Nat) : a <<< n = BitVec.ofNat 32 (a.toNat * 2 ^ n) := by
  apply BitVec.eq_of_toNat_eq
  rw [BitVec.toNat_shiftLeft, BitVec.toNat_ofNat, Nat.shiftLeft_eq]

theorem ushiftRight_eq_ofNat (a : Word) (n : Nat) : a >>> n = BitVec.ofNat 32 (a.toNat / 2 ^ n) := by
  rw [← Nat.shiftRight_eq_div_pow, ← BitVec.toNat_ushiftRight, BitVec.ofNat_toNat, BitVec.setWidth_eq]

/-- An arithmetic shift rounds down (R98). -/
theorem sshiftRight_eq_ofInt (a : Word) (n : Nat) : a.sshiftRight n = BitVec.ofInt 32 (a.toInt / 2 ^ n) := by
  rw [← BitVec.ofInt_toInt (x := a.sshiftRight n), BitVec.toInt_sshiftRight, Int.shiftRight_eq_div_pow]
  norm_cast

/-- The count of a variable shift is x[rs] modulo 32 (R95). -/
theorem shiftCount_eq_mod (v : Word) : shiftCount v = v.toNat % 32 := by
  simp [shiftCount, BitVec.extractLsb'_toNat]

/-! ### Register arithmetic, logic and compare -/

/-- Settles O11: the sum and the difference modulo 2^32. -/
theorem adduSubSubuResults : Obligations.AdduSubSubuResults := fun rd _ _ s =>
  ⟨writeResult_wrote_eq s rd (BitVec.add_def _ _), writeResult_wrote_eq s rd (sub_eq_ofInt _ _),
    writeResult_wrote_eq s rd (sub_eq_ofInt _ _)⟩

/-- Settles O12: the bitwise operations, bit by bit. -/
theorem bitwiseRegisterResults : Obligations.BitwiseRegisterResults := by
  intro rd rs rt s
  refine ⟨writeResult_wrote_bits s rd fun k _ => BitVec.getLsbD_and, writeResult_wrote_bits s rd fun k _ => BitVec.getLsbD_or,
    writeResult_wrote_bits s rd fun k _ => BitVec.getLsbD_xor, writeResult_wrote_bits s rd fun k hk => ?_⟩
  simp [hk]

/-- Settles O13: the comparisons are those of the readings. -/
theorem setLessThanResults : Obligations.SetLessThanResults := fun rd _ _ s =>
  ⟨writeResult_wrote_eq s rd (boolWord_decide _), writeResult_wrote_eq s rd (boolWord_decide _)⟩

/-! ### Shifts -/

/-- Settles O14: a shift by a constant, as arithmetic on the reading. -/
theorem constantShiftResults : Obligations.ConstantShiftResults := fun rd _ _ s =>
  ⟨writeResult_wrote_eq s rd (shiftLeft_eq_ofNat _ _), writeResult_wrote_eq s rd (ushiftRight_eq_ofNat _ _),
    writeResult_wrote_eq s rd (sshiftRight_eq_ofInt _ _)⟩

/-- Settles O15: the same shifts with the count of `shiftCount`. -/
theorem variableShiftResults : Obligations.VariableShiftResults := by
  intro rd rt rs s n
  have hn : shiftCount (s.reg rs) = n := shiftCount_eq_mod _
  exact ⟨writeResult_wrote_eq s rd (by rw [hn, shiftLeft_eq_ofNat]),
    writeResult_wrote_eq s rd (by rw [hn, ushiftRight_eq_ofNat]), writeResult_wrote_eq s rd (by rw [hn, sshiftRight_eq_ofInt])⟩

/-! ### Immediates -/

/-- The sign-extended immediate is its signed reading modulo 2^32 (R68). -/
theorem add_signExtendImm (a : Word) (imm : Half) :
    a + signExtendImm imm = BitVec.ofInt 32 (a.toNat + imm.toInt) := by
  rw [BitVec.ofInt_add, BitVec.ofInt_natCast, BitVec.ofNat_toNat, BitVec.setWidth_eq, signExtendImm, BitVec.signExtend]

/-- A bit of the zero-extended immediate. -/
theorem getLsbD_zeroExtendImm (imm : Half) (k : Nat) (hk : k < 32) :
    (zeroExtendImm imm).getLsbD k = if k < 16 then imm.getLsbD k else false := by
  simp only [zeroExtendImm, BitVec.getLsbD_setWidth, hk, decide_true, Bool.true_and]
  split
  · rfl
  · next h => exact BitVec.getLsbD_of_ge imm k (Nat.le_of_not_lt h)

/-- The value of two bit strings put together. -/
theorem toNat_append_eq_add {m n : Nat} (a : BitVec m) (b : BitVec n) :
    (a ++ b).toNat = a.toNat * 2 ^ n + b.toNat := by
  rw [BitVec.toNat_append, ← Nat.shiftLeft_add_eq_or_of_lt b.isLt, Nat.shiftLeft_eq]

/-- A value is determined by its unsigned reading. -/
theorem eq_ofNat_of_toNat {n k : Nat} {v : BitVec n} (h : v.toNat = k) : v = BitVec.ofNat n k := by
  rw [← h, BitVec.ofNat_toNat, BitVec.setWidth_eq]

theorem replaceHigh_eq_ofNat (imm : Half) (v : Word) :
    replaceHigh imm v = BitVec.ofNat 32 (imm.toNat * 2 ^ 16 + v.toNat % 2 ^ 16) := by
  refine eq_ofNat_of_toNat ((toNat_append_eq_add imm (v.extractLsb' 0 16)).trans ?_)
  rw [BitVec.extractLsb'_toNat, Nat.shiftRight_zero]

theorem replaceLow_eq_ofNat (imm : Half) (v : Word) :
    replaceLow imm v = BitVec.ofNat 32 (v.toNat / 2 ^ 16 * 2 ^ 16 + imm.toNat) := by
  have hv := v.isLt
  refine eq_ofNat_of_toNat ((toNat_append_eq_add (v.extractLsb' 16 16) imm).trans ?_)
  rw [BitVec.extractLsb'_toNat, Nat.shiftRight_eq_div_pow, Nat.mod_eq_of_lt (by omega)]

theorem toInt_signExtendImm (imm : Half) : (signExtendImm imm).toInt = imm.toInt :=
  BitVec.toInt_signExtend_of_le (by omega)

theorem toNat_signExtendImm (imm : Half) :
    (signExtendImm imm).toNat = if imm.toNat < 2 ^ 15 then imm.toNat else imm.toNat + (2 ^ 32 - 2 ^ 16) := by
  have himm := imm.isLt
  rw [signExtendImm, BitVec.toNat_signExtend, BitVec.toNat_setWidth, Nat.mod_eq_of_lt (by omega), BitVec.msb_eq_decide]
  simp only [decide_eq_true_eq]
  split_ifs <;> omega

/-- Settles O21: the sum with the signed reading of the immediate. -/
theorem addImmediateResults : Obligations.AddImmediateResults := fun rt _ _ s =>
  ⟨writeResult_wrote_eq s rt (add_signExtendImm _ _), writeResult_wrote_eq s rt (add_signExtendImm _ _)⟩

/-- Settles O22: the high half of the zero-extended immediate is 0. -/
theorem logicalImmediateResults : Obligations.LogicalImmediateResults := by
  intro rt rs imm s
  refine ⟨writeResult_wrote_bits s rt fun k hk => ?_, writeResult_wrote_bits s rt fun k hk => ?_,
    writeResult_wrote_bits s rt fun k hk => ?_⟩
  · rw [BitVec.getLsbD_and, getLsbD_zeroExtendImm imm k hk]
    split <;> simp
  · rw [BitVec.getLsbD_or, getLsbD_zeroExtendImm imm k hk]
    split <;> simp
  · rw [BitVec.getLsbD_xor, getLsbD_zeroExtendImm imm k hk]
    split <;> simp

/-- Settles O23: one half is the immediate, the other is kept. -/
theorem loadHalfImmediateResults : Obligations.LoadHalfImmediateResults := fun rt imm s =>
  ⟨writeResult_wrote_eq s rt (replaceHigh_eq_ofNat imm _), writeResult_wrote_eq s rt (replaceLow_eq_ofNat imm _)⟩

/-- Settles O24: both comparisons with the sign-extended immediate. -/
theorem setLessThanImmediateResults : Obligations.SetLessThanImmediateResults := by
  intro rt rs imm s
  refine ⟨writeResult_wrote_eq s rt ?_, writeResult_wrote_eq s rt ?_⟩
  · rw [lessSigned, boolWord_decide, toInt_signExtendImm]
  · rw [lessUnsigned, boolWord_decide, toNat_signExtendImm]

end Sys2Proof.Machine
end

section
/-!
PROOFS. Multiply, divide, HI and LO (42_muldiv_hilo.md): the results are exact integers, and they fit where they are narrowed.
-/
namespace Sys2Proof.Machine

open Sys2Proof

/-! ### Multiplication -/

/-- The two halves of a double word. -/
theorem high_append_low (p : BitVec 64) : p.extractLsb' 32 32 ++ p.extractLsb' 0 32 = p := by
  exact (BitVec.extractLsb'_append_extractLsb'_eq_extractLsb' (start₁ := 0) (len₁ := 32) rfl).trans BitVec.extractLsb'_eq_self

/-- The product of two signed words fits 64 bits. -/
theorem toInt_mul_fits (a b : Word) : (BitVec.ofInt 64 (a.toInt * b.toInt)).toInt = a.toInt * b.toInt := by
  have hlo : -2 ^ 62 ≤ a.toInt * b.toInt := BitVec.le_toInt_mul_toInt
  have hhi : a.toInt * b.toInt ≤ 2 ^ 62 := BitVec.toInt_mul_toInt_le
  exact BitVec.toInt_ofInt_eq_self (by omega) (by omega) (by omega)

theorem toNat_mul_fits (a b : Word) : (BitVec.ofNat 64 (a.toNat * b.toNat)).toNat = a.toNat * b.toNat := by
  have hlt : a.toNat * b.toNat < 2 ^ 64 := Nat.mul_lt_mul'' (c := 2 ^ 32) (d := 2 ^ 32) a.isLt b.isLt
  rw [BitVec.toNat_ofNat, Nat.mod_eq_of_lt hlt]

/-- Settles O16: HI and LO are the halves of the exact product. -/
theorem multiplyGivesTheExactProduct : Obligations.MultiplyGivesTheExactProduct := by
  intro rs rt s
  refine ⟨⟨_, _, _, rfl, wroteHiLo s _ _, ?_⟩, ⟨_, _, _, rfl, wroteHiLo s _ _, ?_⟩⟩
  · rw [high_append_low, toInt_mul_fits]
  · rw [← toNat_append_eq_add, high_append_low, toNat_mul_fits]

/-! ### Division -/

/-- Settles O19: the divisor is checked before any write (R108, R109). -/
theorem divisionByZeroFaults : Obligations.DivisionByZeroFaults := fun _ _ s hd =>
  ⟨⟨_, if_pos hd, tookFault s .divideByZero⟩, ⟨_, if_pos hd, tookFault s .divideByZero⟩⟩

theorem exec_div_of_ne_zero {s : State} {rs rt : RegNum} (hd : s.reg rt ≠ 0) :
    exec (.div rs rt) s =
      writeHiLo (BitVec.ofInt 32 ((s.reg rs).toInt.tmod (s.reg rt).toInt))
        (BitVec.ofInt 32 ((s.reg rs).toInt.tdiv (s.reg rt).toInt)) s := by
  rw [Int.tmod_def, Int.mul_comm]
  exact if_neg hd

/-- The remainder of a truncated division is 0 or has the sign of the dividend. -/
theorem tmod_zero_or_same_sign (n d : Int) : n.tmod d = 0 ∨ (0 < n.tmod d ∧ 0 < n) ∨ (n.tmod d < 0 ∧ n < 0) := by
  have hsign := Int.sign_tmod n d
  split at hsign
  · exact .inl (Int.sign_eq_zero_iff_zero.1 hsign)
  · obtain hn | rfl | hn := lt_trichotomy n 0
    · exact .inr (.inr ⟨Int.sign_eq_neg_one_iff_neg.1 (hsign.trans (Int.sign_eq_neg_one_of_neg hn)), hn⟩)
    · exact .inl (Int.zero_tmod d)
    · exact .inr (.inl ⟨Int.sign_eq_one_iff_pos.1 (hsign.trans (Int.sign_eq_one_of_pos hn)), hn⟩)

theorem toInt_ofInt_tmod (a b : Word) : (BitVec.ofInt 32 (a.toInt.tmod b.toInt)).toInt = a.toInt.tmod b.toInt := by
  rw [← BitVec.toInt_srem, BitVec.ofInt_toInt]

/-- The quotient fits 32 bits except for -2^31 / -1. -/
theorem toInt_ofInt_tdiv {a b : Word} (h : ¬ (a = 0x80000000#32 ∧ b = 0xFFFFFFFF#32)) :
    (BitVec.ofInt 32 (a.toInt.tdiv b.toInt)).toInt = a.toInt.tdiv b.toInt := by
  rw [← BitVec.toInt_sdiv_of_ne_or_ne a b (not_and_or.1 h), BitVec.ofInt_toInt]

/-- Settles O17: the exact division, narrowed without loss, with the overflow case apart (D13). -/
theorem divideGivesQuotientAndRemainder : Obligations.DivideGivesQuotientAndRemainder := by
  intro rs rt s hd
  refine ⟨_, _, _, exec_div_of_ne_zero hd, wroteHiLo s _ _, ?_⟩
  split
  · next hover =>
    obtain ⟨hn, hm⟩ := hover
    rw [hn, hm]
    decide
  · next hfits =>
    have hd0 : (s.reg rt).toInt ≠ 0 := fun h0 => hd (BitVec.eq_of_toInt_eq h0)
    rw [toInt_ofInt_tdiv hfits, toInt_ofInt_tmod]
    refine ⟨(Int.tdiv_mul_add_tmod _ _).symm, ?_, tmod_zero_or_same_sign _ _⟩
    rw [Int.natAbs_tmod]
    exact Nat.mod_lt _ (Int.natAbs_pos.2 hd0)

/-- Settles O18: quotient and remainder of the unsigned readings fit 32 bits. -/
theorem divideUnsignedGivesQuotientAndRemainder : Obligations.DivideUnsignedGivesQuotientAndRemainder := by
  intro rs rt s hd
  have hpos : 0 < (s.reg rt).toNat := Nat.pos_of_ne_zero fun h0 => hd (BitVec.eq_of_toNat_eq h0)
  have hquot : (s.reg rs).toNat / (s.reg rt).toNat < 2 ^ 32 := Nat.lt_of_le_of_lt (Nat.div_le_self _ _) (s.reg rs).isLt
  have hrem : (s.reg rs).toNat % (s.reg rt).toNat < (s.reg rt).toNat := Nat.mod_lt _ hpos
  refine ⟨_, _, _, if_neg hd, wroteHiLo s _ _, ?_⟩
  rw [BitVec.toNat_ofNat, BitVec.toNat_ofNat, Nat.mod_eq_of_lt hquot, Nat.mod_eq_of_lt (hrem.trans (s.reg rt).isLt)]
  exact ⟨(Nat.div_add_mod' _ _).symm, hrem⟩

/-! ### Moves -/

/-- Settles O20: each move is one register write. -/
theorem moveHiLoResults : Obligations.MoveHiLoResults := fun r s =>
  ⟨writeResult_wrote s r s.hi, writeResult_wrote s r s.lo, writeHiLo_wrote s (s.reg r) s.lo, writeHiLo_wrote s s.hi (s.reg r)⟩

end Sys2Proof.Machine
end

section
/-!
PROOFS. Control transfer (44_control_transfer.md): the targets as arithmetic on pc.
-/
namespace Sys2Proof.Machine

open Sys2Proof

/-- A taken branch goes four bytes per unit of the signed immediate from pc + 4, modulo 2^32 (R69). -/
theorem branchTarget_eq_ofInt (pc : Word) (imm : Half) :
    branchTarget pc imm = BitVec.ofInt 32 ((pc.toNat : Int) + 4 + 4 * imm.toInt) := by
  have hoffset : branchOffset imm = BitVec.ofInt 32 (4 * imm.toInt) := by
    rw [branchOffset, signExtendImm, BitVec.signExtend, BitVec.shiftLeft_eq_mul_twoPow, BitVec.mul_comm, BitVec.ofInt_mul]
    rfl
  rw [BitVec.ofInt_add, BitVec.ofInt_add, BitVec.ofInt_natCast, BitVec.ofNat_toNat, BitVec.setWidth_eq, ← hoffset]
  rfl

/-- A jump keeps the top four bits of pc + 4 (R70). -/
theorem jumpTarget_eq_ofNat (pc : Word) (target : BitVec 26) :
    jumpTarget pc target = BitVec.ofNat 32 ((pc + 4).toNat / 2 ^ 28 * 2 ^ 28 + target.toNat * 4) := by
  have hpc := (pc + 4).isLt
  have htop : ((pc + 4).extractLsb' 28 4).toNat = (pc + 4).toNat / 2 ^ 28 := by
    rw [BitVec.extractLsb'_toNat, Nat.shiftRight_eq_div_pow, Nat.mod_eq_of_lt (by omega)]
  refine eq_ofNat_of_toNat ((toNat_append_eq_add ((pc + 4).extractLsb' 28 4 ++ target) 0#2).trans ?_)
  rw [toNat_append_eq_add, htop, BitVec.toNat_ofNat]
  omega

/-- What a branch does, with its condition and its target in the terms of the spec. -/
theorem branchIf_transferred_iff (s : State) (imm : Half) {taken : Bool} {p : Prop} [Decidable p] (hp : taken = true ↔ p) :
    ∃ t, branchIf taken imm s = .next t ∧
      Transferred (if p then BitVec.ofInt 32 ((s.pc.toNat : Int) + 4 + 4 * imm.toInt) else s.pc + 4) s t := by
  rw [← branchTarget_eq_ofInt, ← if_congr hp rfl rfl]
  exact branchIf_transferred s taken imm

/-- Settles O25: each branch with its own condition. -/
theorem branchTargets : Obligations.BranchTargets := fun _ _ imm s =>
  ⟨branchIf_transferred_iff s imm beq_iff_eq, branchIf_transferred_iff s imm bne_iff_ne,
    branchIf_transferred_iff s imm decide_eq_true_iff, branchIf_transferred_iff s imm decide_eq_true_iff⟩

/-- Settles O26: the jumps with their links; `jalr` reads its target before it writes the link. -/
theorem jumpTargetsAndLinks : Obligations.JumpTargetsAndLinks := by
  intro rd rs target s jump
  have hjump : jumpTarget s.pc target = jump := jumpTarget_eq_ofNat s.pc target
  exact ⟨⟨_, rfl, hjump ▸ transferred s _⟩, ⟨_, rfl, hjump ▸ linked s 31 _⟩, ⟨_, rfl, transferred s _⟩,
    ⟨_, rfl, linked s rd _⟩⟩

end Sys2Proof.Machine
end

section
/-!
PROOFS. Loads and stores (45_load_store.md): both ends of a load and of a store, the values loaded and the bytes stored, and the
laws of a store followed by a load and of a load followed by a store.
-/
namespace Sys2Proof.Machine

open Sys2Proof

/-! ### Each instruction as its access -/

section
variable (rt rs : RegNum) (imm : Half) (s : State)

theorem exec_lb : exec (.lb rt rs imm) s = loadFrom 1 (fun m a => (Memory.byte m a).signExtend 32) rt rs imm s := rfl
theorem exec_lbu : exec (.lbu rt rs imm) s = loadFrom 1 (fun m a => (Memory.byte m a).zeroExtend 32) rt rs imm s := rfl
theorem exec_lh : exec (.lh rt rs imm) s = loadFrom 2 (fun m a => (Memory.half m a).signExtend 32) rt rs imm s := rfl
theorem exec_lhu : exec (.lhu rt rs imm) s = loadFrom 2 (fun m a => (Memory.half m a).zeroExtend 32) rt rs imm s := rfl
theorem exec_lw : exec (.lw rt rs imm) s = loadFrom 4 Memory.word rt rs imm s := rfl
theorem exec_sb : exec (.sb rt rs imm) s = storeTo [(s.reg rt).extractLsb' 0 8] rs imm s := rfl
theorem exec_sh : exec (.sh rt rs imm) s = storeTo (bytesOfHalf ((s.reg rt).extractLsb' 0 16)) rs imm s := rfl
theorem exec_sw : exec (.sw rt rs imm) s = storeTo (bytesOfWord (s.reg rt)) rs imm s := rfl

end

/-! ### Both ends of an access -/

section
variable {s : State} {rs : RegNum} {imm : Half}

/-- A load in bounds is a register write of the value read. -/
theorem loadFrom_inside {n : Nat} {value : Memory → Nat → Word} {rt : RegNum} {v : Word}
    (hb : s.InBounds (s.effectiveAddress rs imm) n) (hv : value s.mem (s.effectiveAddress rs imm).toNat = v) :
    ∃ t, loadFrom n value rt rs imm s = .next t ∧ WroteRegister rt v s t :=
  ⟨_, if_pos hb, hv ▸ wroteRegister s rt _⟩

/-- A load out of bounds takes the fault and writes no register. -/
theorem loadFrom_outside {n : Nat} {value : Memory → Nat → Word} {rt : RegNum}
    (hb : s.params.memCapacity < (s.effectiveAddress rs imm).toNat + n) :
    ∃ t, loadFrom n value rt rs imm s = .next t ∧ TookFault (.memoryOutOfBounds (s.effectiveAddress rs imm)) 4 s t :=
  ⟨_, if_neg (Nat.not_le.2 hb), tookFault s (.memoryOutOfBounds _)⟩

/-- A store in bounds stores its bytes. -/
theorem storeTo_inside {bs bs' : List Byte} (hb : s.InBounds (s.effectiveAddress rs imm) bs.length) (hbs : bs = bs') :
    ∃ t, storeTo bs rs imm s = .next t ∧ StoredBytes (s.effectiveAddress rs imm).toNat bs' s t :=
  ⟨_, if_pos hb, hbs ▸ storedBytes s _ bs⟩

/-- A store out of bounds takes the fault and writes no byte. -/
theorem storeTo_outside {bs : List Byte} (hb : s.params.memCapacity < (s.effectiveAddress rs imm).toNat + bs.length) :
    ∃ t, storeTo bs rs imm s = .next t ∧ TookFault (.memoryOutOfBounds (s.effectiveAddress rs imm)) 4 s t :=
  ⟨_, if_neg (Nat.not_le.2 hb), tookFault s (.memoryOutOfBounds _)⟩

end

/-! ### Values and bytes -/

theorem zeroExtend_eq_ofNat {n : Nat} (v : BitVec n) : v.zeroExtend 32 = BitVec.ofNat 32 v.toNat :=
  (BitVec.ofNat_toNat 32 v).symm

theorem half_toNat (m : Memory) (a : Nat) :
    (Memory.half m a).toNat = (Memory.byte m a).toNat * 256 + (Memory.byte m (a + 1)).toNat :=
  toNat_append_eq_add _ _

/-- The signed reading of two bytes (R153). -/
theorem signExtend_half (m : Memory) (a h : Nat)
    (hh : (Memory.byte m a).toNat * 256 + (Memory.byte m (a + 1)).toNat = h) :
    (Memory.half m a).signExtend 32 = BitVec.ofInt 32 (if h < 2 ^ 15 then (h : Int) else (h : Int) - 2 ^ 16) := by
  rw [← half_toNat] at hh
  rw [BitVec.signExtend, BitVec.toInt_eq_toNat_cond, hh]
  congr 1
  split_ifs <;> omega

theorem word_eq_ofNat (m : Memory) (a : Nat) :
    Memory.word m a =
      BitVec.ofNat 32 ((Memory.byte m a).toNat * 2 ^ 24 + (Memory.byte m (a + 1)).toNat * 2 ^ 16 +
        (Memory.byte m (a + 2)).toNat * 2 ^ 8 + (Memory.byte m (a + 3)).toNat) :=
  eq_ofNat_of_toNat (wordOfBytes_toNat _ _ _ _)

/-- A byte of a word, by division. -/
theorem extractLsb'_eq_ofNat (v : Word) (k len : Nat) :
    v.extractLsb' k len = BitVec.ofNat len (v.toNat / 2 ^ k) := by
  rw [BitVec.extractLsb', Nat.shiftRight_eq_div_pow]

theorem bytesOfWord_eq_ofNat (v : Word) :
    bytesOfWord v =
      [BitVec.ofNat 8 (v.toNat / 2 ^ 24), BitVec.ofNat 8 (v.toNat / 2 ^ 16), BitVec.ofNat 8 (v.toNat / 2 ^ 8),
        BitVec.ofNat 8 v.toNat] := by
  simp only [bytesOfWord, extractLsb'_eq_ofNat, pow_zero, Nat.div_one]

theorem bytesOfHalf_low_eq_ofNat (v : Word) :
    bytesOfHalf (v.extractLsb' 0 16) = [BitVec.ofNat 8 (v.toNat / 2 ^ 8), BitVec.ofNat 8 v.toNat] := by
  rw [extractLsb'_eq_ofNat, pow_zero, Nat.div_one]
  exact bytesOfHalf_ofNat _

/-! ### Loads -/

/-- Settles O27: the sum with the signed immediate. -/
theorem effectiveAddressWraps : Obligations.EffectiveAddressWraps := fun s rs imm => add_signExtendImm (s.reg rs) imm

/-- Settles O28: one byte, extended. -/
theorem loadByteExtends : Obligations.LoadByteExtends := by
  intro rt rs imm s ea b
  rw [exec_lb, exec_lbu]
  refine ⟨⟨opcodeOf_immediateWord _ rs rt imm, opcodeOf_immediateWord _ rs rt imm, by decide, by decide⟩, fun hin => ?_,
    fun hout => ?_⟩
  · exact ⟨loadFrom_inside hin rfl, loadFrom_inside hin (zeroExtend_eq_ofNat b)⟩
  · exact ⟨loadFrom_outside (Nat.lt_succ_of_le hout), loadFrom_outside (Nat.lt_succ_of_le hout)⟩

/-- Settles O29: two bytes, the high one first, extended. -/
theorem loadHalfwordExtends : Obligations.LoadHalfwordExtends := by
  intro rt rs imm s ea h
  rw [exec_lh, exec_lhu]
  refine ⟨fun hin => ⟨loadFrom_inside hin (signExtend_half s.mem _ h rfl), loadFrom_inside hin ?_⟩,
    fun hout => ⟨loadFrom_outside hout, loadFrom_outside hout⟩⟩
  rw [zeroExtend_eq_ofNat, half_toNat]

/-- Settles O30: four bytes, each at its place. -/
theorem loadWordAssemblesBigEndian : Obligations.LoadWordAssemblesBigEndian := by
  intro rt rs imm s ea b
  rw [exec_lw]
  exact ⟨⟨opcodeOf_immediateWord _ rs rt imm, by decide⟩, fun hin => loadFrom_inside hin (word_eq_ofNat s.mem _),
    fun hout => loadFrom_outside hout⟩

/-! ### Stores -/

/-- Settles O31: the bytes of `sb` and of `sw`. -/
theorem storeByteAndWordBytes : Obligations.StoreByteAndWordBytes := by
  intro rt rs imm s ea v
  rw [exec_sb, exec_sw]
  refine ⟨⟨opcodeOf_immediateWord _ rs rt imm, opcodeOf_immediateWord _ rs rt imm, by decide, by decide⟩, fun hin => ?_,
    fun hout => storeTo_outside (Nat.lt_succ_of_le hout), fun hin => storeTo_inside hin (bytesOfWord_eq_ofNat v),
    fun hout => storeTo_outside hout⟩
  exact storeTo_inside hin (by rw [extractLsb'_eq_ofNat, pow_zero, Nat.div_one])

/-- Settles O32: the two bytes of `sh`. -/
theorem storeHalfwordBytes : Obligations.StoreHalfwordBytes := by
  intro rt rs imm s ea v
  rw [exec_sh]
  exact ⟨fun hin => storeTo_inside hin (bytesOfHalf_low_eq_ofNat _), fun hout => storeTo_outside hout⟩

/-! ### A store and a load -/

/-- The word stored is the word read back (R158, R155). -/
theorem word_of_storedBytes {a : Nat} {v : Word} {s t : State} (h : StoredBytes a (bytesOfWord v) s t) :
    Memory.word t.mem a = v := by
  have hbyte (k : Nat) (hk : k < 4) : Memory.byte t.mem (a + k) = (bytesOfWord v)[k] := h.stored k hk
  rw [Memory.word_eq, hbyte 1 (by omega), hbyte 2 (by omega), hbyte 3 (by omega), ← Nat.add_zero a, hbyte 0 (by omega)]
  exact wordOfBytes_bytesOfWord v

/-- Extending a value and taking its low bits gives the value back, whatever the extension. -/
theorem extractLsb'_signExtend {n : Nat} (v : BitVec n) (h : n ≤ 32) : (v.signExtend 32).extractLsb' 0 n = v := by
  apply BitVec.eq_of_getLsbD_eq
  intro i hi
  simp only [BitVec.getLsbD_extractLsb', BitVec.getLsbD_signExtend, Nat.zero_add, hi, Nat.lt_of_lt_of_le hi h, decide_true,
    Bool.true_and, if_true]

theorem extractLsb'_zeroExtend {n : Nat} (v : BitVec n) (h : n ≤ 32) : (v.zeroExtend 32).extractLsb' 0 n = v := by
  apply BitVec.eq_of_getLsbD_eq
  intro i hi
  simp [hi, Nat.lt_of_lt_of_le hi h]

section
variable {s t u : State} {r rs base : RegNum} {imm disp : Half}

/-- A load in bounds into a register other than 0 leaves the value read in it. -/
theorem loadFrom_reg {n : Nat} {value : Memory → Nat → Word} (hr : r ≠ 0)
    (hin : s.InBounds (s.effectiveAddress rs imm) n) (h : loadFrom n value r rs imm s = .next t) :
    t.params = s.params ∧ t.reg r = value s.mem (s.effectiveAddress rs imm).toNat := by
  obtain ⟨t', ht, hw⟩ := loadFrom_inside (rt := r) (value := value) hin rfl
  cases ht.symm.trans h
  exact ⟨hw.control.params, hw.result.trans (if_neg hr)⟩

/-- A store in bounds stores its bytes and nothing else. -/
theorem storeTo_stored {bs : List Byte} (hin : s.InBounds (s.effectiveAddress rs imm) bs.length)
    (h : storeTo bs rs imm s = .next t) : StoredBytes (s.effectiveAddress rs imm).toNat bs s t := by
  obtain ⟨t', ht, hstored⟩ := storeTo_inside hin rfl
  cases ht.symm.trans h
  exact hstored

/-- After `lb` or `lbu` the low byte of the register is the byte read. -/
theorem low_byte_of_load (hr : r ≠ 0) (hin : (s.effectiveAddress rs imm).toNat < s.params.memCapacity)
    (h : exec (.lb r rs imm) s = .next t ∨ exec (.lbu r rs imm) s = .next t) :
    t.params = s.params ∧ (t.reg r).extractLsb' 0 8 = Memory.byte s.mem (s.effectiveAddress rs imm).toNat := by
  rw [exec_lb, exec_lbu] at h
  obtain h | h := h
  · obtain ⟨hparams, hreg⟩ := loadFrom_reg hr hin h
    exact ⟨hparams, by rw [hreg, extractLsb'_signExtend _ (by omega)]⟩
  · obtain ⟨hparams, hreg⟩ := loadFrom_reg hr hin h
    exact ⟨hparams, by rw [hreg, extractLsb'_zeroExtend _ (by omega)]⟩

/-- After `lh` or `lhu` the low half of the register is the halfword read. -/
theorem low_half_of_load (hr : r ≠ 0) (hin : (s.effectiveAddress rs imm).toNat + 2 ≤ s.params.memCapacity)
    (h : exec (.lh r rs imm) s = .next t ∨ exec (.lhu r rs imm) s = .next t) :
    t.params = s.params ∧ (t.reg r).extractLsb' 0 16 = Memory.half s.mem (s.effectiveAddress rs imm).toNat := by
  rw [exec_lh, exec_lhu] at h
  obtain h | h := h
  · obtain ⟨hparams, hreg⟩ := loadFrom_reg hr hin h
    exact ⟨hparams, by rw [hreg, extractLsb'_signExtend _ (by omega)]⟩
  · obtain ⟨hparams, hreg⟩ := loadFrom_reg hr hin h
    exact ⟨hparams, by rw [hreg, extractLsb'_zeroExtend _ (by omega)]⟩

end

/-- Settles O33: what a load leaves in the register is, in its low bits, what was read, and a store writes those bits. -/
theorem storeThenLoadGivesTheValueBack : Obligations.StoreThenLoadGivesTheValueBack := by
  intro s t u r rt rs base imm disp hr ea ea2
  refine ⟨fun hin hst hea hld => ?_, fun hin hld hin2 hst => ?_, fun hin hld hin2 hst => ?_⟩
  · rw [exec_sw] at hst
    rw [exec_lw] at hld
    have hstored := storeTo_stored hin hst
    have hin2 : t.InBounds (t.effectiveAddress base disp) 4 := by rw [State.InBounds, hea, hstored.control.params]; exact hin
    rw [(loadFrom_reg hr hin2 hld).2, hea]
    exact word_of_storedBytes hstored
  · obtain ⟨hparams, hlow⟩ := low_byte_of_load hr hin hld
    rw [exec_sb, hlow] at hst
    have hin3 : t.InBounds (t.effectiveAddress base disp) 1 := by rw [State.InBounds, hparams]; exact hin2
    exact (storeTo_stored hin3 hst).stored 0 Nat.one_pos
  · obtain ⟨hparams, hlow⟩ := low_half_of_load hr hin hld
    rw [exec_sh, hlow, Memory.half_eq, bytesOfHalf_append] at hst
    have hin3 : t.InBounds (t.effectiveAddress base disp) 2 := by rw [State.InBounds, hparams]; exact hin2
    have hstored := storeTo_stored hin3 hst
    exact ⟨hstored.stored 0 Nat.two_pos, hstored.stored 1 Nat.one_lt_two⟩

end Sys2Proof.Machine
end

section
/-!
PROOFS. The trap instruction (46_trap_dispatch.md R165 to R176) by the class TRAP_TABLE gives its code, and what an instruction of
any kind leaves alone: the interface always, the control state except at the listed ends of a run.
-/
namespace Sys2Proof.Machine

open Sys2Proof

/-! ### One equation per class -/

section
variable {code : BitVec 8} {s : State}

theorem exec_trap_halt (h : s.params.trapClass code = .halt) : exec (.trap code) s = .next s.haltProgram := by
  simp only [exec, execTrap, h]

theorem exec_trap_sync (h : s.params.trapClass code = .sync) :
    exec (.trap code) s = .next (s.emit [.hostEffect code]).advance := by
  simp only [exec, execTrap, h]

theorem exec_trap_motion {rule : MotionRule} (h : s.params.trapClass code = .motion rule) :
    exec (.trap code) s = .next (s.suspendFor (motionRequest s.params code rule s.regs)) := by
  simp only [exec, execTrap, h]

theorem exec_trap_unassigned (h : s.params.trapClass code = .unassigned) :
    exec (.trap code) s = .next (s.takeFault (.unknownTrap code)) := by
  simp only [exec, execTrap, h]

end

/-- Settles O34: the program ends. -/
theorem haltTrapEndsTheProgram : Obligations.HaltTrapEndsTheProgram := fun _ s h => ⟨_, exec_trap_halt h, endedHalted s⟩

/-- Settles O37: the fault of a code with no row. -/
theorem unassignedTrapFaults : Obligations.UnassignedTrapFaults := fun code s h =>
  ⟨_, exec_trap_unassigned h, tookFault s (.unknownTrap code)⟩

/-- An output event and the fall-through leave the control state alone. -/
theorem sameControl_emit_advance (s : State) (es : List Output) : SameControl s (s.emit es).advance := by
  constructor <;> rfl

/-- Settles O35: one output event and pc + 4. -/
theorem syncTrapOnlyEmitsItsEvent : Obligations.SyncTrapOnlyEmitsItsEvent := fun _ s h =>
  ⟨_, exec_trap_sync h, rfl, rfl, fun _ => rfl, rfl, rfl, fun _ => rfl, sameControl_emit_advance s _⟩

/-- Settles O36: the request, the suspension, the session, and its events in the order of `orderAxes`. -/
theorem motionTrapSuspendsAndStartsTheSession : Obligations.MotionTrapSuspendsAndStartsTheSession := by
  intro code rule s h
  have hfixed (row : MotionRequest) (hrow : rule = .fixed row) : motionRequest s.params code rule s.regs = row := by
    rw [hrow, motionRequest]
  have hcomputed (hrule : rule = .computed) (haxes : s.params.axes ≠ []) :
      LegalAxes s.params (motionRequest s.params code rule s.regs).axes := by
    rw [hrule]
    exact legalAxes_computedAxes haxes code s.regs
  exact ⟨_, orderAxes s.choices (motionRequest s.params code rule s.regs).axes, hfixed, hcomputed, exec_trap_motion h, rfl, rfl,
    rfl, rfl, rfl, fun _ => rfl, rfl, rfl, fun _ => rfl, suspendFor_interface s _, rfl, rfl, orderAxes_perm _ _, rfl⟩

/-- Settles O38: the three rows of R167, and no row for any other code. -/
theorem defaultTrapTableClasses : Obligations.DefaultTrapTableClasses := by
  refine ⟨by decide, by decide, by decide, fun code h0 h1 h16 => ?_⟩
  have hnone : Params.default.trapTable.lookup code = none := by
    simpa [Params.default, List.lookup_eq_none_iff] using ⟨h0, h1, h16⟩
  rw [Params.trapClass, hnone]
  rfl

/-! ### Every instruction -/

/-- Settles O39: in each outcome of `exec_cases` the interface is as before. -/
theorem everyInstructionAnswersANextState : Obligations.EveryInstructionAnswersANextState := by
  intro i s
  obtain ⟨r, v, hx⟩ | ⟨hi, lo, hx⟩ | ⟨x, hx⟩ | ⟨r, v, x, hx⟩ | ⟨a, bs, -, hx⟩ | ⟨code, -, -, hx⟩ |
    ⟨code, rule, -, -, hx⟩ | ⟨code, -, -, hx⟩ | ⟨r, hx⟩ := exec_cases i s
  iterate 6 exact ⟨_, hx, by constructor <;> rfl⟩
  · exact ⟨_, hx, suspendFor_interface s _⟩
  · exact ⟨_, hx, haltProgram_interface s⟩
  · exact ⟨_, hx, takeFault_interface s r⟩

/-- The instructions that may end or suspend a run, in the states in which they do (R235, R171, R169). -/
def MayEndRun (i : Instr) (s : State) : Prop :=
  (∃ rs rt, (i = .div rs rt ∨ i = .divu rs rt) ∧ s.reg rt = 0) ∨
    (∃ (rt rs : RegNum) (imm : Half) (n : Nat),
      s.params.memCapacity < (s.effectiveAddress rs imm).toNat + n ∧
        (n = 1 ∧ (i = .lb rt rs imm ∨ i = .lbu rt rs imm ∨ i = .sb rt rs imm) ∨
          n = 2 ∧ (i = .lh rt rs imm ∨ i = .lhu rt rs imm ∨ i = .sh rt rs imm) ∨
            n = 4 ∧ (i = .lw rt rs imm ∨ i = .sw rt rs imm))) ∨
      ∃ code, i = .trap code ∧ s.params.trapClass code ≠ .sync

/-- An answer that leaves the control state alone. -/
def KeepsControl (s : State) (x : Result) : Prop := ∃ t, x = .next t ∧ SameControl s t

section
variable (s : State)

theorem keepsControl_execDiv {rs rt : RegNum} (hd : s.reg rt ≠ 0) : KeepsControl s (execDiv rs rt s) :=
  ⟨_, if_neg hd, (wroteHiLo s _ _).control⟩

theorem keepsControl_execDivu {rs rt : RegNum} (hd : s.reg rt ≠ 0) : KeepsControl s (execDivu rs rt s) :=
  ⟨_, if_neg hd, (wroteHiLo s _ _).control⟩

theorem keepsControl_execTrap {code : BitVec 8} (h : s.params.trapClass code = .sync) : KeepsControl s (exec (.trap code) s) :=
  ⟨_, exec_trap_sync h, sameControl_emit_advance s _⟩

/-- A load is out of bounds or leaves the control state alone. -/
theorem loadFrom_outside_or_keepsControl (n : Nat) (value : Memory → Nat → Word) (rt rs : RegNum) (imm : Half) :
    s.params.memCapacity < (s.effectiveAddress rs imm).toNat + n ∨ KeepsControl s (loadFrom n value rt rs imm s) :=
  (Nat.lt_or_ge _ _).imp_right fun hin =>
    have ⟨t, ht, hw⟩ := loadFrom_inside hin rfl
    ⟨t, ht, hw.control⟩

theorem storeTo_outside_or_keepsControl {n : Nat} {bs : List Byte} (hn : bs.length = n) (rs : RegNum) (imm : Half) :
    s.params.memCapacity < (s.effectiveAddress rs imm).toNat + n ∨ KeepsControl s (storeTo bs rs imm s) :=
  (Nat.lt_or_ge _ _).imp_right fun hin =>
    have ⟨t, ht, hst⟩ := storeTo_inside (hn ▸ hin) rfl
    ⟨t, ht, hst.control⟩

/-- Any other instruction, or a listed one in a state in which it does not fault, leaves the control state alone. -/
theorem exec_mayEndRun_or_keepsControl (i : Instr) : MayEndRun i s ∨ KeepsControl s (exec i s) := by
  cases i with
  | div rs rt =>
    by_cases hd : s.reg rt = 0
    · exact .inl (.inl ⟨rs, rt, .inl rfl, hd⟩)
    · exact .inr (keepsControl_execDiv s hd)
  | divu rs rt =>
    by_cases hd : s.reg rt = 0
    · exact .inl (.inl ⟨rs, rt, .inr rfl, hd⟩)
    · exact .inr (keepsControl_execDivu s hd)
  | trap code =>
    by_cases hc : s.params.trapClass code = .sync
    · exact .inr (keepsControl_execTrap s hc)
    · exact .inl (.inr (.inr ⟨code, rfl, hc⟩))
  | lb rt rs imm =>
    rw [exec_lb]
    exact (loadFrom_outside_or_keepsControl s ..).imp_left fun hout => .inr (.inl ⟨rt, rs, imm, 1, hout, by simp⟩)
  | lbu rt rs imm =>
    rw [exec_lbu]
    exact (loadFrom_outside_or_keepsControl s ..).imp_left fun hout => .inr (.inl ⟨rt, rs, imm, 1, hout, by simp⟩)
  | lh rt rs imm =>
    rw [exec_lh]
    exact (loadFrom_outside_or_keepsControl s ..).imp_left fun hout => .inr (.inl ⟨rt, rs, imm, 2, hout, by simp⟩)
  | lhu rt rs imm =>
    rw [exec_lhu]
    exact (loadFrom_outside_or_keepsControl s ..).imp_left fun hout => .inr (.inl ⟨rt, rs, imm, 2, hout, by simp⟩)
  | lw rt rs imm =>
    rw [exec_lw]
    exact (loadFrom_outside_or_keepsControl s ..).imp_left fun hout => .inr (.inl ⟨rt, rs, imm, 4, hout, by simp⟩)
  | sb rt rs imm =>
    rw [exec_sb]
    exact (storeTo_outside_or_keepsControl s (by rfl) ..).imp_left fun hout => .inr (.inl ⟨rt, rs, imm, 1, hout, by simp⟩)
  | sh rt rs imm =>
    rw [exec_sh]
    exact (storeTo_outside_or_keepsControl s (by rfl) ..).imp_left fun hout => .inr (.inl ⟨rt, rs, imm, 2, hout, by simp⟩)
  | sw rt rs imm =>
    rw [exec_sw]
    exact (storeTo_outside_or_keepsControl s (by rfl) ..).imp_left fun hout => .inr (.inl ⟨rt, rs, imm, 4, hout, by simp⟩)
  | _ => exact .inr ⟨_, rfl, by constructor <;> rfl⟩

end

/-- Settles O40: an answer that leaves the control state alone is no change of it. -/
theorem onlyTheListedInstructionsEndARun : Obligations.OnlyTheListedInstructionsEndARun := by
  intro i s t h hcontrol
  obtain hlisted | ⟨u, hu, hsame⟩ := exec_mayEndRun_or_keepsControl s i
  · exact hlisted
  · cases hu.symm.trans h
    exact absurd hsame hcontrol

end Sys2Proof.Machine
end

section
/-!
PROOFS. The frame commands (47_frame_commands.md): what the frame step of each command code does, in every ticked state.
-/
namespace Sys2Proof.Machine

open Sys2Proof

section
variable {s : State}

/-! ### One frame between two steps -/

/-- With a frame pending and no tick, the step is the frame step. -/
theorem step_pending_frame (hi : s.inputs = []) (hph : s.phase = .atLoop) (hk : Ticked s) (ht : s.pendingTick = false)
    (hf : s.pendingFrame = true) : step s = .next s.frameStep :=
  (step_atLoop hi hph hk).trans (congrArg _ (loopIteration_frame hf ht))

theorem frameStep_rs (hc : (parseFrame s.rxFrame).code = (0x52, 0x53)) :
    s.frameStep = (s.consumeFrame.setTask .resetting).resettingBody := by
  simp only [State.frameStep, State.dispatchCommand, hc, commandOf_rs]
  exact runTransient_resetting rfl

theorem frameStep_rd (hc : (parseFrame s.rxFrame).code = (0x52, 0x44)) :
    s.frameStep = ((s.consumeFrame.setLoad s.totSize 0).setTask .receivingSize).receivingSizeBody s.rxFrame := by
  simp only [State.frameStep, State.dispatchCommand, hc, commandOf_rd]
  rfl

theorem frameStep_pk (hc : (parseFrame s.rxFrame).code = (0x50, 0x4B)) :
    s.frameStep = (s.consumeFrame.setTask .receivingPayload).receivingPayloadBody s.rxFrame := by
  simp only [State.frameStep, State.dispatchCommand, hc, commandOf_pk]
  rfl

theorem frameStep_unknown (hk : Ticked s) (hc : commandOf (parseFrame s.rxFrame).code = .unknown) :
    s.frameStep = s.consumeFrame.emitFrame .diag [(parseFrame s.rxFrame).code.1, (parseFrame s.rxFrame).code.2] := by
  obtain ⟨-, hx⟩ | ⟨hcmd, -⟩ | ⟨hcmd, -⟩ | ⟨hcmd, -⟩ := frameStep_cases s hk
  · exact hx
  all_goals exact absurd (hc.symm.trans hcmd) (by simp)

end

/-! ### "RS", "RD" and the unknown command -/

/-- Settles O41: at power-on the Resetting body runs before any flag is looked at (R265). -/
theorem powerOnRunsTheResettingBody : Obligations.PowerOnRunsTheResettingBody := rfl

/-- Settles O42: the Resetting body, run once and run again on its own result. -/
theorem resetFrameClearsTheCore : Obligations.ResetFrameClearsTheCore := by
  intro s hi hph hk ht hf hcode
  have hstep := (step_pending_frame hi hph hk ht hf).trans (congrArg _ (frameStep_rs hcode))
  refine ⟨_, hstep, rfl, fun _ => rfl, State.reg_of_regs_zero rfl, rfl, rfl, rfl, rfl, rfl, rfl, rfl, rfl, rfl, rfl, rfl, rfl,
    rfl, rfl, rfl, ?_⟩
  have hagain := step_pending_frame (s := ((s.consumeFrame.setTask .resetting).resettingBody).raiseFrame s.rxFrame) hi hph
    (.inl rfl) ht rfl
  exact hagain.trans (congrArg _ (frameStep_rs hcode))

/-- Settles O43: both ends of the ReceivingSize body. -/
theorem sizeFrameIsAcceptedOrRejected : Obligations.SizeFrameIsAcceptedOrRejected := by
  intro s hi hph hk ht hf hcode byte size data
  have hdata : bytesOfHalf (BitVec.ofNat 16 (declaredSize s.params (parseFrame s.rxFrame).payload)) = data :=
    bytesOfHalf_ofNat _
  have hstep := (step_pending_frame hi hph hk ht hf).trans (congrArg _ (frameStep_rd hcode))
  rw [hstep, receivingSizeBody_eq]
  simp only [State.setTask_params, State.setLoad_params, State.consumeFrame_params, hdata]
  have hsize : declaredSize s.params (parseFrame s.rxFrame).payload = size := rfl
  clear_value size data
  refine ⟨fun hle => ?_, fun hgt => ?_⟩
  · rw [hsize, if_neg (Nat.not_lt.2 hle)]
    exact congrArg _ (by apply State.ext <;> simp [tagOf])
  · rw [hsize, if_pos hgt]
    exact congrArg _ (by apply State.ext <;> simp [tagOf])

/-- Settles O45: the Diag frame and nothing else. -/
theorem unknownCommandIsEchoedOnly : Obligations.UnknownCommandIsEchoedOnly := by
  intro s hi hph hk ht hf hrd hpk hrs
  exact (step_pending_frame hi hph hk ht hf).trans (congrArg _ (frameStep_unknown hk (commandOf_unknown hrd hpk hrs)))

/-! ### "PK" -/

/-- What the frame step of a "PK" frame does (R194, R195): the copy, the acknowledgement, and the end of a load that is then
complete. -/
structure TookProgramFrame (s t : State) : Prop where
  copied : ∀ k, k < copyCount s →
    Memory.byte t.mem (s.bytesIn.toNat + k) = (parseFrame s.rxFrame).payload.getD k 0
  elsewhere : ∀ a, a < s.bytesIn.toNat ∨ s.bytesIn.toNat + copyCount s ≤ a → Memory.byte t.mem a = Memory.byte s.mem a
  bytesIn : t.bytesIn.toNat = s.bytesIn.toNat + copyCount s
  totSize : t.totSize = s.totSize
  motion : t.motion = s.motion
  pendingFrame : t.pendingFrame = false
  pendingTick : t.pendingTick = s.pendingTick
  extEvent : t.extEvent = s.extEvent
  params : t.params = s.params
  phase : t.phase = s.phase
  rxFrame : t.rxFrame = s.rxFrame
  inputs : t.inputs = s.inputs
  encoders : t.encoders = s.encoders
  choices : t.choices = s.choices
  lastOutcome : t.lastOutcome = s.lastOutcome
  outputs : t.outputs = s.outputs ++ [.frame .ackPacket (buildFrame s.params.tags.ackPacket (bytesOfHalf t.bytesIn))]
  complete : t.bytesIn = s.totSize →
    t.tmState = .executing ∧ (∀ r, t.reg r = 0) ∧ t.hi = 0 ∧ t.lo = 0 ∧ t.pc = 0 ∧ t.halted = false ∧ t.suspend = .none
  incomplete : t.bytesIn ≠ s.totSize →
    t.tmState = .idle ∧ SameRegisters s t ∧ t.hi = s.hi ∧ t.lo = s.lo ∧ t.pc = s.pc ∧ t.halted = s.halted ∧
      t.suspend = s.suspend

section
variable {s : State}

/-- The bytes a "PK" frame copies are all there: a payload has 18. -/
theorem length_take_payload (s : State) (f : Frame) : ((parseFrame f).payload.take (copyCount s)).length = copyCount s := by
  rw [List.length_take, parseFrame_payload_length]
  exact Nat.min_eq_left (Nat.min_le_left _ _)

theorem byte_copyPayload_inside (s : State) (f : Frame) (k : Nat) (hk : k < copyCount s) :
    Memory.byte (s.copyPayload f).mem (s.bytesIn.toNat + k) = (parseFrame f).payload.getD k 0 := by
  have hlen : k < ((parseFrame f).payload.take (copyCount s)).length := by rw [length_take_payload]; exact hk
  refine (Memory.byte_writeBytes_inside s.mem _ _ k hlen).trans ?_
  rw [List.getElem_take, List.getD_eq_getElem]

theorem byte_copyPayload_outside (s : State) (f : Frame) (a : Nat)
    (ha : a < s.bytesIn.toNat ∨ s.bytesIn.toNat + copyCount s ≤ a) :
    Memory.byte (s.copyPayload f).mem a = Memory.byte s.mem a :=
  Memory.byte_writeBytes_outside s.mem _ _ a (by rw [length_take_payload]; exact ha)

theorem tookProgramFrame (hc : (parseFrame s.rxFrame).code = (0x50, 0x4B)) (hle : s.bytesIn.toNat ≤ s.totSize.toNat) :
    TookProgramFrame s s.frameStep := by
  rw [frameStep_pk hc, receivingPayloadBody_eq]
  have hcopied := byte_copyPayload_inside (s.consumeFrame.setTask .receivingPayload) s.rxFrame
  have helsewhere := byte_copyPayload_outside (s.consumeFrame.setTask .receivingPayload) s.rxFrame
  have hbytes := copyPayload_bytesIn (s := s.consumeFrame.setTask .receivingPayload) s.rxFrame hle
  split
  · next hdone =>
    constructor
    case copied => exact hcopied
    case elsewhere => exact helsewhere
    case bytesIn => exact hbytes
    case complete => exact fun _ => ⟨by simp, State.reg_of_regs_zero (by simp), by simp⟩
    case incomplete => exact fun hne => absurd hdone hne
    all_goals simp
  · next hopen =>
    constructor
    case copied => exact hcopied
    case elsewhere => exact helsewhere
    case bytesIn => exact hbytes
    case complete => exact fun heq => absurd heq hopen
    case incomplete => exact fun _ => ⟨by simp, fun _ => by simp, by simp⟩
    all_goals simp

end

/-- Settles O44: the frame step of a "PK" frame. -/
theorem programFrameCopiesAndStarts : Obligations.ProgramFrameCopiesAndStarts := by
  intro s hi hph hk ht hf hcode hle n data total
  obtain ⟨hcopied, helsewhere, hbytes, htot, hmotion, hframe, htick, hext, hparams, hphase, hrx, hinputs, henc, hchoices, hlast,
    houtputs, hcomplete, hincomplete⟩ := tookProgramFrame hcode hle
  have hack : bytesOfHalf s.frameStep.bytesIn = [BitVec.ofNat 8 (total / 256), BitVec.ofNat 8 total] := by
    rw [eq_ofNat_of_toNat hbytes]
    exact bytesOfHalf_ofNat total
  have hdone : total = s.totSize.toNat ↔ s.frameStep.bytesIn = s.totSize := by
    rw [← BitVec.toNat_inj, hbytes]
    rfl
  refine ⟨_, step_pending_frame hi hph hk ht hf, hcopied, helsewhere, hbytes, htot, hmotion, hframe, htick, hext, hparams,
    hphase.trans hph, hrx, hinputs, henc, hchoices, hlast, hack ▸ houtputs, ?_⟩
  split
  · next h => exact hcomplete (hdone.1 h)
  · next h => exact hincomplete (mt hdone.2 h)

end Sys2Proof.Machine
end

section
/-!
PROOFS. The tick step and the control loop (48_task_state_machine.md): the body of each ticked state, arrivals, both flags at once,
and what keeps a program frozen while the motors move.
-/
namespace Sys2Proof.Machine

open Sys2Proof

/-! ### One tick -/

section
variable {s : State}

/-- With a tick pending and no frame, the step is the tick step. -/
theorem step_pending_tick (hi : s.inputs = []) (hph : s.phase = .atLoop) (hk : Ticked s) (ht : s.pendingTick = true)
    (hf : s.pendingFrame = false) : step s = .next s.tickStep :=
  (step_atLoop hi hph hk).trans (congrArg _ (loopIteration_tick hf ht))

theorem idleTick_eq (s : State) :
    s.idleTick = { s with extEvent := false, tmState := if s.extEvent then .executing else s.tmState } := by
  unfold State.idleTick
  split
  · rfl
  · next he => rw [← Bool.eq_false_iff.2 he]

theorem targetReached_iff (s : State) :
    s.targetReached = true ↔ ∀ a ∈ s.motion.axes, s.motion.target.toNat ≤ (s.encoderCount a).toNat := by
  simp only [State.targetReached, List.all_eq_true, decide_eq_true_eq]

end

/-- Settles O47: the external event is taken by the Idle body. -/
theorem idleTickTakesTheExternalEvent : Obligations.IdleTickTakesTheExternalEvent := by
  intro s hi hph ht hf hk
  rw [step_pending_tick hi hph (.inl hk) ht hf, tickStep_idle hk, idleTick_eq, State.emit_tmState,
    State.consumeTick_tmState, hk]
  rfl

/-- Settles O48: a halted interpreter returns at once, another begins its run. -/
theorem executingTickRunsOrReturnsHalted : Obligations.ExecutingTickRunsOrReturnsHalted := by
  intro s hi hph ht hf hk
  have hstep := step_pending_tick hi hph (.inr (.inl hk)) ht hf
  obtain ⟨hk', -⟩ | ⟨-, hh, hx⟩ | ⟨-, hh, hx⟩ | ⟨hk', -⟩ | ⟨hk', -⟩ | ⟨hk', -⟩ | ⟨hk' | hk' | hk', -⟩ := tickStep_cases s
  case inr.inl =>
    rw [hstep, hx, if_pos hh]
    exact congrArg _ (by apply State.ext <;> simp [State.endRun, hph])
  case inr.inr.inl =>
    rw [hstep, hx, if_neg (by simp [hh])]
    rfl
  all_goals exact absurd (hk.symm.trans hk') (by simp)

/-- Settles O49: the test of the counts decides between stopping and going on. -/
theorem movingTickStopsOnlyAtTheTarget : Obligations.MovingTickStopsOnlyAtTheTarget := by
  intro s hi hph ht hf hk
  have hstep := (step_pending_tick hi hph (.inr (.inr (.inl hk))) ht hf).trans (congrArg _ (tickStep_moving hk))
  refine ⟨fun hall => ?_, fun ⟨a, ha, hlt⟩ => ?_⟩
  · have hreached := (targetReached_iff (s.consumeTick.emit [.backgroundPoll])).2 hall
    rw [State.movingTick, if_pos hreached] at hstep
    exact ⟨_, orderAxes s.choices s.motion.axes, hstep, orderAxes_perm _ _, by simp, rfl, rfl,
      ⟨fun _ => rfl, rfl, rfl, rfl, fun _ => rfl⟩, rfl, rfl, rfl, hph⟩
  · have hnot := mt (targetReached_iff (s.consumeTick.emit [.backgroundPoll])).1 fun hall =>
      absurd (hall a ha) (Nat.not_le.2 hlt)
    rw [State.movingTick, if_neg hnot] at hstep
    exact hstep

/-! ### Five Settling ticks -/

theorem runSteps_two {s t u : State} (h : step s = .next t) (h' : step t = .next u) : runSteps 2 s = .next u :=
  (runSteps_succ 1 h).trans (runSteps_succ 0 h')

/-- A schedule entry and the step that consumes it: a tick that arrives between two steps is taken at once. -/
theorem runSteps_deliver_tick {s : State} {rest : List Input} (hi : s.inputs = .tick :: .quiet :: rest)
    (hph : s.phase = .atLoop) (hk : Ticked s) (hf : s.pendingFrame = false) :
    runSteps 2 s = .next ((s.setInputs rest).raiseTick).tickStep := by
  have htaken := loopIteration_tick (s := ((s.setInputs (.quiet :: rest)).raiseTick).setInputs rest) hf rfl
  have hquiet := step_atLoop_quiet (s := (s.setInputs (.quiet :: rest)).raiseTick) rfl hph hk
  exact runSteps_two (step_tick hi) (hquiet.trans (congrArg _ htaken))

/-- `k` ticks, each consumed before the next arrives. -/
def settlingTicks (k : Nat) : List Input := (List.replicate k [Input.tick, Input.quiet]).flatten

theorem settlingTicks_succ_append (k : Nat) (rest : List Input) :
    settlingTicks (k + 1) ++ rest = settlingTicks k ++ .tick :: .quiet :: rest := by
  simp [settlingTicks, List.replicate_succ']

/-- `t` is `s`, in Settling between steps, after `k` of its ticks, with a schedule left. -/
structure AfterSettlingTicks (k : Nat) (rest : List Input) (s t : State) : Prop where
  inputs : t.inputs = rest
  phase : t.phase = .atLoop
  pendingTick : t.pendingTick = false
  pendingFrame : t.pendingFrame = false
  tmState : t.tmState = .settling
  motion : t.motion = { s.motion with debounce := BitVec.ofNat 8 k }
  program : SameProgram s t
  halted : t.halted = s.halted
  suspend : t.suspend = s.suspend

section
variable {s t : State} {k : Nat} {rest : List Input}

theorem SameProgram.trans {u : State} (h : SameProgram s t) (h' : SameProgram t u) : SameProgram s u where
  registers r := (h'.registers r).trans (h.registers r)
  hi := h'.hi.trans h.hi
  lo := h'.lo.trans h.lo
  pc := h'.pc.trans h.pc
  memory a := (h'.memory a).trans (h.memory a)

theorem AfterSettlingTicks.runSteps_two (h : AfterSettlingTicks k (.tick :: .quiet :: rest) s t) :
    runSteps 2 t = .next (((t.setInputs rest).raiseTick).consumeTick.emit [.backgroundPoll]).settlingTick := by
  rw [runSteps_deliver_tick h.inputs h.phase (.inr (.inr (.inr h.tmState))) h.pendingFrame]
  exact congrArg _ (tickStep_settling h.tmState)

theorem AfterSettlingTicks.debounce_succ (h : AfterSettlingTicks k rest s t) :
    t.motion.debounce + 1 = BitVec.ofNat 8 (k + 1) := by
  rw [h.motion]
  exact (BitVec.ofNat_add k 1).symm

/-- The first four ticks only count. -/
theorem AfterSettlingTicks.succ (h : AfterSettlingTicks k (.tick :: .quiet :: rest) s t) (hk : k < 4) :
    ∃ u, runSteps 2 t = .next u ∧ AfterSettlingTicks (k + 1) rest s u := by
  have hcount : ¬ settleThreshold < (t.motion.debounce + 1).toNat := by
    have hthreshold : settleThreshold = 4 := rfl
    rw [h.debounce_succ, BitVec.toNat_ofNat]
    omega
  refine ⟨_, h.runSteps_two.trans (congrArg _ ((settlingTick_eq _).trans (if_neg hcount))), ?_⟩
  refine ⟨rfl, h.phase, rfl, h.pendingFrame, h.tmState, ?_, h.program.trans (sameProgram_of rfl rfl rfl rfl rfl), h.halted,
    h.suspend⟩
  simp only [State.emit_motion, State.consumeTick_motion, State.raiseTick_motion, State.setInputs_motion, h.debounce_succ]
  rw [h.motion]

/-- The fifth tick resumes. -/
theorem AfterSettlingTicks.fifth (h : AfterSettlingTicks 4 (.tick :: .quiet :: rest) s t) :
    ∃ u, runSteps 2 t = .next u ∧ u.tmState = .executing ∧ u.motion = { s.motion with active := false, debounce := 0 } ∧
      u.suspend = .none ∧ SameProgram s u ∧ u.halted = s.halted := by
  have hcount : settleThreshold < (t.motion.debounce + 1).toNat := by
    rw [h.debounce_succ]
    decide
  refine ⟨_, h.runSteps_two.trans (congrArg _ ((settlingTick_eq _).trans (if_pos hcount))), rfl, ?_, rfl,
    h.program.trans (sameProgram_of rfl rfl rfl rfl rfl), h.halted⟩
  simp only [State.emit_motion, State.consumeTick_motion, State.raiseTick_motion, State.setInputs_motion, h.motion]

theorem runSteps_settlingTicks (hph : s.phase = .atLoop) (ht : s.pendingTick = false) (hf : s.pendingFrame = false)
    (hk : s.tmState = .settling) (hd : s.motion.debounce = 0) (k : Nat) (hk4 : k ≤ 4) (rest : List Input) :
    ∃ t, runSteps (2 * k) { s with inputs := settlingTicks k ++ rest } = .next t ∧ AfterSettlingTicks k rest s t := by
  induction k generalizing rest with
  | zero =>
    have hmotion : s.motion = { s.motion with debounce := 0 } := by rw [← hd]
    exact ⟨_, rfl, rfl, hph, ht, hf, hk, hmotion, ⟨fun _ => rfl, rfl, rfl, rfl, fun _ => rfl⟩, rfl, rfl⟩
  | succ k ih =>
    obtain ⟨t, hrun, hafter⟩ := ih (by omega) (.tick :: .quiet :: rest)
    obtain ⟨u, hrun2, hafter2⟩ := hafter.succ (by omega)
    rw [settlingTicks_succ_append]
    exact ⟨u, (runSteps_add (2 * k) 2 hrun).trans hrun2, hafter2⟩

end

/-- Settles O50: four ticks by induction, then the fifth. -/
theorem fiveSettlingTicksResume : Obligations.FiveSettlingTicksResume := by
  intro s hph ht hf hk hd ticks
  refine ⟨fun k hk4 => ?_, ?_⟩
  · obtain ⟨t, hrun, h⟩ := runSteps_settlingTicks hph ht hf hk hd k hk4 []
    rw [List.append_nil] at hrun
    exact ⟨t, hrun, h.tmState, h.motion, h.program, h.halted, h.suspend⟩
  · obtain ⟨t, hrun, h⟩ := runSteps_settlingTicks hph ht hf hk hd 4 le_rfl [.tick, .quiet]
    obtain ⟨u, hrun2, htask, hmotion, hsus, hprog, hhalt⟩ := h.fifth
    refine ⟨u, (runSteps_add 8 2 hrun).trans hrun2, htask, hmotion.trans ?_, hsus, hprog, hhalt⟩
    rw [← hd]

/-! ### Arrivals and both flags at once -/

/-- Settles O51: an arrival writes its flag or value. -/
theorem arrivalsOnlySetTheirFlag : Obligations.ArrivalsOnlySetTheirFlag := by
  intro s rest f counts
  exact ⟨rfl, rfl, rfl, fun hf => step_frame (s := { s with inputs := .frame f :: rest }) rfl hf, fun hf => if_pos hf⟩

theorem frameStep_flags {s : State} (hk : Ticked s) :
    s.frameStep.pendingTick = s.pendingTick ∧ s.frameStep.pendingFrame = false := by
  obtain ⟨-, hx⟩ | ⟨-, hx⟩ | ⟨-, hx⟩ | ⟨-, hx⟩ := frameStep_cases s hk <;> rw [hx]
  · exact ⟨rfl, rfl⟩
  · exact ⟨rfl, rfl⟩
  · rw [receivingSizeBody_eq]
    split <;> simp
  · rw [receivingPayloadBody_eq]
    split <;> simp

theorem tickStep_flags (s : State) :
    s.tickStep.pendingTick = false ∧ s.tickStep.pendingFrame = s.pendingFrame ∧ s.tickStep.rxFrame = s.rxFrame := by
  obtain ⟨-, hx⟩ | ⟨-, -, hx⟩ | ⟨-, -, hx⟩ | ⟨-, -, hx⟩ | ⟨-, -, hx⟩ | ⟨-, hx⟩ | ⟨-, hx⟩ := tickStep_cases s <;> rw [hx]
  · rw [idleTick_eq]
    exact ⟨rfl, rfl, rfl⟩
  · exact ⟨rfl, rfl, rfl⟩
  · exact ⟨rfl, rfl, rfl⟩
  · exact ⟨rfl, rfl, rfl⟩
  · exact ⟨rfl, rfl, rfl⟩
  · rw [settlingTick_eq]
    split <;> exact ⟨rfl, rfl, rfl⟩
  · exact ⟨rfl, rfl, rfl⟩

/-- Settles O52: each of the two steps consumes its own flag and leaves the other. -/
theorem bothPendingTakesOneAndKeepsTheOther : Obligations.BothPendingTakesOneAndKeepsTheOther := by
  intro s hi hph hk
  refine ⟨fun ht hf => ?_, fun ht hf => ?_⟩
  · refine ⟨_, step_atLoop hi hph hk, ?_⟩
    obtain ⟨hf', -⟩ | ⟨-, ht', -⟩ | ⟨hf', -⟩ | ⟨-, -, hx | hx⟩ := loopIteration_cases s
    · exact absurd (hf.symm.trans hf') (by simp)
    · exact absurd (ht.symm.trans ht') (by simp)
    · exact absurd (hf.symm.trans hf') (by simp)
    · obtain ⟨htick, hframe⟩ := frameStep_flags (s := s.nextChoice) hk
      rw [hx]
      exact .inl ⟨htick.trans ht, hframe, rfl⟩
    · obtain ⟨htick, hframe, hrx⟩ := tickStep_flags s.nextChoice
      rw [hx]
      exact .inr ⟨htick, hframe.trans hf, hrx, rfl⟩
  · rw [step_atLoop hi hph hk, loopIteration_wait hf ht]

/-! ### The program while the motors move -/

/-- The program state and halted are as before and no run is in progress. -/
def Frozen (s t : State) : Prop := SameProgram s t ∧ t.halted = s.halted ∧ t.phase = .atLoop

theorem frozen_of {s t : State} (hr : t.regs = s.regs) (hh : t.hi = s.hi) (hl : t.lo = s.lo) (hp : t.pc = s.pc)
    (hm : t.mem = s.mem) (hhalt : t.halted = s.halted) (hph : t.phase = .atLoop) : Frozen s t :=
  ⟨sameProgram_of hr hh hl hp hm, hhalt, hph⟩

theorem Frozen.trans {s t u : State} (h : Frozen s t) (h' : Frozen t u) : Frozen s u :=
  have ⟨hprogram, hhalted, _⟩ := h
  have ⟨hprogram', hhalted', hphase⟩ := h'
  ⟨hprogram.trans hprogram', hhalted'.trans hhalted, hphase⟩

section
variable {s : State}

/-- A frame step of another command than "PK" and "RS" writes the load session and the TM state at most. -/
theorem frameStep_frozen (hph : s.phase = .atLoop) (hk : Ticked s)
    (hc : ¬ ((parseFrame s.rxFrame).code = (0x50, 0x4B) ∨ (parseFrame s.rxFrame).code = (0x52, 0x53))) :
    Frozen s s.frameStep := by
  obtain ⟨hpk, hrs⟩ := not_or.1 hc
  obtain ⟨-, hx⟩ | ⟨hcmd, -⟩ | ⟨-, hx⟩ | ⟨hcmd, -⟩ := frameStep_cases s hk
  · rw [hx]
    exact frozen_of rfl rfl rfl rfl rfl rfl hph
  · exact absurd ((commandOf_eq_rs_iff _).1 hcmd) hrs
  · rw [hx, receivingSizeBody_eq]
    split <;> apply frozen_of <;> simp [hph]
  · exact absurd ((commandOf_eq_pk_iff _).1 hcmd) hpk

theorem tickStep_frozen (hph : s.phase = .atLoop) (hk : s.tmState = .moving ∨ s.tmState = .settling) :
    Frozen s s.tickStep := by
  obtain hk | hk := hk
  · rw [tickStep_moving hk]
    unfold State.movingTick
    split <;> exact frozen_of rfl rfl rfl rfl rfl rfl hph
  · rw [tickStep_settling hk, settlingTick_eq]
    split <;> exact frozen_of rfl rfl rfl rfl rfl rfl hph

theorem loopIteration_frozen (hph : s.phase = .atLoop) (hk : s.tmState = .moving ∨ s.tmState = .settling)
    (hc : ¬ (s.pendingFrame = true ∧ s.loopIteration.pendingFrame = false ∧
      ((parseFrame s.rxFrame).code = (0x50, 0x4B) ∨ (parseFrame s.rxFrame).code = (0x52, 0x53)))) :
    Frozen s s.loopIteration := by
  have hticked : Ticked s := .inr (.inr hk)
  have hchoice : Frozen s s.nextChoice := frozen_of rfl rfl rfl rfl rfl rfl hph
  obtain ⟨-, -, hx⟩ | ⟨hf, -, hx⟩ | ⟨-, -, hx⟩ | ⟨hf, -, hx | hx⟩ := loopIteration_cases s <;> rw [hx] at hc ⊢
  · exact frozen_of rfl rfl rfl rfl rfl rfl hph
  · exact frameStep_frozen hph hticked fun hcode => hc ⟨hf, (frameStep_flags hticked).2, hcode⟩
  · exact tickStep_frozen hph hk
  · exact hchoice.trans <| frameStep_frozen (s := s.nextChoice) hph hticked fun hcode =>
      hc ⟨hf, (frameStep_flags (s := s.nextChoice) hticked).2, hcode⟩
  · exact hchoice.trans (tickStep_frozen (s := s.nextChoice) hph hk)

end

/-- Settles O53: an arrival writes no program state, nor does an iteration of the control loop in these states. -/
theorem programIsFrozenWhileMoving : Obligations.ProgramIsFrozenWhileMoving := by
  intro s t hph hk hstep hc
  obtain ⟨rest, -, rfl⟩ | ⟨f, rest, -, -, rfl⟩ | ⟨rest, -, rfl⟩ | ⟨counts, rest, -, rfl⟩ | ⟨-, hcore⟩ := step_cases hstep
  · exact frozen_of rfl rfl rfl rfl rfl rfl hph
  · exact frozen_of rfl rfl rfl rfl rfl rfl hph
  · exact frozen_of rfl rfl rfl rfl rfl rfl hph
  · exact frozen_of rfl rfl rfl rfl rfl rfl hph
  · obtain ⟨n, hph', -⟩ | ⟨-, hk', -⟩ | ⟨-, -, rfl⟩ := coreStep_cases hcore
    · exact absurd (hph.symm.trans hph') (by simp)
    · have hk2 : s.tmState = .resetting ∨ s.tmState = .receivingSize ∨ s.tmState = .receivingPayload := hk'
      rcases hk with hk | hk <;> simp [hk] at hk2
    · have hinputs : Frozen s (s.setInputs s.inputs.tail) := frozen_of rfl rfl rfl rfl rfl rfl hph
      exact hinputs.trans (loopIteration_frozen (s := s.setInputs s.inputs.tail) hph hk hc)

end Sys2Proof.Machine
end

section
/-!
PROOFS. The load protocol (47_frame_commands.md section 3): an "RD" frame declares the size, each "PK" frame then places the next
chunk of the image, and the frame that completes it starts the program. By induction on the number of "PK" frames.
-/
namespace Sys2Proof.Machine

open Sys2Proof

/-! ### The host's frames -/

theorem parseFrame_buildFrame (tag : Byte × Byte) (data : List Byte) (hdata : data.length ≤ 18) :
    parseFrame (buildFrame tag data) = { code := tag, payload := data ++ List.replicate (18 - data.length) 0 } :=
  parseFrame_eq_of_toList (buildFrame_toList tag data hdata)

theorem parseFrame_sizeFrame_code (p : Params) (size : Nat) : (parseFrame (sizeFrame p size)).code = (0x52, 0x44) := by
  rw [sizeFrame, parseFrame_buildFrame _ _ (by simp)]

/-- The size that a host declares is read back from the two offsets, which are distinct (D28). -/
theorem declaredSize_sizeFrame {p : Params} (hoff : p.sizeOffHi ≠ p.sizeOffLo) {size : Nat} (hsize : size ≤ 65535) :
    declaredSize p (parseFrame (sizeFrame p size)).payload = size := by
  have hhi := p.sizeOffHi.isLt
  have hlo := p.sizeOffLo.isLt
  have hne : p.sizeOffLo.val ≠ p.sizeOffHi.val := fun h => hoff (Fin.ext h.symm)
  rw [declaredSize, sizeFrame, parseFrame_buildFrame _ _ (by simp)]
  simp [hne]
  omega

/-- The `k`-th chunk of an image: what the `k`-th "PK" frame carries. -/
def imageChunk (image : List Byte) (k : Nat) : List Byte := (image.drop (18 * k)).take 18

theorem length_imageChunk (image : List Byte) (k : Nat) :
    (imageChunk image k).length = min 18 (image.length - 18 * k) := by
  rw [imageChunk, List.length_take, List.length_drop]

theorem parseFrame_programFrame_code (image : List Byte) (k : Nat) :
    (parseFrame (programFrame (imageChunk image k))).code = (0x50, 0x4B) := by
  rw [programFrame, parseFrame_buildFrame _ _ (by rw [length_imageChunk]; exact Nat.min_le_left _ _)]

/-- Payload byte `j` of the `k`-th frame is byte `18 * k + j` of the image. -/
theorem payload_programFrame_getD (image : List Byte) (k j : Nat) (hj : j < 18) (hin : 18 * k + j < image.length) :
    (parseFrame (programFrame (imageChunk image k))).payload.getD j 0 = image[18 * k + j] := by
  have hlen := length_imageChunk image k
  have hchunk : j < (imageChunk image k).length := by omega
  rw [programFrame, parseFrame_buildFrame _ _ (by omega), List.getD_eq_getElem _ _ (by simp; omega),
    List.getElem_append_left hchunk]
  simp [imageChunk]

/-- A frame that arrives between two steps is taken at once. -/
theorem runSteps_deliver_frame {s : State} {f : Frame} {rest : List Input} (hi : s.inputs = .frame f :: .quiet :: rest)
    (hph : s.phase = .atLoop) (hk : Ticked s) (ht : s.pendingTick = false) (hf : s.pendingFrame = false) :
    runSteps 2 s = .next ((s.setInputs rest).raiseFrame f).frameStep := by
  have htaken := loopIteration_frame (s := ((s.setInputs (.quiet :: rest)).raiseFrame f).setInputs rest) rfl ht
  have hquiet := step_atLoop_quiet (s := (s.setInputs (.quiet :: rest)).raiseFrame f) rfl hph hk
  exact runSteps_two (step_frame hi hf) (hquiet.trans (congrArg _ htaken))

/-! ### The load after `k` program frames -/

/-- The interpreter is fresh and the TM in Executing: a load is complete (R28, R195). -/
structure FreshProgram (t : State) : Prop where
  tmState : t.tmState = .executing
  registers : ∀ r, t.reg r = 0
  hi : t.hi = 0
  lo : t.lo = 0
  pc : t.pc = 0
  halted : t.halted = false
  suspend : t.suspend = .none

/-- `t` is a load of the image in `s`, between two steps, after `k` of its "PK" frames, with a schedule left. -/
structure AfterProgramFrames (image : List Byte) (k : Nat) (rest : List Input) (s t : State) : Prop where
  inputs : t.inputs = rest
  phase : t.phase = .atLoop
  pendingTick : t.pendingTick = false
  pendingFrame : t.pendingFrame = false
  totSize : t.totSize.toNat = image.length
  bytesIn : t.bytesIn.toNat = min (18 * k) image.length
  loaded : ∀ (j : Nat) (h : j < image.length), j < 18 * k → Memory.byte t.mem j = image[j]
  above : ∀ a, image.length ≤ a → Memory.byte t.mem a = Memory.byte s.mem a
  open_idle : 18 * k < image.length → t.tmState = .idle
  complete : image.length ≤ 18 * k → FreshProgram t

section
variable {s t : State} {image : List Byte} {k : Nat} {rest : List Input}

/-- The "RD" frame opens the load. -/
theorem runSteps_sizeFrame (hph : s.phase = .atLoop) (hk : s.tmState = .idle) (ht : s.pendingTick = false)
    (hf : s.pendingFrame = false) (hoff : s.params.sizeOffHi ≠ s.params.sizeOffLo) (hpos : 1 ≤ image.length)
    (hlen : image.length ≤ 65535) (hcap : image.length ≤ s.params.memCapacity) :
    ∃ t, runSteps 2 (s.setInputs (.frame (sizeFrame s.params image.length) :: .quiet :: rest)) = .next t ∧
      AfterProgramFrames image 0 rest s t := by
  have hcode : (parseFrame ((s.setInputs rest).raiseFrame (sizeFrame s.params image.length)).rxFrame).code = (0x52, 0x44) :=
    parseFrame_sizeFrame_code _ _
  have hdecl := declaredSize_sizeFrame hoff hlen
  refine ⟨_, runSteps_deliver_frame (s := s.setInputs _) rfl hph (.inl hk) ht hf, ?_⟩
  have hinputs :
      (s.setInputs (.frame (sizeFrame s.params image.length) :: .quiet :: rest)).setInputs rest = s.setInputs rest := rfl
  rw [hinputs, frameStep_rd hcode, receivingSizeBody_eq]
  simp only [State.setTask_params, State.setLoad_params, State.consumeFrame_params, State.raiseFrame_params,
    State.setInputs_params, State.raiseFrame_rxFrame, hdecl]
  rw [if_neg (Nat.not_lt.2 hcap)]
  constructor
  case totSize => simp; omega
  case loaded => simp
  case complete => omega
  all_goals simp [hph, ht]

/-- The next "PK" frame places the next chunk, and completes the load when the image ends with it. -/
theorem AfterProgramFrames.succ
    (h : AfterProgramFrames image k (.frame (programFrame (imageChunk image k)) :: .quiet :: rest) s t)
    (hk : 18 * k < image.length) : ∃ u, runSteps 2 t = .next u ∧ AfterProgramFrames image (k + 1) rest s u := by
  have hrun := runSteps_deliver_frame h.inputs h.phase (.inl (h.open_idle hk)) h.pendingTick h.pendingFrame
  have hbytes : t.bytesIn.toNat = 18 * k := by rw [h.bytesIn]; omega
  have hle : t.bytesIn.toNat ≤ t.totSize.toNat := by rw [hbytes, h.totSize]; omega
  have hcount : copyCount ((t.setInputs rest).raiseFrame (programFrame (imageChunk image k))) =
      min 18 (image.length - 18 * k) := by
    rw [← h.totSize, ← hbytes]
    rfl
  have hframe := tookProgramFrame (s := (t.setInputs rest).raiseFrame (programFrame (imageChunk image k)))
    (parseFrame_programFrame_code image k) hle
  refine ⟨_, hrun, ?_⟩
  generalize ((t.setInputs rest).raiseFrame (programFrame (imageChunk image k))).frameStep = u at hframe
  obtain ⟨hcopied, helsewhere, hbytes', htot, -, hpend, htick, -, -, hphase, -, hinputs, -, -, -, -, hcomplete, hincomplete⟩ :=
    hframe
  simp only [State.raiseFrame_bytesIn, State.setInputs_bytesIn, State.raiseFrame_mem, State.setInputs_mem, hbytes, hcount,
    State.raiseFrame_rxFrame] at hcopied helsewhere hbytes'
  have htot' : u.totSize.toNat = image.length := by rw [htot]; exact h.totSize
  have hdone : u.bytesIn = t.totSize ↔ image.length ≤ 18 * (k + 1) := by
    rw [← BitVec.toNat_inj, hbytes', h.totSize]
    omega
  constructor
  case inputs => exact hinputs
  case phase => exact hphase.trans h.phase
  case pendingTick => exact htick.trans h.pendingTick
  case pendingFrame => exact hpend
  case totSize => exact htot'
  case bytesIn => omega
  case loaded =>
    intro j hj hjk
    by_cases hold : j < 18 * k
    · rw [helsewhere j (.inl hold)]
      exact h.loaded j hj hold
    · obtain ⟨i, rfl⟩ := Nat.exists_eq_add_of_le (Nat.le_of_not_lt hold)
      rw [hcopied i (by omega)]
      exact payload_programFrame_getD image k i (by omega) hj
  case above =>
    intro a ha
    rw [helsewhere a (.inr (by omega))]
    exact h.above a ha
  case open_idle => exact fun hopen => (hincomplete (mt hdone.1 (Nat.not_le.2 hopen))).1
  case complete =>
    intro hlast
    obtain ⟨htask, hregs, hhi, hlo, hpc, hhalt, hsus⟩ := hcomplete (hdone.2 hlast)
    exact ⟨htask, hregs, hhi, hlo, hpc, hhalt, hsus⟩

end

/-- The schedule of the first `k` "PK" frames. -/
def programSchedule (image : List Byte) (k : Nat) : List Input :=
  (List.range k).flatMap fun k => [.frame (programFrame (imageChunk image k)), .quiet]

theorem programSchedule_succ_append (image : List Byte) (k : Nat) (rest : List Input) :
    programSchedule image (k + 1) ++ rest =
      programSchedule image k ++ .frame (programFrame (imageChunk image k)) :: .quiet :: rest := by
  simp [programSchedule, List.range_succ]

/-- Settles O58: the "RD" frame, then the "PK" frames by induction. -/
theorem loadProtocolPlacesTheImage : Obligations.LoadProtocolPlacesTheImage := by
  intro s image hph hk ht hf hoff hpos hlen hcap
  have hload (k : Nat) (hle : 18 * k < image.length + 18) (rest : List Input) :
      ∃ t, runSteps (2 + 2 * k)
        (s.setInputs (.frame (sizeFrame s.params image.length) :: .quiet :: (programSchedule image k ++ rest))) = .next t ∧
          AfterProgramFrames image k rest s t := by
    induction k generalizing rest with
    | zero => exact runSteps_sizeFrame hph hk ht hf hoff hpos hlen hcap
    | succ k ih =>
      obtain ⟨t, hrun, hafter⟩ := ih (by omega) (.frame (programFrame (imageChunk image k)) :: .quiet :: rest)
      obtain ⟨u, hrun2, hafter2⟩ := hafter.succ (by omega)
      rw [programSchedule_succ_append]
      exact ⟨u, (runSteps_add (2 + 2 * k) 2 hrun).trans hrun2, hafter2⟩
  have hfew : 18 * programFrameCount image.length < image.length + 18 := by
    unfold programFrameCount
    omega
  have hall : image.length ≤ 18 * programFrameCount image.length := by
    unfold programFrameCount
    omega
  obtain ⟨t, hrun, h⟩ := hload _ hfew []
  obtain ⟨htask, hregs, hhi, hlo, hpc, hhalt, hsus⟩ := h.complete hall
  rw [List.append_nil] at hrun
  refine ⟨t, hrun, ?_, h.totSize, fun j hj => h.loaded j hj (by omega), h.above, hregs, hhi, hlo, hpc, hhalt, hsus, htask,
    h.phase, h.inputs⟩
  rw [h.bytesIn]
  omega

end Sys2Proof.Machine
end
